-- ==== Sys2Proof/Word.lean ====
section
/-!
DEFINITION. The widths that 00_scope.md rule R11 fixes, each under a name of its own. All values are unsigned (R12).
-/

namespace Sys2Proof

/-- A data byte, and a pin number field (R11: 8 bits). -/
abbrev Byte := BitVec 8

/-- A physical register address of the chip, "as seen on the wire" (R11, R50: 8 bits). -/
abbrev RegAddr := BitVec 8

/-- A port word: port A in bits 7..0, port B in bits 15..8 (R11, R60: 16 bits). -/
abbrev PortWord := BitVec 16

/-- A command word (R11, R80: 32 bits). -/
abbrev CommandWord := BitVec 32

/-- A bit index within a byte (R11: 3 bits). -/
abbrev BitIndex := BitVec 3

/-- A 7-bit I2C device address (R11). -/
abbrev DeviceAddr := BitVec 7

/-- The SPI hardware address field (R11: 3 bits). -/
abbrev HwAddr := BitVec 3

end Sys2Proof
end

