-- ==== Sys2Proof/Config.lean ====
section
/-!
DEFINITION. The build-time parameters of 00_scope.md rule R10 and the constants that follow from them. They are fixed for the
life of an instance (10_state.md R21); the machine carries its instance's parameters unchanged (log 1), so every claim is made
for every instance. The model needs no opaque free value: what the spec leaves unconstrained (read data, completions, R62)
comes from outside, as input data of the step (log 2).
-/

namespace Sys2Proof

/-- `PIN_COUNT` (R10): the 8-pin variant has one port, the 16-pin variant two (R2). -/
inductive PinCount where
  | eight
  | sixteen
deriving DecidableEq, Repr

/-- `PORT_WRITE_REG` (R10, D15): the register DIGITAL_WRITE, WRITE_PORT and WRITE_PORTS16 target. -/
inductive PortWriteReg where
  | gpio
  | olat
deriving DecidableEq, Repr

/-- The parameter set that identifies an instance (R3, R10). -/
structure Config where
  pinCount     : PinCount
  portWriteReg : PortWriteReg
  spiOpcodeHi  : BitVec 4
  mirrorBit    : BitIndex
  odrBit       : BitIndex
  intpolBit    : BitIndex
deriving DecidableEq, Repr

/-- The number of pins (R10). -/
def PinCount.pins : PinCount → Nat
  | .eight => 8
  | .sixteen => 16

/-- `NPORTS = PIN_COUNT / 8` (R10). -/
def PinCount.nports (p : PinCount) : Nat := p.pins / 8

/-- `HWA_BITS`: 3 if `PIN_COUNT = 16`, else 2 (R10, R122). -/
def PinCount.hwaBits : PinCount → Nat
  | .eight => 2
  | .sixteen => 3

/-- The defaults of R10. `PIN_COUNT` has no default there; an instance names it. -/
def Config.withPins (p : PinCount) : Config :=
  { pinCount := p, portWriteReg := .gpio, spiOpcodeHi := 0x4, mirrorBit := 6, odrBit := 2, intpolBit := 1 }

/-- The instance `State.reset` and `decodeTableWord` stand for: `PRD(PIN_COUNT=16, PORT_WRITE_REG=GPIO, SPI_OPCODE_HI=0x4)`,
the instance R3 writes as its example. DESIGN CHOICE, unsafe for a claim about that one instance only: log 1. -/
def Config.standard : Config := Config.withPins .sixteen

end Sys2Proof
end

