-- ==== Sys2Proof/Syntax.lean ====
section
/-!
DEFINITION. The sixteen commands of 30_encoding.md rule R84, one constructor per row of spec/opcode_table.json, with the
operands of R81 and R82.
-/

namespace Sys2Proof

/-- A port: "one 8-bit half (A or B)"; A = 0, B = 1 (00_scope.md R17). -/
inductive Port where
  | A
  | B
deriving DecidableEq, Repr

/-- MODE of SET_PIN_MODE (R82); the value 3 is reserved and no mode. -/
inductive PinMode where
  | input
  | output
  | inputPullup
deriving DecidableEq, Repr

/-- TRIG of ENABLE_PIN_INTERRUPT (R82); the value 3 is reserved and no trigger. -/
inductive Trigger where
  | onChange
  | triggerLow
  | triggerHigh
deriving DecidableEq, Repr

/-- A legal command. A pin operand is any 8-bit number: it is range-checked at execution (R83). -/
inductive Instr where
  /-- BIND_I2C (41_sequencer.md R150). -/
  | bindI2c (addr7 : DeviceAddr)
  /-- BIND_SPI (41_sequencer.md R152). -/
  | bindSpi (hwa : HwAddr)
  /-- SET_PIN_MODE (42_pin_ops.md R180). -/
  | setPinMode (pin : Byte) (mode : PinMode)
  /-- DIGITAL_READ (42_pin_ops.md R181). -/
  | digitalRead (pin : Byte)
  /-- DIGITAL_WRITE (42_pin_ops.md R182). -/
  | digitalWrite (pin : Byte) (value : Bool)
  /-- READ_PORT (43_port_ops.md R201). -/
  | readPort (port : Port)
  /-- WRITE_PORT (43_port_ops.md R202). -/
  | writePort (port : Port) (byte : Byte)
  /-- READ_PORTS16 (43_port_ops.md R205). -/
  | readPorts16
  /-- WRITE_PORTS16 (43_port_ops.md R206). -/
  | writePorts16 (word : PortWord)
  /-- CONFIGURE_INTERRUPTS (44_interrupt_ops.md R220). -/
  | configureInterrupts (mir odr ah : Bool)
  /-- ENABLE_PIN_INTERRUPT (44_interrupt_ops.md R225). -/
  | enablePinInterrupt (pin : Byte) (trig : Trigger)
  /-- DISABLE_PIN_INTERRUPT (44_interrupt_ops.md R230). -/
  | disablePinInterrupt (pin : Byte)
  /-- LAST_INTERRUPT_PIN (44_interrupt_ops.md R235). -/
  | lastInterruptPin
  /-- CLEAR_INTERRUPTS (44_interrupt_ops.md R240). -/
  | clearInterrupts
  /-- CAPTURED_INTERRUPT_STATE (44_interrupt_ops.md R241). -/
  | capturedInterruptState
  /-- ENABLE_HW_ADDRESS_PINS (45_address_pins.md R250). -/
  | enableHwAddressPins
deriving DecidableEq, Repr

end Sys2Proof
end

