-- ==== Sys2Proof/WellFormed.lean ====
section
/-!
DEFINITION. Which instructions an instance has a word for. The types of Syntax.lean already exclude the reserved MODE and TRIG
values; what is left is the width of the SPI hardware address on the 8-pin variant (30_encoding.md R85, 40_decoder.md R122).
-/

namespace Sys2Proof

/-- BIND_SPI on the 8-pin variant has no word for `HWA[2] = 1` (R85, R153). -/
def hwaFits (c : Config) (hwa : HwAddr) : Bool := decide (hwa.toNat < 2 ^ c.pinCount.hwaBits)

/-- The instructions of the instance `c`. -/
def Instr.wellFormed (c : Config) : Instr → Bool
  | .bindI2c _ => true
  | .bindSpi hwa => hwaFits c hwa
  | .setPinMode _ _ => true
  | .digitalRead _ => true
  | .digitalWrite _ _ => true
  | .readPort _ => true
  | .writePort _ _ => true
  | .readPorts16 => true
  | .writePorts16 _ => true
  | .configureInterrupts _ _ _ => true
  | .enablePinInterrupt _ _ => true
  | .disablePinInterrupt _ => true
  | .lastInterruptPin => true
  | .clearInterrupts => true
  | .capturedInterruptState => true
  | .enableHwAddressPins => true

end Sys2Proof
end

