-- ==== Sys2Proof/Decode.lean ====
section
/-!
DEFINITION. The opcode map of 30_encoding.md rule R84 as a list of rows, the decoder over it, total on every 32-bit word and
rejecting by name (R85, R86), and the encoder, written from the field formats of R80 and R81.
-/

namespace Sys2Proof

/-- The rows of R84, by name. -/
inductive Opcode where
  | bindI2c | bindSpi | setPinMode | digitalRead | digitalWrite | readPort | writePort | readPorts16 | writePorts16
  | configureInterrupts | enablePinInterrupt | disablePinInterrupt | lastInterruptPin | clearInterrupts
  | capturedInterruptState | enableHwAddressPins
deriving DecidableEq, Repr

/-- A row of R84: a word `w` selects it when `w & mask = pattern` (the spec's column "match"). -/
structure OpcodeRow where
  op      : Opcode
  pattern : CommandWord
  mask    : CommandWord
deriving DecidableEq, Repr

/-- The opcode map (R84). -/
def opcodeMap : List OpcodeRow :=
  [ ⟨.bindI2c,                0x10000000, 0xFFFFFF80⟩,
    ⟨.bindSpi,                0x20000000, 0xFFFFFFF8⟩,
    ⟨.setPinMode,             0x30000000, 0xFC00FFFF⟩,
    ⟨.digitalRead,            0x40000000, 0xFF00FFFF⟩,
    ⟨.digitalWrite,           0x50000000, 0xFE00FFFF⟩,
    ⟨.readPort,               0x60000000, 0xFEFFFFFF⟩,
    ⟨.writePort,              0x70000000, 0xFEFFFF00⟩,
    ⟨.readPorts16,            0x80000000, 0xFFFFFFFF⟩ ] ++
  [ ⟨.writePorts16,           0x90000000, 0xFFFF0000⟩,
    ⟨.configureInterrupts,    0xA0000000, 0xF8FFFFFF⟩,
    ⟨.enablePinInterrupt,     0xB0000000, 0xFC00FFFF⟩,
    ⟨.disablePinInterrupt,    0xC0000000, 0xFF00FFFF⟩,
    ⟨.lastInterruptPin,       0xD0000000, 0xFFFFFFFF⟩,
    ⟨.clearInterrupts,        0xE0000000, 0xFFFFFFFF⟩,
    ⟨.capturedInterruptState, 0xE1000000, 0xFFFFFFFF⟩,
    ⟨.enableHwAddressPins,    0xF0000000, 0xFFFFFFFF⟩ ]

/-- "a word w selects the row when `(w & mask) = match`" (R84). -/
def OpcodeRow.selects (r : OpcodeRow) (w : CommandWord) : Bool := w &&& r.mask == r.pattern

/-- The row a word selects, if any (R84). -/
def selectRow (w : CommandWord) : Option OpcodeRow := opcodeMap.find? (·.selects w)

/-! Fields of a command word (R80 to R82). -/

/-- OP = `cmd[31:28]`. -/
def opField (w : CommandWord) : BitVec 4 := w.extractLsb' 28 4

/-- PIN = `cmd[23:16]`. -/
def pinField (w : CommandWord) : Byte := w.extractLsb' 16 8

/-- MODE and TRIG = `cmd[25:24]`. -/
def modeField (w : CommandWord) : BitVec 2 := w.extractLsb' 24 2

/-- BYTE = `cmd[7:0]`. -/
def byteField (w : CommandWord) : Byte := w.extractLsb' 0 8

/-- WORD = `cmd[15:0]`. -/
def wordField (w : CommandWord) : PortWord := w.extractLsb' 0 16

/-- ADDR7 = `cmd[6:0]`. -/
def addr7Field (w : CommandWord) : DeviceAddr := w.extractLsb' 0 7

/-- HWA = `cmd[2:0]`. -/
def hwaField (w : CommandWord) : HwAddr := w.extractLsb' 0 3

/-- PORT = `cmd[24]`: 0 = A, 1 = B (R82). -/
def portField (w : CommandWord) : Port := if w.getLsbD 24 then .B else .A

/-- MODE as R82 enumerates it; 3 is reserved. -/
def modeOfCode (m : BitVec 2) : Option PinMode :=
  if m = 0 then some .input else if m = 1 then some .output else if m = 2 then some .inputPullup else none

/-- TRIG as R82 enumerates it; 3 is reserved. -/
def triggerOfCode (g : BitVec 2) : Option Trigger :=
  if g = 0 then some .onChange else if g = 1 then some .triggerLow else if g = 2 then some .triggerHigh else none

/-- Why a word is illegal (R85, R86). The machine answers each with the same status, IllegalCommand. -/
inductive DecodeError where
  /-- OP = 0x0, reserved (R86). -/
  | reservedOpcode
  /-- The word matches no row: a reserved bit is set, or OP = 0xE with `cmd[27:24]` other than 0 or 1 (R86). -/
  | reservedBits
  /-- SET_PIN_MODE with MODE = 3 (R85). -/
  | reservedMode
  /-- ENABLE_PIN_INTERRUPT with TRIG = 3 (R85). -/
  | reservedTrigger
  /-- BIND_SPI with `HWA[2] = 1` on the 8-pin variant (R85, R153). -/
  | hwAddressTooWide
deriving DecidableEq, Repr

/-- The operands of a word that selected the row `op`, with the value constraints of R85. -/
def readOperands (c : Config) (op : Opcode) (w : CommandWord) : Except DecodeError Instr :=
  match op with
  | .bindI2c => .ok (.bindI2c (addr7Field w))
  | .bindSpi => if hwaFits c (hwaField w) then .ok (.bindSpi (hwaField w)) else .error .hwAddressTooWide
  | .setPinMode =>
    match modeOfCode (modeField w) with
    | some m => .ok (.setPinMode (pinField w) m)
    | none => .error .reservedMode
  | .digitalRead => .ok (.digitalRead (pinField w))
  | .digitalWrite => .ok (.digitalWrite (pinField w) (w.getLsbD 24))
  | .readPort => .ok (.readPort (portField w))
  | .writePort => .ok (.writePort (portField w) (byteField w))
  | .readPorts16 => .ok .readPorts16
  | .writePorts16 => .ok (.writePorts16 (wordField w))
  | .configureInterrupts => .ok (.configureInterrupts (w.getLsbD 26) (w.getLsbD 25) (w.getLsbD 24))
  | .enablePinInterrupt =>
    match triggerOfCode (modeField w) with
    | some t => .ok (.enablePinInterrupt (pinField w) t)
    | none => .error .reservedTrigger
  | .disablePinInterrupt => .ok (.disablePinInterrupt (pinField w))
  | .lastInterruptPin => .ok .lastInterruptPin
  | .clearInterrupts => .ok .clearInterrupts
  | .capturedInterruptState => .ok .capturedInterruptState
  | .enableHwAddressPins => .ok .enableHwAddressPins

/-- The decoder of the instance `c`: total on every word. -/
def decode (c : Config) (w : CommandWord) : Except DecodeError Instr :=
  match selectRow w with
  | some r => readOperands c r.op w
  | none => if opField w = 0 then .error .reservedOpcode else .error .reservedBits

/-! The encoder, from the formats of R81. -/

/-- A word from its four fields OP, SUB, PIN, DATA (R80). -/
def packWord (op sub : BitVec 4) (pin : Byte) (data : BitVec 16) : CommandWord := op ++ sub ++ pin ++ data

/-- MODE's code (R82). -/
def PinMode.code : PinMode → BitVec 4
  | .input => 0
  | .output => 1
  | .inputPullup => 2

/-- TRIG's code (R82). -/
def Trigger.code : Trigger → BitVec 4
  | .onChange => 0
  | .triggerLow => 1
  | .triggerHigh => 2

/-- PORT's code in SUB (R82). -/
def Port.code : Port → BitVec 4
  | .A => 0
  | .B => 1

/-- A boolean operand at bit `n` of SUB (R81). -/
def flagAt (n : Nat) (b : Bool) : BitVec 4 := if b then 1#4 <<< n else 0

/-- The word of an instruction: format B, P, Q, Z, W or F of R81. -/
def encode : Instr → CommandWord
  | .bindI2c a => packWord 0x1 0 0 (a.setWidth 16)
  | .bindSpi h => packWord 0x2 0 0 (h.setWidth 16)
  | .setPinMode p m => packWord 0x3 m.code p 0
  | .digitalRead p => packWord 0x4 0 p 0
  | .digitalWrite p v => packWord 0x5 (flagAt 0 v) p 0
  | .readPort q => packWord 0x6 q.code 0 0
  | .writePort q b => packWord 0x7 q.code 0 (b.setWidth 16)
  | .readPorts16 => packWord 0x8 0 0 0
  | .writePorts16 w => packWord 0x9 0 0 w
  | .configureInterrupts x o t => packWord 0xA (flagAt 2 x ||| flagAt 1 o ||| flagAt 0 t) 0 0
  | .enablePinInterrupt p g => packWord 0xB g.code p 0
  | .disablePinInterrupt p => packWord 0xC 0 p 0
  | .lastInterruptPin => packWord 0xD 0 0 0
  | .clearInterrupts => packWord 0xE 0 0 0
  | .capturedInterruptState => packWord 0xE 1 0 0
  | .enableHwAddressPins => packWord 0xF 0 0 0

/-! The host's numbering of a table row's bits: bit 0 is the least significant bit of the one command word. -/

/-- The command word whose low `nbits` bits are those of `w`, every bit above them 0. -/
def tableWord (nbits w : Nat) : CommandWord := BitVec.ofNat 32 (w % 2 ^ nbits)

/-- The instruction the decoder of `Config.standard` reads from that word (log 1). -/
def decodeTableWord (nbits w : Nat) : Option Instr := (decode Config.standard (tableWord nbits w)).toOption

end Sys2Proof
end

