-- ==== Sys2Proof/Machine/State.lean ====
section
/-!
DEFINITION. The PRD's state as 10_state.md gives it (R28 to R34, R40), the input signals of its interfaces (R22 to R27), the
reasons a step can stop, and reset. All of it is plain data.
-/

namespace Sys2Proof.Machine

/-- `S.bus` and `tx_bus`: 0 = I2C, 1 = SPI (R29, R95). -/
inductive Bus where
  | i2c
  | spi
deriving DecidableEq, Repr

/-- `S.phase` (R31). -/
inductive Phase where
  /-- Ready to accept a command. -/
  | idle
  /-- A transport request is presented and not yet taken. -/
  | issue
  /-- A request was issued and its completion is awaited. -/
  | wait
  /-- A response is presented and not yet delivered. -/
  | resp
deriving DecidableEq, Repr

/-- `tx_kind` (30_encoding.md R95): codes 0, 1, 2; the code 3 "is never produced" (log 11). -/
inductive TxKind where
  | begin
  | write
  | writeRead
deriving DecidableEq, Repr

/-- `rsp_status` (30_encoding.md R87, 60_exceptions.md R260): codes 0 to 5; 6 and 7 are "never produced"
(log 11). -/
inductive Status where
  | ok
  | notInitialized
  | invalidPin
  | transportError
  | alreadyBound
  | illegalCommand
deriving DecidableEq, Repr

/-- `S.req`, the current transport request (R32, R95). -/
structure Request where
  kind   : TxKind
  bus    : Bus
  dev    : DeviceAddr
  wlen   : BitVec 3
  wbytes : BitVec 32
  rcount : BitVec 2
deriving DecidableEq, Repr

/-- `S.rsp`, the response register (R33, R87). -/
structure Response where
  status : Status
  data   : BitVec 16
  found  : Bool
  xerr   : Byte
deriving DecidableEq, Repr

/-- The input signals of the combinational decoder port (R26). -/
structure DecoderInputs where
  decReg  : BitVec 4
  decPort : Port
  decRw   : Bool
  decHwf  : HwAddr
  mapPin  : Byte
deriving DecidableEq, Repr

/-- The input signals of the five interfaces at one instant: reset (R27), command port (R23), transport port (R24), response
port (R25) and decoder port (R26). -/
structure Inputs where
  rst        : Bool
  cmdValid   : Bool
  cmdWord    : CommandWord
  txReqReady : Bool
  txDone     : Bool
  txOk       : Bool
  txErr      : Byte
  txRdata    : BitVec 16
  rspReady   : Bool
  dec        : DecoderInputs
deriving DecidableEq, Repr

/-- An instant at which no input is asserted. -/
def Inputs.quiet : Inputs :=
  { rst := false, cmdValid := false, cmdWord := 0, txReqReady := false, txDone := false, txOk := false, txErr := 0,
    txRdata := 0, rspReady := false, dec := { decReg := 0, decPort := .A, decRw := false, decHwf := 0, mapPin := 0 } }

/-- An instant at which the host presents the command `w` and nothing else is asserted. -/
def Inputs.command (w : CommandWord) : Inputs := { Inputs.quiet with cmdValid := true, cmdWord := w }

/-- The state of the PRD. `cfg` is the instance's parameter set, which no step changes (R21, log 1); `inputs` is the model's
own field, the instants the outside world has still to deliver, oldest first (log 2). Every other field is the spec's. -/
structure State where
  cfg     : Config
  /-- `S.init` (R28): initialised. -/
  init    : Bool
  /-- `S.bus` (R29). -/
  bus     : Bus
  /-- `S.i2c_addr` (R29). -/
  i2cAddr : DeviceAddr
  /-- `S.hw_addr` (R29). -/
  hwAddr  : HwAddr
  /-- `S.haen_on` (R30). -/
  haenOn  : Bool
  /-- `S.phase` (R31). -/
  phase   : Phase
  /-- `S.cmd` (R31): the command being executed. -/
  cmd     : CommandWord
  /-- `S.k` (R31): the index of the current transaction. -/
  k       : BitVec 3
  /-- `S.req` (R32). -/
  req     : Request
  /-- `S.rsp` (R33). -/
  rsp     : Response
  /-- `S.rd` (R34): the read buffer. -/
  rd      : BitVec 16
  inputs  : List Inputs
deriving DecidableEq, Repr

/-- Why a step stops with a fault. The PRD itself has no fault state (60_exceptions.md R270). -/
inductive Fault where
  /-- Raised by `runProgram` (Machine/Events.lean): a successful completion is received in WAIT while `S.cmd` is no legal
  command, so no program of R142 continues. No run from reset reaches such a state (`Inv`, Safety.lean); SAFE: log 6. -/
  | noProgram
deriving DecidableEq, Repr

/-- Why a step is refused. -/
inductive Refusal where
  /-- Raised by an arm of `exec` whose instruction has no meaning in this model. No arm does. SAFE. -/
  | notModelled (mnemonic : String)
deriving DecidableEq, Repr

/-- Every state field at the reset value of R40, for the instance `c`, with no input pending. -/
def State.resetWith (c : Config) : State where
  cfg     := c
  init    := false
  bus     := .i2c
  i2cAddr := 0
  hwAddr  := 0
  haenOn  := false
  phase   := .idle
  cmd     := 0
  k       := 0
  req     := { kind := .begin, bus := .i2c, dev := 0, wlen := 0, wbytes := 0, rcount := 0 }
  rsp     := { status := .ok, data := 0, found := false, xerr := 0 }
  rd      := 0
  inputs  := []

/-- The machine right after reset (R40, R290), for the instance `Config.standard` (log 1). -/
def State.reset : State := State.resetWith Config.standard

/-- What a step answers. -/
abbrev Result := Host.Outcome State Fault Refusal

end Sys2Proof.Machine
end

