-- ==== Sys2Proof/Machine/Operands.lean ====
section
/-!
DEFINITION. The combinational decoder (40_decoder.md): logical registers, the pin mapper, the register address resolver, the
SPI opcode byte, and the wire bytes of a transport request (20_memory.md R55 to R60).
-/

namespace Sys2Proof.Machine

/-- The eleven logical registers (R111). -/
inductive LogicalReg where
  | iodir | ipol | gpinten | defval | intcon | iocon | gppu | intf | intcap | gpio | olat
deriving DecidableEq, Repr

/-- Logical register ids, "the 8-pin base addresses" (R112). -/
def LogicalReg.id : LogicalReg → BitVec 4
  | .iodir => 0x0
  | .ipol => 0x1
  | .gpinten => 0x2
  | .defval => 0x3
  | .intcon => 0x4
  | .iocon => 0x5
  | .gppu => 0x6
  | .intf => 0x7
  | .intcap => 0x8
  | .gpio => 0x9
  | .olat => 0xA

/-- A port as a bit: A = 0, B = 1 (R17). -/
def portBit : Port → BitVec 1
  | .A => 0
  | .B => 1

/-- `portOf(pin) = (pin < 8) ? A : B`, for every 8-bit pin (R113). -/
def portOf (pin : Byte) : Port := if pin.toNat < 8 then .A else .B

/-- `bitOf(pin) = pin mod 8 = pin[2:0]`, for every 8-bit pin (R114). -/
def bitOf (pin : Byte) : BitIndex := pin.extractLsb' 0 3

/-- `pinValid(pin) = (pin < PIN_COUNT)` (R115). -/
def pinValid (c : Config) (pin : Byte) : Bool := decide (pin.toNat < c.pinCount.pins)

/-- `portValid(port) = (port = A) or (PIN_COUNT = 16)` (R123). -/
def portValid (c : Config) (port : Port) : Bool := port == .A || c.pinCount == .sixteen

/-- The resolver over every 4-bit id, ids 0xB to 0xF included (R116 to R118). On the 8-pin variant the port is ignored. -/
def resolveId (c : Config) (reg : BitVec 4) (port : Port) : RegAddr :=
  match c.pinCount with
  | .sixteen => reg.setWidth 8 * 2 + (portBit port).setWidth 8
  | .eight => reg.setWidth 8

/-- `resolve(reg, port)` of a logical register (R116). -/
def resolve (c : Config) (reg : LogicalReg) (port : Port) : RegAddr := resolveId c reg.id port

/-- `PORT_WRITE_REG` as a logical register (R10, D15). -/
def portWriteReg (c : Config) : LogicalReg :=
  match c.portWriteReg with
  | .gpio => .gpio
  | .olat => .olat

/-- `spiOpcode(rw, f) = {SPI_OPCODE_HI, f, rw}`, `rw = 1` for a read (R120). -/
def spiOpcode (c : Config) (rw : Bool) (f : HwAddr) : Byte := c.spiOpcodeHi ++ f ++ BitVec.ofBool rw

/-- `hwf() = S.haen_on ? S.hw_addr : 0b000` (R15, R121). -/
def hwf (s : State) : HwAddr := if s.haenOn then s.hwAddr else 0

/-- `HAEN_BIT = 3` (R10). -/
def haenBit : Nat := 3

/-- The number of data bytes of a transaction: "n = 1 or 2" (R14, R61). -/
inductive Width where
  | one
  | two
deriving DecidableEq, Repr

/-- `n` as a number. -/
def Width.bytes : Width → Nat
  | .one => 1
  | .two => 2

/-- The data bytes of an n-byte write in wire order: byte 0 = `v[7:0]` first (R14, R60). -/
def dataBytes : Width → BitVec 16 → List Byte
  | .one, v => [v.extractLsb' 0 8]
  | .two, v => [v.extractLsb' 0 8, v.extractLsb' 8 8]

/-- `tx_wbytes`: byte i at bits `8i+7..8i`, bytes past the list 0 (R95). -/
def packBytes : List Byte → BitVec 32
  | [] => 0
  | b :: bs => b.setWidth 32 ||| (packBytes bs <<< 8)

/-- Byte `j` of `tx_rdata` if fewer than `rcount` bytes precede it; bytes at index `>= tx_rcount` are ignored (R95, R145;
log 10). -/
def readData (rcount : BitVec 2) (rdata : BitVec 16) : BitVec 16 :=
  (if 1 < rcount.toNat then rdata.extractLsb' 8 8 else 0#8) ++ (if 0 < rcount.toNat then rdata.extractLsb' 0 8 else 0#8)

/-- The bytes that address register `a`: on SPI the opcode byte first (R55 to R58). -/
def addressBytes (s : State) (rw : Bool) (f : HwAddr) (a : RegAddr) : List Byte :=
  match s.bus with
  | .i2c => [a]
  | .spi => [spiOpcode s.cfg rw f, a]

/-- `tx_dev`: the I2C device address; 0 on SPI (R95). -/
def deviceOf (s : State) : DeviceAddr :=
  match s.bus with
  | .i2c => s.i2cAddr
  | .spi => 0

/-- The request of a write of `n` bytes of `v` from address `a` with address field `f` (R55, R57). -/
def writeRequest (s : State) (f : HwAddr) (a : RegAddr) (n : Width) (v : BitVec 16) : Request :=
  let bytes := addressBytes s false f a ++ dataBytes n v
  { kind := .write, bus := s.bus, dev := deviceOf s, wlen := BitVec.ofNat 3 bytes.length, wbytes := packBytes bytes,
    rcount := 0 }

/-- The request of a read of `n` bytes from address `a` with address field `f` (R56, R58). -/
def readRequest (s : State) (f : HwAddr) (a : RegAddr) (n : Width) : Request :=
  let bytes := addressBytes s true f a
  { kind := .writeRead, bus := s.bus, dev := deviceOf s, wlen := BitVec.ofNat 3 bytes.length, wbytes := packBytes bytes,
    rcount := BitVec.ofNat 2 n.bytes }

/-- The begin request of an I2C bind (R59). -/
def beginI2c (addr7 : DeviceAddr) : Request :=
  { kind := .begin, bus := .i2c, dev := addr7, wlen := 0, wbytes := 0, rcount := 0 }

/-- The begin request of an SPI bind; the hardware address is carried in `wbytes[2:0]` although `wlen = 0` (R59; log 9). -/
def beginSpi (hwa : HwAddr) : Request :=
  { kind := .begin, bus := .spi, dev := 0, wlen := 0, wbytes := hwa.setWidth 32, rcount := 0 }

end Sys2Proof.Machine
end

