-- ==== Sys2Proof/Machine/Flags.lean ====
section
/-!
DEFINITION. The response status, "the PRD's only flag set" (10_state.md R33), and every bit computation the commands make:
setbit and lowest_set (00_scope.md R15), the three IOCON bits (44_interrupt_ops.md R220).
-/

namespace Sys2Proof.Machine

/-- `rsp_status` codes (R87, R260). -/
def Status.code : Status → BitVec 3
  | .ok => 0
  | .notInitialized => 1
  | .invalidPin => 2
  | .transportError => 3
  | .alreadyBound => 4
  | .illegalCommand => 5

/-- The response of a command that reached its end (R142). -/
def okResponse (data : BitVec 16) (found : Bool) : Response := { status := .ok, data := data, found := found, xerr := 0 }

/-- The response of a command ended by `raise` (R16): `info` goes to the transport-error field where the status is
TransportError, which is 0 otherwise (R87). -/
def errorResponse (st : Status) (info : Byte) : Response :=
  { status := st, data := 0, found := false, xerr := if st = .transportError then info else 0 }

/-- A bit as an 8-bit number. -/
def bit8 (d : Bool) : Byte := if d then 1 else 0

/-- `setbit(v, b, d) = (v & ~(1 << b)) | (d << b)` (R15). -/
def setbit (v : Byte) (b : BitIndex) (d : Bool) : Byte := (v &&& ~~~(1#8 <<< b.toNat)) ||| (bit8 d <<< b.toNat)

/-- `lowest_set(v)`: the least i with `v[i] = 1`. R15 defines it for `v != 0` only and no command uses it elsewhere; the
function answers 0 there (log 15). -/
def lowestSet (v : Byte) : Nat := ((List.range 8).find? (fun i => v.getLsbD i)).getD 0

/-- The mask of the three bits CONFIGURE_INTERRUPTS writes (R220): 0x46 with the default positions. -/
def ioconMask (c : Config) : Byte :=
  (1#8 <<< c.mirrorBit.toNat) ||| (1#8 <<< c.odrBit.toNat) ||| (1#8 <<< c.intpolBit.toNat)

/-- The IOCON byte CONFIGURE_INTERRUPTS writes back when it read `v` (R220), also where two positions are equal (log 16). -/
def ioconWith (c : Config) (v : Byte) (mir odr ah : Bool) : Byte :=
  (v &&& ~~~(ioconMask c)) ||| (bit8 mir <<< c.mirrorBit.toNat) ||| (bit8 odr <<< c.odrBit.toNat)
    ||| (bit8 ah <<< c.intpolBit.toNat)

/-- The IOCON byte ENABLE_HW_ADDRESS_PINS writes: `1 << HAEN_BIT` = 0x08 (R250, R251). -/
def haenByte : Byte := 1#8 <<< haenBit

/-- `S.rd[7:0]`, the byte of the most recent 1-byte read (R34, R160). -/
def readByte (s : State) : Byte := s.rd.extractLsb' 0 8

end Sys2Proof.Machine
end

