-- ==== Sys2Proof/Machine/Ops.lean ====
section
/-!
DEFINITION. The named operations on the state: what each event does to it (41_sequencer.md R140 to R147), the transport
primitives and the read-modify-write (00_scope.md R14, R160), `raise` and `respond` (R16), the checks at accept (R143), and how
a straight-line program runs from where `S.k` stands (R142).
-/

namespace Sys2Proof.Machine

/-! Updates of the state, one per event or effect. -/

/-- The input signals of the present instant: the oldest pending one, or nothing asserted (log 2, log 3). -/
def State.now (s : State) : Inputs := s.inputs.headD Inputs.quiet

/-- The present instant has passed. -/
def consume (s : State) : State := { s with inputs := s.inputs.tail }

/-- `S.cmd <- w; S.k <- 0; S.rd <- 0` (R141). -/
def latch (w : CommandWord) (s : State) : State := { s with cmd := w, k := 0, rd := 0 }

/-- `S.req <- r; S.phase <- ISSUE`: a primitive is reached (R142 a). -/
def present (r : Request) (s : State) : State := { s with req := r, phase := .issue }

/-- `S.rsp <- r; S.phase <- RESP`: the command ends (R142 b). -/
def endWith (r : Response) (s : State) : State := { s with rsp := r, phase := .resp }

/-- issue: the transport takes `S.req` (R144). -/
def issue (s : State) : State := { s with phase := .wait }

/-- What a successful completion does before the program continues: the read buffer, then `S.k` (R145). -/
def receive (rdata : BitVec 16) (s : State) : State :=
  { s with rd := if s.req.kind = .writeRead then readData s.req.rcount rdata else s.rd, k := s.k + 1 }

/-- deliver: the host takes `S.rsp`, which keeps its value (R147). There is no other way back: an error needs no return
(R264). -/
def deliver (s : State) : State := { s with phase := .idle }

/-- reset: every field to its reset value, from any phase (R290). The instance's parameters are no state (R21), and what the
outside world does later is not the PRD's (log 8). -/
def hardReset (s : State) : State := { State.resetWith s.cfg with inputs := s.inputs }

/-- The end of a successful bind: binding registers, `S.haen_on` and `S.init`, all together (R150 to R152). -/
def bindTo (b : Bus) (addr7 : DeviceAddr) (hwa : HwAddr) (s : State) : State :=
  { s with bus := b, i2cAddr := addr7, hwAddr := hwa, haenOn := false, init := true }

/-- `S.haen_on <- 1` (R252). -/
def setHaen (s : State) : State := { s with haenOn := true }

/-! How a command ends (R16). -/

/-- `raise <Status>(info)`: the one way a command ends with an error. It "never transfers control anywhere but to the
response" (R16, R263). -/
def raise (st : Status) (info : Byte) (s : State) : Result := .next (endWith (errorResponse st info) s)

/-- `respond(data, found)`: the command ends with status OK (R16). -/
def respond (data : BitVec 16) (found : Bool) (s : State) : Result := .next (endWith (okResponse data found) s)

/-! Transport primitives (R14): each presents one request. -/

/-- `MemRead(addr, n)`. -/
def memRead (a : RegAddr) (n : Width) (s : State) : Result := .next (present (readRequest s (hwf s) a n) s)

/-- `MemWriteAs(f, addr, n, v)`: the SPI address field forced to `f`. -/
def memWriteAs (f : HwAddr) (a : RegAddr) (n : Width) (v : BitVec 16) (s : State) : Result :=
  .next (present (writeRequest s f a n v) s)

/-- `MemWrite(addr, n, v)`. -/
def memWrite (a : RegAddr) (n : Width) (v : BitVec 16) (s : State) : Result := memWriteAs (hwf s) a n v s

/-- `Begin()` with the begin request `r` (R59, R150, R152). -/
def begin (r : Request) (s : State) : Result := .next (present r s)

/-! Programs (R142). -/

/-- A straight-line program: its primitives in order, then its end. It stands at primitive `S.k`, or past the last one at its
end (R142; log 7). -/
def runSequence (prims : List (State → Result)) (finish : State → Result) (s : State) : Result :=
  ((prims[s.k.toNat]?).getD finish) s

/-- `RMW(addr, b, d)`: read one byte, write it back with bit `b` replaced by `d` and every other bit as read; the write is
always issued (R160, R161). -/
def rmw (a : RegAddr) (b : BitIndex) (d : Bool) : List (State → Result) :=
  [ memRead a .one,
    fun s => memWrite a .one ((setbit (readByte s) b d).setWidth 16) s ]

/-! The checks at accept (R143), after the word is known to be legal. Each answers the status it fails with. -/

/-- For a bind: `S.init = 0`, else AlreadyBound. -/
def needUnbound (s : State) : Option Status := if s.init then some .alreadyBound else none

/-- For every other command: `S.init = 1`, else NotInitialized. -/
def needBound (s : State) : Option Status := if s.init then none else some .notInitialized

/-- For a command with a pin operand: `pinValid(PIN)`, else InvalidPin. -/
def needPin (pin : Byte) (s : State) : Option Status := if pinValid s.cfg pin then none else some .invalidPin

/-- For a command with a port operand: `portValid`, else InvalidPin (R200). -/
def needPort (port : Port) (s : State) : Option Status := if portValid s.cfg port then none else some .invalidPin

/-- "the first that fails gives the status" (R143, R261). -/
def firstFailure (s : State) (checks : List (State → Option Status)) : Option Status := checks.findSome? (fun c => c s)

/-- A command: its checks when it is accepted (`S.k = 0`), then its program from where it stands (R141, R142; log 7). -/
def checked (checks : List (State → Option Status)) (program : State → Result) (s : State) : Result :=
  match (if s.k = 0 then firstFailure s checks else none) with
  | some st => raise st 0 s
  | none => program s

end Sys2Proof.Machine
end

