-- ==== Sys2Proof/Machine/AddressPins.lean ====
section
/-!
DEFINITION. ENABLE_HW_ADDRESS_PINS (45_address_pins.md R250 to R254).
-/

namespace Sys2Proof.Machine

/-- The writes of R250 on SPI: addressed as hardware address 0, then on the 16-pin variant as `S.hw_addr`. -/
def haenWrites (s : State) : List (State → Result) :=
  match s.cfg.pinCount with
  | .sixteen =>
    [ memWriteAs 0 (resolve s.cfg .iocon .A) .one (haenByte.setWidth 16),
      memWriteAs s.hwAddr (resolve s.cfg .iocon .A) .one (haenByte.setWidth 16) ]
  | .eight => [ memWriteAs 0 (resolve s.cfg .iocon .A) .one (haenByte.setWidth 16) ]

/-- ENABLE_HW_ADDRESS_PINS (R250): nothing on I2C; on SPI the plain writes of 0x08, then `S.haen_on`. -/
def execEnableHwAddressPins (s : State) : Result :=
  checked [needBound]
    (fun s =>
      match s.bus with
      | .i2c => respond 0 false s
      | .spi => runSequence (haenWrites s) (fun s => respond 0 false (setHaen s)) s) s

end Sys2Proof.Machine
end

