-- ==== Sys2Proof/Machine/Binding.lean ====
section
/-!
DEFINITION. The binding commands (41_sequencer.md R150 to R155).
-/

namespace Sys2Proof.Machine

/-- BIND_I2C (R150): one begin transaction, then the binding. -/
def execBindI2c (addr7 : DeviceAddr) (s : State) : Result :=
  checked [needUnbound]
    (runSequence [begin (beginI2c addr7)] (fun s => respond 0 false (bindTo .i2c addr7 0 s))) s

/-- BIND_SPI (R152): one begin transaction, then the binding; `S.haen_on` stays 0 until ENABLE_HW_ADDRESS_PINS. -/
def execBindSpi (hwa : HwAddr) (s : State) : Result :=
  checked [needUnbound]
    (runSequence [begin (beginSpi hwa)] (fun s => respond 0 false (bindTo .spi 0 hwa s))) s

end Sys2Proof.Machine
end

