-- ==== Sys2Proof/Machine/InterruptOps.lean ====
section
/-!
DEFINITION. The interrupt-configuration commands (44_interrupt_ops.md R220 to R241).
-/

namespace Sys2Proof.Machine

/-- CONFIGURE_INTERRUPTS (R220): a three-bit read-modify-write of IOCON, addressed through port A (R53). -/
def execConfigureInterrupts (mir odr ah : Bool) (s : State) : Result :=
  checked [needBound]
    (runSequence
      [ memRead (resolve s.cfg .iocon .A) .one,
        fun s => memWrite (resolve s.cfg .iocon .A) .one ((ioconWith s.cfg (readByte s) mir odr ah).setWidth 16) s ]
      (respond 0 false)) s

/-- The read-modify-writes of ENABLE_PIN_INTERRUPT before GPINTEN (R225): INTCON, and DEFVAL unless OnChange. -/
def comparisonSetup (c : Config) (pin : Byte) : Trigger → List (State → Result)
  | .onChange => rmw (resolve c .intcon (portOf pin)) (bitOf pin) false
  | .triggerLow =>
    rmw (resolve c .intcon (portOf pin)) (bitOf pin) true ++ rmw (resolve c .defval (portOf pin)) (bitOf pin) true
  | .triggerHigh =>
    rmw (resolve c .intcon (portOf pin)) (bitOf pin) true ++ rmw (resolve c .defval (portOf pin)) (bitOf pin) false

/-- ENABLE_PIN_INTERRUPT (R225): the comparison first, GPINTEN last. -/
def execEnablePinInterrupt (pin : Byte) (trig : Trigger) (s : State) : Result :=
  checked [needBound, needPin pin]
    (runSequence (comparisonSetup s.cfg pin trig ++ rmw (resolve s.cfg .gpinten (portOf pin)) (bitOf pin) true)
      (respond 0 false)) s

/-- DISABLE_PIN_INTERRUPT (R230): "clear GPINTEN bit only". -/
def execDisablePinInterrupt (pin : Byte) (s : State) : Result :=
  checked [needBound, needPin pin]
    (runSequence (rmw (resolve s.cfg .gpinten (portOf pin)) (bitOf pin) false) (respond 0 false)) s

/-- LAST_INTERRUPT_PIN (R235): INTF A; only if it is 0, and only on the 16-pin variant, INTF B. -/
def execLastInterruptPin (s : State) : Result :=
  checked [needBound]
    (runSequence
      [ memRead (resolve s.cfg .intf .A) .one,
        fun s =>
          if readByte s ≠ 0 then respond (BitVec.ofNat 16 (lowestSet (readByte s))) true s
          else if s.cfg.pinCount = .sixteen then memRead (resolve s.cfg .intf .B) .one s
          else respond 0 false s ]
      (fun s =>
        if readByte s ≠ 0 then respond (BitVec.ofNat 16 (8 + lowestSet (readByte s))) true s
        else respond 0 false s)) s

/-- `n <- (PIN_COUNT = 16) ? 2 : 1`: the width of the INTCAP read (R240, R241). -/
def intcapWidth (c : Config) : Width :=
  match c.pinCount with
  | .sixteen => .two
  | .eight => .one

/-- CLEAR_INTERRUPTS (R240): the INTCAP read whose data are discarded. -/
def execClearInterrupts (s : State) : Result :=
  checked [needBound]
    (runSequence [memRead (resolve s.cfg .intcap .A) (intcapWidth s.cfg)] (respond 0 false)) s

/-- CAPTURED_INTERRUPT_STATE (R241): the same read, its data returned. -/
def execCapturedInterruptState (s : State) : Result :=
  checked [needBound]
    (runSequence [memRead (resolve s.cfg .intcap .A) (intcapWidth s.cfg)] (fun s => respond s.rd false s)) s

end Sys2Proof.Machine
end

