-- ==== Sys2Proof/Machine/PinOps.lean ====
section
/-!
DEFINITION. The pin commands (42_pin_ops.md R180 to R182).
-/

namespace Sys2Proof.Machine

/-- SET_PIN_MODE (R180): IODIR (1 = input), then GPPU (1 = pull-up enabled), in all three modes. -/
def execSetPinMode (pin : Byte) (mode : PinMode) (s : State) : Result :=
  checked [needBound, needPin pin]
    (runSequence
      (rmw (resolve s.cfg .iodir (portOf pin)) (bitOf pin) (mode != .output) ++
        rmw (resolve s.cfg .gppu (portOf pin)) (bitOf pin) (mode == .inputPullup))
      (respond 0 false)) s

/-- DIGITAL_READ (R181): always GPIO, whatever `PORT_WRITE_REG` is. -/
def execDigitalRead (pin : Byte) (s : State) : Result :=
  checked [needBound, needPin pin]
    (runSequence [memRead (resolve s.cfg .gpio (portOf pin)) .one]
      (fun s => respond ((bit8 ((readByte s).getLsbD (bitOf pin).toNat)).setWidth 16) false s)) s

/-- DIGITAL_WRITE (R182): a read-modify-write of the register `PORT_WRITE_REG` names. -/
def execDigitalWrite (pin : Byte) (value : Bool) (s : State) : Result :=
  checked [needBound, needPin pin]
    (runSequence (rmw (resolve s.cfg (portWriteReg s.cfg) (portOf pin)) (bitOf pin) value) (respond 0 false)) s

end Sys2Proof.Machine
end

