-- ==== Sys2Proof/Machine/PortOps.lean ====
section
/-!
DEFINITION. The port commands (43_port_ops.md R200 to R206): one transaction each.
-/

namespace Sys2Proof.Machine

/-- READ_PORT (R201). -/
def execReadPort (port : Port) (s : State) : Result :=
  checked [needBound, needPort port]
    (runSequence [memRead (resolve s.cfg .gpio port) .one] (fun s => respond ((readByte s).setWidth 16) false s)) s

/-- WRITE_PORT (R202). -/
def execWritePort (port : Port) (byte : Byte) (s : State) : Result :=
  checked [needBound, needPort port]
    (runSequence [memWrite (resolve s.cfg (portWriteReg s.cfg) port) .one (byte.setWidth 16)] (respond 0 false)) s

/-- READ_PORTS16 (R205): one 2-byte read from GPIO A; it needs port B (R200). -/
def execReadPorts16 (s : State) : Result :=
  checked [needBound, needPort .B]
    (runSequence [memRead (resolve s.cfg .gpio .A) .two] (fun s => respond s.rd false s)) s

/-- WRITE_PORTS16 (R206): one 2-byte write, low byte (port A) first; it needs port B (R200). -/
def execWritePorts16 (word : PortWord) (s : State) : Result :=
  checked [needBound, needPort .B]
    (runSequence [memWrite (resolve s.cfg (portWriteReg s.cfg) .A) .two word] (respond 0 false)) s

end Sys2Proof.Machine
end

