-- ==== Sys2Proof/Machine/Dispatch.lean ====
section
/-!
DEFINITION. One arm per command: the command's checks (R143) and its program (R142), run from where `S.k` and `S.rd` stand.
-/

namespace Sys2Proof.Machine

def exec (i : Instr) (s : State) : Host.Outcome State Fault Refusal :=
  match i with
  | .bindI2c addr7 => Sys2Proof.Machine.execBindI2c addr7 s
  | .bindSpi hwa => Sys2Proof.Machine.execBindSpi hwa s
  | .setPinMode pin mode => Sys2Proof.Machine.execSetPinMode pin mode s
  | .digitalRead pin => Sys2Proof.Machine.execDigitalRead pin s
  | .digitalWrite pin value => Sys2Proof.Machine.execDigitalWrite pin value s
  | .readPort port => Sys2Proof.Machine.execReadPort port s
  | .writePort port byte => Sys2Proof.Machine.execWritePort port byte s
  | .readPorts16 => Sys2Proof.Machine.execReadPorts16 s
  | .writePorts16 word => Sys2Proof.Machine.execWritePorts16 word s
  | .configureInterrupts mir odr ah => Sys2Proof.Machine.execConfigureInterrupts mir odr ah s
  | .enablePinInterrupt pin trig => Sys2Proof.Machine.execEnablePinInterrupt pin trig s
  | .disablePinInterrupt pin => Sys2Proof.Machine.execDisablePinInterrupt pin s
  | .lastInterruptPin => Sys2Proof.Machine.execLastInterruptPin s
  | .clearInterrupts => Sys2Proof.Machine.execClearInterrupts s
  | .capturedInterruptState => Sys2Proof.Machine.execCapturedInterruptState s
  | .enableHwAddressPins => Sys2Proof.Machine.execEnableHwAddressPins s

end Sys2Proof.Machine
end

