-- ==== Sys2Proof/Machine/Events.lean ====
section
/-!
DEFINITION. The five events of 41_sequencer.md rule R140: which one an instant's input signals enable in a phase, and what it
does.
-/

namespace Sys2Proof.Machine

/-- The events (R140). -/
inductive Event where
  | accept (w : CommandWord)
  | issue
  | complete (ok : Bool) (err : Byte) (rdata : BitVec 16)
  | deliver
  | reset
deriving DecidableEq, Repr

/-- The event an instant enables: reset wins over every other (R266); of the others at most one is enabled in any phase
(R140, R266), and a signal that belongs to another phase is ignored (R23, R24). -/
def enabledEvent (p : Phase) (i : Inputs) : Option Event :=
  if i.rst then some .reset
  else
    match p with
    | .idle => if i.cmdValid then some (.accept i.cmdWord) else none
    | .issue => if i.txReqReady then some .issue else none
    | .wait => if i.txDone then some (.complete i.txOk i.txErr i.txRdata) else none
    | .resp => if i.rspReady then some .deliver else none

/-- "the program of the command selected by `S.cmd` runs from where it stands" (R142). -/
def runProgram (s : State) : Result :=
  match decode s.cfg s.cmd with
  | .ok i => exec i s
  | .error _ => .fault .noProgram

/-- accept(w): latch, then the legality check (R143, 1), then the command's checks and its program (R141, R86; log 5). -/
def accept (w : CommandWord) (s : State) : Result :=
  match decode s.cfg w with
  | .ok i => exec i (latch w s)
  | .error _ => raise .illegalCommand 0 (latch w s)

/-- complete(ok, err, rdata): R145 if it succeeded, else the command ends at once with TransportError (R146). -/
def complete (ok : Bool) (err : Byte) (rdata : BitVec 16) (s : State) : Result :=
  if ok then runProgram (receive rdata s) else raise .transportError err s

/-- What an event does (R140). -/
def fire (e : Event) (s : State) : Result :=
  match e with
  | .accept w => accept w s
  | .issue => .next (issue s)
  | .complete ok err rdata => complete ok err rdata s
  | .deliver => .next (deliver s)
  | .reset => .next (hardReset s)

/-- One instant with input signals `i`: its event, if one is enabled. "No other event changes state" (R140; log 3). -/
def react (i : Inputs) (s : State) : Result :=
  match enabledEvent s.phase i with
  | some e => fire e s
  | none => .next s

end Sys2Proof.Machine
end

