-- ==== Sys2Proof/Machine/Step.lean ====
section
/-!
DEFINITION. One step: the present instant passes and its event, if one is enabled, happens (41_sequencer.md R140). The PRD
fetches nothing (20_memory.md R71): a command comes to it on the command port.
-/

namespace Sys2Proof.Machine

/-- One step of the machine. -/
def step (s : State) : Host.Outcome State Fault Refusal := react s.now (consume s)

/-- The host presents the command `tableWord nbits w` at the next instant, to a sequencer that is ready to accept it (R23: a
command is accepted only in IDLE). Nothing else changes; the instants already pending follow (log 4). -/
def State.withFetchWord (s : State) (nbits w : Nat) : State :=
  { s with phase := .idle, inputs := Inputs.command (tableWord nbits w) :: s.inputs }

end Sys2Proof.Machine
end

