-- ==== Sys2Proof/Machine/Assembly.lean ====
section
/-!
DEFINITION. The assembly syntax of 30_encoding.md rule R96: one line of text to one command word, or an error by name. "The
assembler never truncates." What R96 leaves open about white space is fixed in log 13.
-/

namespace Sys2Proof.Machine

/-- Why a line is no command. -/
inductive AsmError where
  /-- No mnemonic of R84. -/
  | unknownMnemonic
  /-- More or fewer operands than R96's form has. -/
  | operandCount
  /-- An operand that is neither a number nor one of the names R96 gives it. -/
  | badOperand
  /-- "An operand that does not fit its field is an assembly error" (R96). -/
  | doesNotFit
deriving DecidableEq, Repr

/-- The value of a digit in base 10 or 16. -/
def digitValue (ch : Char) : Option Nat :=
  if '0' ≤ ch ∧ ch ≤ '9' then some (ch.toNat - '0'.toNat)
  else if 'a' ≤ ch ∧ ch ≤ 'f' then some (ch.toNat - 'a'.toNat + 10)
  else if 'A' ≤ ch ∧ ch ≤ 'F' then some (ch.toNat - 'A'.toNat + 10)
  else none

/-- Digits of a base, most significant first, after the value `acc`. -/
def readDigits (base : Nat) : Nat → List Char → Option Nat
  | acc, [] => some acc
  | acc, ch :: rest =>
    match digitValue ch with
    | some v => if v < base then readDigits base (acc * base + v) rest else none
    | none => none

/-- A number "in decimal or `0x` hexadecimal" (R96). -/
def readNumber : List Char → Option Nat
  | [] => none
  | '0' :: 'x' :: ch :: rest => readDigits 16 0 (ch :: rest)
  | cs => readDigits 10 0 cs

/-- The characters without the spaces before and after them. -/
def trimSpaces (cs : List Char) : List Char :=
  ((cs.dropWhile (· == ' ')).reverse.dropWhile (· == ' ')).reverse

/-- The operands between the commas. -/
def splitOperands : List Char → List (List Char)
  | [] => [[]]
  | ch :: rest =>
    match splitOperands rest with
    | [] => [[ch]]
    | first :: more => if ch == ',' then [] :: first :: more else (ch :: first) :: more

/-- The operands of a line after its mnemonic: none, or a list separated by commas. -/
def operandsOf (cs : List Char) : List (List Char) :=
  if trimSpaces cs = [] then [] else (splitOperands cs).map trimSpaces

/-- A numeric operand of an unsigned field of `n` bits. -/
def number (n : Nat) (cs : List Char) : Except AsmError (BitVec n) :=
  match readNumber cs with
  | some v => if v < 2 ^ n then .ok (BitVec.ofNat n v) else .error .doesNotFit
  | none => .error .badOperand

/-- A one-bit operand. -/
def flag (cs : List Char) : Except AsmError Bool := (number 1 cs).map (fun b => b == 1)

/-- PORT "written `A` or `B`" (R96). -/
def portName (cs : List Char) : Except AsmError Port :=
  if cs = "A".toList then .ok .A else if cs = "B".toList then .ok .B else .error .badOperand

/-- MODE "written `INPUT`, `OUTPUT`, `INPUT_PULLUP`" (R96). -/
def modeName (cs : List Char) : Except AsmError PinMode :=
  if cs = "INPUT".toList then .ok .input
  else if cs = "OUTPUT".toList then .ok .output
  else if cs = "INPUT_PULLUP".toList then .ok .inputPullup
  else .error .badOperand

/-- TRIG "written `ON_CHANGE`, `TRIGGER_LOW`, `TRIGGER_HIGH`" (R96). -/
def triggerName (cs : List Char) : Except AsmError Trigger :=
  if cs = "ON_CHANGE".toList then .ok .onChange
  else if cs = "TRIGGER_LOW".toList then .ok .triggerLow
  else if cs = "TRIGGER_HIGH".toList then .ok .triggerHigh
  else .error .badOperand

/-- The mnemonics (R84, R96). -/
def mnemonics : List (String × Opcode) :=
  [ ("BIND_I2C", .bindI2c), ("BIND_SPI", .bindSpi), ("SET_PIN_MODE", .setPinMode), ("DIGITAL_READ", .digitalRead),
    ("DIGITAL_WRITE", .digitalWrite), ("READ_PORT", .readPort), ("WRITE_PORT", .writePort), ("READ_PORTS16", .readPorts16) ] ++
  [ ("WRITE_PORTS16", .writePorts16), ("CONFIGURE_INTERRUPTS", .configureInterrupts),
    ("ENABLE_PIN_INTERRUPT", .enablePinInterrupt), ("DISABLE_PIN_INTERRUPT", .disablePinInterrupt),
    ("LAST_INTERRUPT_PIN", .lastInterruptPin), ("CLEAR_INTERRUPTS", .clearInterrupts),
    ("CAPTURED_INTERRUPT_STATE", .capturedInterruptState), ("ENABLE_HW_ADDRESS_PINS", .enableHwAddressPins) ]

/-- The opcode a mnemonic names. -/
def opcodeOf (cs : List Char) : Option Opcode := (mnemonics.find? (fun m => m.1.toList == cs)).map (·.2)

/-- The command of an opcode and its operands, in the forms of R96. -/
def parseOperands : Opcode → List (List Char) → Except AsmError Instr
  | .bindI2c, [a] => (number 7 a).map .bindI2c
  | .bindSpi, [h] => (number 3 h).map .bindSpi
  | .setPinMode, [p, m] => do return .setPinMode (← number 8 p) (← modeName m)
  | .digitalRead, [p] => (number 8 p).map .digitalRead
  | .digitalWrite, [p, v] => do return .digitalWrite (← number 8 p) (← flag v)
  | .readPort, [q] => (portName q).map .readPort
  | .writePort, [q, b] => do return .writePort (← portName q) (← number 8 b)
  | .readPorts16, [] => .ok .readPorts16
  | .writePorts16, [w] => (number 16 w).map .writePorts16
  | .configureInterrupts, [x, o, t] => do return .configureInterrupts (← flag x) (← flag o) (← flag t)
  | .enablePinInterrupt, [p, g] => do return .enablePinInterrupt (← number 8 p) (← triggerName g)
  | .disablePinInterrupt, [p] => (number 8 p).map .disablePinInterrupt
  | .lastInterruptPin, [] => .ok .lastInterruptPin
  | .clearInterrupts, [] => .ok .clearInterrupts
  | .capturedInterruptState, [] => .ok .capturedInterruptState
  | .enableHwAddressPins, [] => .ok .enableHwAddressPins
  | _, _ => .error .operandCount

/-- The command a line of assembly stands for. -/
def parseLine (cs : List Char) : Except AsmError Instr :=
  let line := trimSpaces cs
  match opcodeOf (line.takeWhile (· != ' ')) with
  | some op => parseOperands op (operandsOf (line.dropWhile (· != ' ')))
  | none => .error .unknownMnemonic

/-- The word a line of assembly assembles to (R96, R97). -/
def assemble (line : String) : Except AsmError CommandWord := (parseLine line.toList).map encode

end Sys2Proof.Machine
end

