-- ==== Sys2Proof/Machine/Ports.lean ====
section
/-!
DEFINITION. The output signals of the five interfaces (10_state.md R22 to R26): functions of the state and, for the
combinational decoder port, of the present instant's inputs.
-/

namespace Sys2Proof.Machine

/-- The output signals of the decoder port (R26). -/
structure DecoderOutputs where
  decAddr   : RegAddr
  decOpcode : Byte
  mapPort   : BitVec 1
  mapBit    : BitIndex
  mapValid  : Bool
deriving DecidableEq, Repr

/-- The output signals of the PRD (R23 to R26, encoded as R87 and R95 say). -/
structure Outputs where
  cmdReady   : Bool
  txReqValid : Bool
  txKind     : BitVec 2
  txBus      : BitVec 1
  txDev      : DeviceAddr
  txWlen     : BitVec 3
  txWbytes   : BitVec 32
  txRcount   : BitVec 2
  rspValid   : Bool
  rspStatus  : BitVec 3
  rspData    : BitVec 16
  rspFound   : Bool
  rspXerr    : Byte
  dec        : DecoderOutputs
deriving DecidableEq, Repr

/-- `tx_kind` codes (R95). -/
def TxKind.code : TxKind → BitVec 2
  | .begin => 0
  | .write => 1
  | .writeRead => 2

/-- `tx_bus` codes (R95). -/
def Bus.code : Bus → BitVec 1
  | .i2c => 0
  | .spi => 1

/-- The decoder port: a pure function of its inputs and the instance's parameters (R26, R119). -/
def decoderPort (c : Config) (d : DecoderInputs) : DecoderOutputs :=
  { decAddr := resolveId c d.decReg d.decPort
    decOpcode := spiOpcode c d.decRw d.decHwf
    mapPort := portBit (portOf d.mapPin)
    mapBit := bitOf d.mapPin
    mapValid := pinValid c d.mapPin }

/-- `cmd_ready = (S.phase = IDLE)` (R23). -/
def cmdReady (s : State) : Bool := s.phase == .idle

/-- `tx_req_valid = (S.phase = ISSUE)` (R24). -/
def txReqValid (s : State) : Bool := s.phase == .issue

/-- `rsp_valid = (S.phase = RESP)` (R25). -/
def rspValid (s : State) : Bool := s.phase == .resp

/-- Every output signal at the present instant (R23 to R26). -/
def outputs (s : State) : Outputs :=
  { cmdReady := cmdReady s
    txReqValid := txReqValid s
    txKind := s.req.kind.code
    txBus := s.req.bus.code
    txDev := s.req.dev
    txWlen := s.req.wlen
    txWbytes := s.req.wbytes
    txRcount := s.req.rcount
    rspValid := rspValid s
    rspStatus := s.rsp.status.code
    rspData := s.rsp.data
    rspFound := s.rsp.found
    rspXerr := s.rsp.xerr
    dec := decoderPort s.cfg s.now.dec }

end Sys2Proof.Machine
end

