-- ==== Sys2Proof/Machine/Environment.lean ====
section
/-!
DEFINITION. The instants by which the host and the transport drive the PRD, and the request stream a run shows, "the only
trace" (60_exceptions.md R273). None of it is the PRD's; claims about whole commands are written with it.
-/

namespace Sys2Proof.Machine

/-- The transport takes the presented request (R144). -/
def Inputs.takeRequest : Inputs := { Inputs.quiet with txReqReady := true }

/-- The transport completes the outstanding request (R145, R146). -/
def Inputs.completion (ok : Bool) (err : Byte) (rdata : BitVec 16) : Inputs :=
  { Inputs.quiet with txDone := true, txOk := ok, txErr := err, txRdata := rdata }

/-- The host takes the presented response (R147). -/
def Inputs.takeResponse : Inputs := { Inputs.quiet with rspReady := true }

/-- An instant at which the transport takes or completes whatever is outstanding, in whatever way, and neither reset nor the
host interferes. -/
def Inputs.cooperative (i : Inputs) : Bool := !i.rst && i.txReqReady && i.txDone && !i.rspReady

/-- The instants of `n` transactions, taken at once and completed with success; transaction `j` returns the data `d j`. -/
def exchanges (d : Nat → BitVec 16) : Nat → List Inputs
  | 0 => []
  | n + 1 => exchanges d n ++ [Inputs.takeRequest, Inputs.completion true 0 (d n)]

/-- `n` steps of the machine behind the host's interface, stopping at a fault or a refusal. -/
def run (n : Nat) (s : State) : Result := Host.Core.run Sys2Proof.core n s

/-- The requests issued during the first `n` steps, in order (R140: the event issue). -/
def issuedRequests : Nat → State → List Request
  | 0, _ => []
  | n + 1, s =>
    let here := if enabledEvent s.phase s.now = some .issue then [s.req] else []
    match step s with
    | .next t => here ++ issuedRequests n t
    | .fault _ => here
    | .refused _ => here

end Sys2Proof.Machine
end

