-- ==== Sys2Proof/Machine/Script.lean ====
section
/-!
DEFINITION. Each command once more as the spec's pseudocode reads from top to bottom: the list of requests it issues when every
transaction succeeds, the response, and what it leaves in the binding (42 to 45, 41 R150, R152). It is written without `S.k`
and `S.rd`; that the machine of Step.lean, which advances by `S.k`, does the same is a claim (Obligations).
-/

namespace Sys2Proof.Machine

/-- What a command does as a whole: its requests in issue order, its response, and the fields it writes at its end. -/
structure CommandEffect where
  requests : List Request
  response : Response
  init     : Bool
  bus      : Bus
  i2cAddr  : DeviceAddr
  hwAddr   : HwAddr
  haenOn   : Bool
deriving DecidableEq, Repr

/-- A command that leaves the binding as it is. -/
def effect (s : State) (requests : List Request) (response : Response) : CommandEffect :=
  { requests := requests, response := response, init := s.init, bus := s.bus, i2cAddr := s.i2cAddr, hwAddr := s.hwAddr,
    haenOn := s.haenOn }

/-- `MemRead` and `MemWrite` as requests (R14). -/
def readOf (s : State) (a : RegAddr) (n : Width) : Request := readRequest s (hwf s) a n

/-- See `readOf`. -/
def writeOf (s : State) (a : RegAddr) (n : Width) (v : BitVec 16) : Request := writeRequest s (hwf s) a n v

/-- The two requests of `RMW(addr, b, d)` when the read returns `v` (R160). -/
def rmwRequests (s : State) (a : RegAddr) (b : BitIndex) (d : Bool) (v : BitVec 16) : List Request :=
  [readOf s a .one, writeOf s a .one ((setbit (v.extractLsb' 0 8) b d).setWidth 16)]

/-- The checks of R143 that follow the legality of the word. -/
def commandChecks : Instr → List (State → Option Status)
  | .bindI2c _ => [needUnbound]
  | .bindSpi _ => [needUnbound]
  | .setPinMode pin _ => [needBound, needPin pin]
  | .digitalRead pin => [needBound, needPin pin]
  | .digitalWrite pin _ => [needBound, needPin pin]
  | .readPort port => [needBound, needPort port]
  | .writePort port _ => [needBound, needPort port]
  | .readPorts16 => [needBound, needPort .B]
  | .writePorts16 _ => [needBound, needPort .B]
  | .configureInterrupts _ _ _ => [needBound]
  | .enablePinInterrupt pin _ => [needBound, needPin pin]
  | .disablePinInterrupt pin => [needBound, needPin pin]
  | .lastInterruptPin => [needBound]
  | .clearInterrupts => [needBound]
  | .capturedInterruptState => [needBound]
  | .enableHwAddressPins => [needBound]

/-- LAST_INTERRUPT_PIN's pseudocode (R235), `fa` and `fb` the bytes the two reads return. -/
def lastInterruptEffect (s : State) (fa fb : Byte) : CommandEffect :=
  let readA := readOf s (resolve s.cfg .intf .A) .one
  let readB := readOf s (resolve s.cfg .intf .B) .one
  if fa ≠ 0 then effect s [readA] (okResponse (BitVec.ofNat 16 (lowestSet fa)) true)
  else
    match s.cfg.pinCount with
    | .eight => effect s [readA] (okResponse 0 false)
    | .sixteen =>
      if fb ≠ 0 then effect s [readA, readB] (okResponse (BitVec.ofNat 16 (8 + lowestSet fb)) true)
      else effect s [readA, readB] (okResponse 0 false)

/-- ENABLE_HW_ADDRESS_PINS' pseudocode (R250). -/
def enableHwAddressEffect (s : State) : CommandEffect :=
  let write := fun f => writeRequest s f (resolve s.cfg .iocon .A) .one 0x08
  match s.bus, s.cfg.pinCount with
  | .i2c, _ => effect s [] (okResponse 0 false)
  | .spi, .eight => { effect s [write 0] (okResponse 0 false) with haenOn := true }
  | .spi, .sixteen => { effect s [write 0, write s.hwAddr] (okResponse 0 false) with haenOn := true }

/-- A command whose checks pass and whose transactions all succeed, transaction `j` returning the data `d j`. -/
def commandBody (i : Instr) (s : State) (d : Nat → BitVec 16) : CommandEffect :=
  let byte := fun j => (d j).extractLsb' 0 8
  let done := okResponse 0 false
  match i with
  | .bindI2c a =>
    { requests := [beginI2c a], response := done, init := true, bus := .i2c, i2cAddr := a, hwAddr := 0, haenOn := false }
  | .bindSpi h =>
    { requests := [beginSpi h], response := done, init := true, bus := .spi, i2cAddr := 0, hwAddr := h, haenOn := false }
  | .setPinMode pin mode =>
    effect s
      (rmwRequests s (resolve s.cfg .iodir (portOf pin)) (bitOf pin) (mode != .output) (d 0) ++
        rmwRequests s (resolve s.cfg .gppu (portOf pin)) (bitOf pin) (mode == .inputPullup) (d 2)) done
  | .digitalRead pin =>
    effect s [readOf s (resolve s.cfg .gpio (portOf pin)) .one]
      (okResponse (if (byte 0).getLsbD (bitOf pin).toNat then 1 else 0) false)
  | .digitalWrite pin value =>
    effect s (rmwRequests s (resolve s.cfg (portWriteReg s.cfg) (portOf pin)) (bitOf pin) value (d 0)) done
  | .readPort port =>
    effect s [readOf s (resolve s.cfg .gpio port) .one] (okResponse ((byte 0).setWidth 16) false)
  | .writePort port b =>
    effect s [writeOf s (resolve s.cfg (portWriteReg s.cfg) port) .one (b.setWidth 16)] done
  | .readPorts16 => effect s [readOf s (resolve s.cfg .gpio .A) .two] (okResponse (d 0) false)
  | .writePorts16 w => effect s [writeOf s (resolve s.cfg (portWriteReg s.cfg) .A) .two w] done
  | .configureInterrupts mir odr ah =>
    effect s
      [ readOf s (resolve s.cfg .iocon .A) .one,
        writeOf s (resolve s.cfg .iocon .A) .one ((ioconWith s.cfg (byte 0) mir odr ah).setWidth 16) ] done
  | .enablePinInterrupt pin .onChange =>
    effect s
      (rmwRequests s (resolve s.cfg .intcon (portOf pin)) (bitOf pin) false (d 0) ++
        rmwRequests s (resolve s.cfg .gpinten (portOf pin)) (bitOf pin) true (d 2)) done
  | .enablePinInterrupt pin trig =>
    effect s
      (rmwRequests s (resolve s.cfg .intcon (portOf pin)) (bitOf pin) true (d 0) ++
        rmwRequests s (resolve s.cfg .defval (portOf pin)) (bitOf pin) (trig == .triggerLow) (d 2) ++
        rmwRequests s (resolve s.cfg .gpinten (portOf pin)) (bitOf pin) true (d 4)) done
  | .disablePinInterrupt pin =>
    effect s (rmwRequests s (resolve s.cfg .gpinten (portOf pin)) (bitOf pin) false (d 0)) done
  | .lastInterruptPin => lastInterruptEffect s (byte 0) (byte 1)
  | .clearInterrupts => effect s [readOf s (resolve s.cfg .intcap .A) (intcapWidth s.cfg)] done
  | .capturedInterruptState =>
    effect s [readOf s (resolve s.cfg .intcap .A) (intcapWidth s.cfg)]
      (okResponse (match s.cfg.pinCount with | .sixteen => d 0 | .eight => (byte 0).setWidth 16) false)
  | .enableHwAddressPins => enableHwAddressEffect s

/-- A whole command: a failed check ends it with no transaction (R143), else its pseudocode. -/
def commandEffect (i : Instr) (s : State) (d : Nat → BitVec 16) : CommandEffect :=
  match firstFailure s (commandChecks i) with
  | some st => effect s [] (errorResponse st 0)
  | none => commandBody i s d

end Sys2Proof.Machine
end

