-- ==== Sys2Proof/Machine/TestDouble.lean ====
section
/-!
DEFINITION. The register-file test double RF of 95_test_vectors.md section 9.1: "a test harness, not the chip and not part of
the PRD". Its bytes are not in State. The source's round trips (42_pin_ops.md R183, 43_port_ops.md R207) are claims about the
PRD together with it.
-/

namespace Sys2Proof.Machine

/-- The bytes T of the double, as cells with strictly rising addresses and no entry 0, which is what an unlisted address reads
as ("zero unless a program's start state says otherwise"). -/
abbrev Memory := List Host.Cell

/-- One byte of T. -/
def Memory.read : Memory → Nat → Byte
  | [], _ => 0
  | (b, v) :: rest, a => if b = a then v else Memory.read rest a

/-- The cell `(a, v)` before the cells of `rest`, unless it says what an unlisted address says. -/
def Memory.cons (a : Nat) (v : Byte) (rest : Memory) : Memory := if v = 0 then rest else (a, v) :: rest

/-- One byte of T written. -/
def Memory.write : Memory → Nat → Byte → Memory
  | [], a, v => Memory.cons a v []
  | (b, x) :: rest, a, v =>
    if a < b then Memory.cons a v ((b, x) :: rest)
    else if a = b then Memory.cons a v rest
    else (b, x) :: Memory.write rest a v

/-- Every address of the list is above `lo`, rising, and no entry is 0. -/
def Memory.wfFrom : Nat → Memory → Bool
  | _, [] => true
  | lo, (b, v) :: rest => decide (lo ≤ b) && v != 0 && Memory.wfFrom (b + 1) rest

/-- The canonical form. -/
def Memory.wf (m : Memory) : Bool := Memory.wfFrom 0 m

/-- RF holds `T[0x00..0x1F]`; there is nothing to store to above it (log 14). -/
def rfStore (m : Memory) (a : Nat) (v : Byte) : Memory := if a < 0x20 then m.write a v else m

/-- Byte `j` of `tx_wbytes` (R95). -/
def wireByte (r : Request) (j : Nat) : Byte := r.wbytes.extractLsb' (8 * j) 8

/-- The number of bytes before the data: the address, on SPI after the opcode (R55 to R58). -/
def headerLength (r : Request) : Nat :=
  match r.bus with
  | .i2c => 1
  | .spi => 2

/-- The register address a read or write starts at. RF "ignores `tx_dev` and the SPI opcode byte". -/
def requestAddress (r : Request) : Nat := (wireByte r (headerLength r - 1)).toNat

/-- T after the request: a WRITE stores its data bytes, byte 0 at the address; BEGIN and WRITE_READ store nothing. -/
def rfMemory (m : Memory) (r : Request) : Memory :=
  match r.kind with
  | .write =>
    let a := requestAddress r
    let h := headerLength r
    let m1 := if h < r.wlen.toNat then rfStore m a (wireByte r h) else m
    if h + 1 < r.wlen.toNat then rfStore m1 (a + 1) (wireByte r (h + 1)) else m1
  | .begin => m
  | .writeRead => m

/-- The data RF returns: bytes `T[a]` and `T[a+1]`, byte 0 first; the PRD ignores those past `rcount`. -/
def rfData (m : Memory) (r : Request) : BitVec 16 := m.read (requestAddress r + 1) ++ m.read (requestAddress r)

/-- At most `n` transactions of the PRD with RF, until it presents its response: RF takes each request and completes it with
success. -/
def rfServe : Nat → State → Memory → Option (State × Memory)
  | 0, s, m => if s.phase = .resp then some (s, m) else none
  | n + 1, s, m =>
    if s.phase = .resp then some (s, m)
    else
      match step { s with inputs := [Inputs.takeRequest] } with
      | .next s1 =>
        match step { s1 with inputs := [Inputs.completion true 0 (rfData m s1.req)] } with
        | .next s2 => rfServe n s2 (rfMemory m s1.req)
        | .fault _ => none
        | .refused _ => none
      | .fault _ => none
      | .refused _ => none

/-- One command of a program of 95_test_vectors.md section 9, from IDLE to IDLE: the host presents the word, RF serves every
request (at most 6, R35), the host takes the response. -/
def rfCommand (w : CommandWord) (s : State) (m : Memory) : Option (State × Memory) :=
  match step { s with inputs := [Inputs.command w] } with
  | .next s1 =>
    match rfServe 6 s1 m with
    | some (s2, m2) =>
      match step { s2 with inputs := [Inputs.takeResponse] } with
      | .next s3 => some (s3, m2)
      | .fault _ => none
      | .refused _ => none
    | none => none
  | .fault _ => none
  | .refused _ => none

/-- A list of commands, each delivered before the next is accepted. -/
def rfProgram : List CommandWord → State → Memory → Option (State × Memory)
  | [], s, m => some (s, m)
  | w :: ws, s, m =>
    match rfCommand w s m with
    | some (s1, m1) => rfProgram ws s1 m1
    | none => none

end Sys2Proof.Machine
end

