-- ==== Sys2Proof/Safety.lean ====
section
/-!
DEFINITION. What a well-behaved state is, in the terms the claims use: an invariant every step keeps, the counts of
10_state.md R35, the addresses of 20_memory.md R54, and what two observers cannot tell apart (R20, R37).
-/

namespace Sys2Proof.Machine

/-- The two commands that need `S.init = 0` (R143). -/
def isBind : Instr → Bool
  | .bindI2c _ => true
  | .bindSpi _ => true
  | .setPinMode _ _ => false
  | .digitalRead _ => false
  | .digitalWrite _ _ => false
  | .readPort _ => false
  | .writePort _ _ => false
  | .readPorts16 => false
  | .writePorts16 _ => false
  | .configureInterrupts _ _ _ => false
  | .enablePinInterrupt _ _ => false
  | .disablePinInterrupt _ => false
  | .lastInterruptPin => false
  | .clearInterrupts => false
  | .capturedInterruptState => false
  | .enableHwAddressPins => false

/-- An operand that fails the third check of R143: a pin that is not valid, or a port the variant has not (R115, R123, R200). -/
def badOperand (c : Config) : Instr → Bool
  | .bindI2c _ => false
  | .bindSpi _ => false
  | .setPinMode pin _ => !pinValid c pin
  | .digitalRead pin => !pinValid c pin
  | .digitalWrite pin _ => !pinValid c pin
  | .readPort port => !portValid c port
  | .writePort port _ => !portValid c port
  | .readPorts16 => c.pinCount != .sixteen
  | .writePorts16 _ => c.pinCount != .sixteen
  | .configureInterrupts _ _ _ => false
  | .enablePinInterrupt pin _ => !pinValid c pin
  | .disablePinInterrupt pin => !pinValid c pin
  | .lastInterruptPin => false
  | .clearInterrupts => false
  | .capturedInterruptState => false
  | .enableHwAddressPins => false

/-- The most transactions a command issues (R35). -/
def maxTransactions (s : State) : Instr → Nat
  | .bindI2c _ => 1
  | .bindSpi _ => 1
  | .setPinMode _ _ => 4
  | .digitalRead _ => 1
  | .digitalWrite _ _ => 2
  | .readPort _ => 1
  | .writePort _ _ => 1
  | .readPorts16 => 1
  | .writePorts16 _ => 1
  | .configureInterrupts _ _ _ => 2
  | .enablePinInterrupt _ .onChange => 4
  | .enablePinInterrupt _ .triggerLow => 6
  | .enablePinInterrupt _ .triggerHigh => 6
  | .disablePinInterrupt _ => 2
  | .lastInterruptPin => s.cfg.pinCount.nports
  | .clearInterrupts => 1
  | .capturedInterruptState => 1
  | .enableHwAddressPins =>
    match s.bus with
    | .i2c => 0
    | .spi => s.cfg.pinCount.nports

/-- The register addresses a request touches (R50, R60): the start, and the next one for a second data byte. -/
def touched (r : Request) : List Nat :=
  match r.kind with
  | .begin => []
  | .write => (List.range (r.wlen.toNat - headerLength r)).map (requestAddress r + ·)
  | .writeRead => (List.range r.rcount.toNat).map (requestAddress r + ·)

/-- The addresses the sequencer emits (R54). -/
def emitted (c : Config) (a : Nat) : Bool :=
  match c.pinCount with
  | .sixteen =>
    decide (a = 0x00 ∨ a = 0x01 ∨ (0x04 ≤ a ∧ a ≤ 0x0A) ∨ (0x0C ≤ a ∧ a ≤ 0x13))
      || (c.portWriteReg == .olat && decide (a = 0x14 ∨ a = 0x15))
  | .eight => decide (a = 0x00 ∨ (0x02 ≤ a ∧ a ≤ 0x09)) || (c.portWriteReg == .olat && decide (a = 0x0A))

/-- `S.init`, the binding registers and `S.haen_on` agree (R28 to R30). -/
structure BindingOk (s : State) : Prop where
  /-- Before a bind every one of them has its reset value. -/
  unbound : s.init = false → s.bus = .i2c ∧ s.i2cAddr = 0 ∧ s.hwAddr = 0 ∧ s.haenOn = false
  /-- An I2C binding has no hardware address in use. -/
  onI2c : s.bus = .i2c → s.hwAddr = 0 ∧ s.haenOn = false
  /-- An SPI binding has no device address. -/
  onSpi : s.bus = .spi → s.i2cAddr = 0
  /-- "For `PIN_COUNT = 8`, `S.hw_addr[2]` is always 0" (R29). -/
  hwaWidth : hwaFits s.cfg s.hwAddr = true

/-- A request as R54, R61 and R95 allow it. -/
structure RequestOk (c : Config) (r : Request) : Prop where
  /-- `tx_wlen` is 0 to 4 and `tx_rcount` 0, 1 or 2 (R95). -/
  lengths : r.wlen.toNat ≤ 4 ∧ r.rcount.toNat ≤ 2
  /-- "bytes at index `>= tx_wlen` are 0" (R95), but for the hardware address a begin carries (R59). -/
  padding : r.kind ≠ .begin → r.wbytes >>> (8 * r.wlen.toNat) = 0
  /-- Every transaction moves 1 or 2 data bytes (R61). -/
  width : r.kind ≠ .begin → (touched r).length = 1 ∨ (touched r).length = 2
  /-- Only addresses of R54 are touched. -/
  addresses : ∀ a ∈ touched r, emitted c a = true
  /-- A 2-byte transaction occurs only on the 16-pin variant and starts at an even address, a port-A address (R61). -/
  pairs : (touched r).length = 2 → c.pinCount = .sixteen ∧ requestAddress r % 2 = 0

/-- A response as R87 allows it. -/
structure ResponseOk (r : Response) : Prop where
  /-- Data and found are 0 "for every status other than OK". -/
  failed : r.status ≠ .ok → r.data = 0 ∧ r.found = false
  /-- The error code is 0 unless the status is TransportError. -/
  xerr : r.status ≠ .transportError → r.xerr = 0
  /-- A found pin is a pin. -/
  found : r.found = true → r.data.toNat < 16

/-- While a request is outstanding, a legal command is in progress, its bind gate is as it was at acceptance, `S.k` is below
its count (R35), and `S.req` is the request its program denotes where it stands (R142). -/
def InProgress (s : State) : Prop :=
  ∃ i, decode s.cfg s.cmd = .ok i ∧ s.init = !isBind i ∧ s.k.toNat < maxTransactions s i ∧
    exec i s = .next (present s.req s)

/-- The invariant of the machine. -/
structure Inv (s : State) : Prop where
  binding  : BindingOk s
  request  : RequestOk s.cfg s.req
  response : ResponseOk s.rsp
  index    : s.k.toNat ≤ 6
  progress : s.phase = .issue ∨ s.phase = .wait → InProgress s

/-- What the outputs show of a state: the phase, the request while one is presented or outstanding, the response while one is
presented (R23 to R25, R37). -/
structure SameOutside (s t : State) : Prop where
  phase    : s.phase = t.phase
  request  : s.phase = .issue ∨ s.phase = .wait → s.req = t.req
  response : s.phase = .resp → s.rsp = t.rsp

/-- The fields that outlive a command (R20): parameters, initialisation, binding and address mode; and the same world
outside. -/
structure SameBinding (s t : State) : Prop where
  cfg     : s.cfg = t.cfg
  init    : s.init = t.init
  bus     : s.bus = t.bus
  i2cAddr : s.i2cAddr = t.i2cAddr
  hwAddr  : s.hwAddr = t.hwAddr
  haenOn  : s.haenOn = t.haenOn
  inputs  : s.inputs = t.inputs

end Sys2Proof.Machine
end

