-- ==== Sys2Proof/Certificates/Slice0/Obligations.lean ====
section
/-!
DEFINITION. The statements of this row, for the provers. "log n" is notes/assumptions/n.md. Every statement holds for every
instance: the build parameters are the field `cfg`, and no statement fixes it but by a hypothesis. The field `inputs` (the instants
the outside world has still to deliver) is the model's own, not the spec's (log 2): where a statement gives it a value, it says
only that the present instant has passed.
-/

open Sys2Proof Sys2Proof.Machine

/-! ## Reset and the five events -/

/-- 70_reset_and_hazards.md R290 with the values of 10_state.md R40 (and R27): from any phase, whatever else the instant asserts,
every state field is at its reset value after one step; a request or response that was presented is withdrawn. -/
def Obligations.ResetClearsEveryField : Prop :=
  ∀ s : State, s.now.rst = true →
    ∃ t, step s = .next t ∧
      t.init = false ∧ t.bus = .i2c ∧ t.i2cAddr = 0 ∧ t.hwAddr = 0 ∧ t.haenOn = false ∧ t.phase = .idle ∧ t.cmd = 0 ∧ t.k = 0 ∧
      t.req = { kind := .begin, bus := .i2c, dev := 0, wlen := 0, wbytes := 0, rcount := 0 } ∧
      t.rsp = { status := .ok, data := 0, found := false, xerr := 0 } ∧ t.rd = 0 ∧
      cmdReady t = true ∧ txReqValid t = false ∧ rspValid t = false

/-- A step runs the decoded command: an accepted legal word is latched (41_sequencer.md R141; log 5 for a word that then fails a
check) and its command's meaning runs on that state. The second clause is the same for a word the host places with `withFetchWord` (log 4). -/
def Obligations.StepRunsTheDecodedCommand : Prop :=
  (∀ (s : State) (i : Instr), s.now.rst = false → s.phase = .idle → s.now.cmdValid = true →
    decode s.cfg s.now.cmdWord = .ok i →
      step s = exec i { s with inputs := s.inputs.tail, cmd := s.now.cmdWord, k := 0, rd := 0 }) ∧
  (∀ (s : State) (nbits w : Nat) (i : Instr), decode s.cfg (tableWord nbits w) = .ok i →
    step (s.withFetchWord nbits w) = exec i { s with phase := .idle, cmd := tableWord nbits w, k := 0, rd := 0 })

/-- 41_sequencer.md R144: the request is taken; it stays unchanged until the completion; while it is not taken or not completed
nothing changes. -/
def Obligations.IssueKeepsTheRequest : Prop :=
  ∀ s : State, s.now.rst = false →
    (s.phase = .issue → s.now.txReqReady = true → step s = .next { s with phase := .wait, inputs := s.inputs.tail }) ∧
    (s.phase = .issue → s.now.txReqReady = false → step s = .next { s with inputs := s.inputs.tail }) ∧
    (s.phase = .wait → s.now.txDone = false → step s = .next { s with inputs := s.inputs.tail })

/-- 41_sequencer.md R145: a successful completion fills the read buffer if the request was a read (byte 0 low, byte 1 high, high
byte 0 for a 1-byte read), advances `S.k`, and the latched command's program continues. -/
def Obligations.SuccessfulCompletionContinuesTheProgram : Prop :=
  ∀ (s : State) (i : Instr), s.now.rst = false → s.phase = .wait → s.now.txDone = true → s.now.txOk = true →
    decode s.cfg s.cmd = .ok i →
      (s.req.kind ≠ .writeRead → step s = exec i { s with k := s.k + 1, inputs := s.inputs.tail }) ∧
      (s.req.kind = .writeRead → s.req.rcount = 1 →
        step s = exec i
          { s with rd := (s.now.txRdata.extractLsb' 0 8).setWidth 16, k := s.k + 1, inputs := s.inputs.tail }) ∧
      (s.req.kind = .writeRead → s.req.rcount = 2 →
        step s = exec i { s with rd := s.now.txRdata, k := s.k + 1, inputs := s.inputs.tail })

/-- 41_sequencer.md R146: a failed completion ends the command at once with TransportError and the transport's code, whatever
the command; nothing else changes, so no further request is presented. -/
def Obligations.FailedCompletionEndsTheCommand : Prop :=
  ∀ s : State, s.now.rst = false → s.phase = .wait → s.now.txDone = true → s.now.txOk = false →
    step s = .next
      { s with rsp := { status := .transportError, data := 0, found := false, xerr := s.now.txErr }, phase := .resp,
               inputs := s.inputs.tail }

/-- 41_sequencer.md R147: delivery returns to IDLE and clears nothing; the response keeps its value until the next command ends;
a command is accepted only in IDLE. -/
def Obligations.DeliveryReturnsToIdle : Prop :=
  (∀ s : State, s.now.rst = false → s.phase = .resp → s.now.rspReady = true →
    step s = .next { s with phase := .idle, inputs := s.inputs.tail }) ∧
  (∀ s t : State, s.now.rst = false → step s = .next t → t.phase ≠ .resp ∨ s.phase = .resp → t.rsp = s.rsp) ∧
  (∀ s t : State, s.now.rst = false → step s = .next t → s.phase ≠ .idle → t.cmd = s.cmd) ∧
  (∀ s : State, cmdReady s = true ↔ s.phase = .idle)

/-- 60_exceptions.md R266: in any phase only that phase's own event can happen, whatever the other signals are, and reset
together with any other event acts as reset alone. -/
def Obligations.EventsNeverCompete : Prop :=
  (∀ (s : State) (i j : Inputs) (rest : List Inputs), i.rst = false → j.rst = false →
    (s.phase = .idle → i.cmdValid = j.cmdValid ∧ i.cmdWord = j.cmdWord) →
    (s.phase = .issue → i.txReqReady = j.txReqReady) →
    (s.phase = .wait → i.txDone = j.txDone ∧ i.txOk = j.txOk ∧ i.txErr = j.txErr ∧ i.txRdata = j.txRdata) →
    (s.phase = .resp → i.rspReady = j.rspReady) →
      step { s with inputs := i :: rest } = step { s with inputs := j :: rest }) ∧
  (∀ (s : State) (i : Inputs) (rest : List Inputs), i.rst = true →
    step { s with inputs := i :: rest } = step { s with inputs := { Inputs.quiet with rst := true } :: rest })

/-- 41_sequencer.md R162 (and 60_exceptions.md R270): for however many instants the other agent does not act and no reset comes, the
PRD stays as it is; there is no timeout. -/
def Obligations.WaitingIsUnbounded : Prop :=
  ∀ (s : State) (l : List Inputs),
    (s.phase = .issue → ∀ i ∈ l, i.rst = false ∧ i.txReqReady = false) →
    (s.phase = .wait → ∀ i ∈ l, i.rst = false ∧ i.txDone = false) →
    (s.phase = .resp → ∀ i ∈ l, i.rst = false ∧ i.rspReady = false) →
    (s.phase = .idle → ∀ i ∈ l, i.rst = false ∧ i.cmdValid = false) →
      run l.length { s with inputs := l } = .next { s with inputs := [] }

/-- 41_sequencer.md R143: the checks at accept, in this order, the first that fails gives the status, and no transaction is
presented; an accepted word that passes them all is not answered with an error. That `S.cmd`, `S.k` and `S.rd` are written before a
failing check (log 5) is not said here. -/
def Obligations.ChecksAtAcceptInOrder : Prop :=
  ∀ s : State, s.now.rst = false → s.phase = .idle → s.now.cmdValid = true →
    let endsWith : Status → Prop := fun st => ∃ t, step s = .next t ∧ t.phase = .resp ∧
      t.rsp = { status := st, data := 0, found := false, xerr := 0 } ∧ t.req = s.req ∧
      t.init = s.init ∧ t.bus = s.bus ∧ t.i2cAddr = s.i2cAddr ∧ t.hwAddr = s.hwAddr ∧ t.haenOn = s.haenOn
    ((∃ e, decode s.cfg s.now.cmdWord = .error e) → endsWith .illegalCommand) ∧
    (∀ i, decode s.cfg s.now.cmdWord = .ok i →
      (isBind i = true → s.init = true → endsWith .alreadyBound) ∧
      (isBind i = false → s.init = false → endsWith .notInitialized) ∧
      (isBind i = false → s.init = true → badOperand s.cfg i = true → endsWith .invalidPin) ∧
      (isBind i = !s.init → badOperand s.cfg i = false →
        ∃ t, step s = .next t ∧ (t.phase = .issue ∨ (t.phase = .resp ∧ t.rsp.status = .ok))))

/-- The output signals of the command, transport, response and decoder ports (10_state.md R23 to R26) with the codes of
30_encoding.md R87 and R95. The resolver, the mapper and the opcode byte have statements of their own. -/
def Obligations.OutputsShowTheState : Prop :=
  ∀ s : State,
    ((outputs s).cmdReady = true ↔ s.phase = .idle) ∧ ((outputs s).txReqValid = true ↔ s.phase = .issue) ∧
    ((outputs s).rspValid = true ↔ s.phase = .resp) ∧
    (outputs s).txKind = (match s.req.kind with | .begin => 0#2 | .write => 1#2 | .writeRead => 2#2) ∧
    (outputs s).txBus = (match s.req.bus with | .i2c => 0#1 | .spi => 1#1) ∧
    (outputs s).txDev = s.req.dev ∧ (outputs s).txWlen = s.req.wlen ∧ (outputs s).txWbytes = s.req.wbytes ∧
    (outputs s).txRcount = s.req.rcount ∧
    (outputs s).rspStatus = (match s.rsp.status with
      | .ok => 0#3 | .notInitialized => 1#3 | .invalidPin => 2#3 | .transportError => 3#3 | .alreadyBound => 4#3
      | .illegalCommand => 5#3) ∧
    (outputs s).rspData = s.rsp.data ∧ (outputs s).rspFound = s.rsp.found ∧ (outputs s).rspXerr = s.rsp.xerr ∧
    (outputs s).dec.decAddr = resolveId s.cfg s.now.dec.decReg s.now.dec.decPort ∧
    (outputs s).dec.decOpcode = spiOpcode s.cfg s.now.dec.decRw s.now.dec.decHwf ∧
    (outputs s).dec.mapPort = (match portOf s.now.dec.mapPin with | .A => 0#1 | .B => 1#1) ∧
    (outputs s).dec.mapBit = bitOf s.now.dec.mapPin ∧ (outputs s).dec.mapValid = pinValid s.cfg s.now.dec.mapPin

/-! ## Encoding -/

/-- The decoder gives back every instruction the instance has a word for, with every operand at every value
(30_encoding.md R80 to R86). -/
def Obligations.DecodeInvertsEncode : Prop :=
  ∀ (c : Config) (i : Instr), i.wellFormed c = true → decode c (encode i) = .ok i

/-- Each word has one meaning: a word that decodes is the encoding of what it decodes to, and that is an instruction of the
instance. -/
def Obligations.EncodeInvertsDecode : Prop :=
  ∀ (c : Config) (w : CommandWord) (i : Instr), decode c w = .ok i → encode i = w ∧ i.wellFormed c = true

/-- "No two rows overlap" (30_encoding.md R84), said of words: at most one row selects a word. -/
def Obligations.NoWordSelectsTwoRows : Prop :=
  ∀ (w : CommandWord) (r r' : OpcodeRow), r ∈ opcodeMap → r' ∈ opcodeMap → r.selects w = true → r'.selects w = true → r = r'

/-- 30_encoding.md R85 and R86: exactly these words are illegal. OP = 0x0 is among them. -/
def Obligations.IllegalWordsAreExactlyTheReservedOnes : Prop :=
  (∀ (c : Config) (w : CommandWord),
    (∃ e, decode c w = .error e) ↔
      (∀ r ∈ opcodeMap, w &&& r.mask ≠ r.pattern) ∨
      (w &&& 0xFC00FFFF#32 = 0x30000000#32 ∧ w.extractLsb' 24 2 = 3#2) ∨
      (w &&& 0xFC00FFFF#32 = 0xB0000000#32 ∧ w.extractLsb' 24 2 = 3#2) ∨
      (w &&& 0xFFFFFFF8#32 = 0x20000000#32 ∧ w.getLsbD 2 = true ∧ c.pinCount = .eight)) ∧
  (∀ (c : Config) (w : CommandWord), w.extractLsb' 28 4 = 0#4 → decode c w = .error .reservedOpcode)

/-- 30_encoding.md R84, row by row with its match and mask written out: a word that selects a row decodes to that row's command, each
operand the bits its letter stands at, the enumerated ones as R82 lists them; the words R85 excludes and the words that match no row
do not decode. -/
def Obligations.DecodingFollowsTheOpcodeMap : Prop :=
  ∀ (c : Config) (w : CommandWord),
    let pin : Byte := w.extractLsb' 16 8
    let low : BitVec 2 := w.extractLsb' 24 2
    let port : Port := if w.getLsbD 24 then .B else .A
    let illegal : Prop := ∃ e, decode c w = .error e
    (w &&& 0xFFFFFF80#32 = 0x10000000#32 → decode c w = .ok (.bindI2c (w.extractLsb' 0 7))) ∧
    (w &&& 0xFFFFFFF8#32 = 0x20000000#32 →
      (c.pinCount = .sixteen ∨ w.getLsbD 2 = false → decode c w = .ok (.bindSpi (w.extractLsb' 0 3))) ∧
      (c.pinCount = .eight → w.getLsbD 2 = true → illegal)) ∧
    (w &&& 0xFC00FFFF#32 = 0x30000000#32 →
      (low = 0#2 → decode c w = .ok (.setPinMode pin .input)) ∧ (low = 1#2 → decode c w = .ok (.setPinMode pin .output)) ∧
      (low = 2#2 → decode c w = .ok (.setPinMode pin .inputPullup)) ∧ (low = 3#2 → illegal)) ∧
    (w &&& 0xFF00FFFF#32 = 0x40000000#32 → decode c w = .ok (.digitalRead pin)) ∧
    (w &&& 0xFE00FFFF#32 = 0x50000000#32 → decode c w = .ok (.digitalWrite pin (w.getLsbD 24))) ∧
    (w &&& 0xFEFFFFFF#32 = 0x60000000#32 → decode c w = .ok (.readPort port)) ∧
    (w &&& 0xFEFFFF00#32 = 0x70000000#32 → decode c w = .ok (.writePort port (w.extractLsb' 0 8))) ∧
    (w &&& 0xFFFFFFFF#32 = 0x80000000#32 → decode c w = .ok .readPorts16) ∧
    (w &&& 0xFFFF0000#32 = 0x90000000#32 → decode c w = .ok (.writePorts16 (w.extractLsb' 0 16))) ∧
    (w &&& 0xF8FFFFFF#32 = 0xA0000000#32 →
      decode c w = .ok (.configureInterrupts (w.getLsbD 26) (w.getLsbD 25) (w.getLsbD 24))) ∧
    (w &&& 0xFC00FFFF#32 = 0xB0000000#32 →
      (low = 0#2 → decode c w = .ok (.enablePinInterrupt pin .onChange)) ∧
      (low = 1#2 → decode c w = .ok (.enablePinInterrupt pin .triggerLow)) ∧
      (low = 2#2 → decode c w = .ok (.enablePinInterrupt pin .triggerHigh)) ∧ (low = 3#2 → illegal)) ∧
    (w &&& 0xFF00FFFF#32 = 0xC0000000#32 → decode c w = .ok (.disablePinInterrupt pin)) ∧
    (w &&& 0xFFFFFFFF#32 = 0xD0000000#32 → decode c w = .ok .lastInterruptPin) ∧
    (w &&& 0xFFFFFFFF#32 = 0xE0000000#32 → decode c w = .ok .clearInterrupts) ∧
    (w &&& 0xFFFFFFFF#32 = 0xE1000000#32 → decode c w = .ok .capturedInterruptState) ∧
    (w &&& 0xFFFFFFFF#32 = 0xF0000000#32 → decode c w = .ok .enableHwAddressPins) ∧
    (w &&& 0xFFFFFF80#32 ≠ 0x10000000#32 → w &&& 0xFFFFFFF8#32 ≠ 0x20000000#32 → w &&& 0xFC00FFFF#32 ≠ 0x30000000#32 →
      w &&& 0xFF00FFFF#32 ≠ 0x40000000#32 → w &&& 0xFE00FFFF#32 ≠ 0x50000000#32 → w &&& 0xFEFFFFFF#32 ≠ 0x60000000#32 →
      w &&& 0xFEFFFF00#32 ≠ 0x70000000#32 → w &&& 0xFFFFFFFF#32 ≠ 0x80000000#32 → w &&& 0xFFFF0000#32 ≠ 0x90000000#32 →
      w &&& 0xF8FFFFFF#32 ≠ 0xA0000000#32 → w &&& 0xFC00FFFF#32 ≠ 0xB0000000#32 → w &&& 0xFF00FFFF#32 ≠ 0xC0000000#32 →
      w &&& 0xFFFFFFFF#32 ≠ 0xD0000000#32 → w &&& 0xFFFFFFFF#32 ≠ 0xE0000000#32 → w &&& 0xFFFFFFFF#32 ≠ 0xE1000000#32 →
      w &&& 0xFFFFFFFF#32 ≠ 0xF0000000#32 → illegal)

/-- The worked encodings of 30_encoding.md R97, and one line for every other command in the forms of R96 with its word by the rows of
R84, as text, word and instruction. A sanity statement. -/
def Obligations.WorkedEncodings : Prop :=
  assemble "SET_PIN_MODE 9, OUTPUT" = .ok 0x31090000 ∧ assemble "DIGITAL_WRITE 9, 1" = .ok 0x51090000 ∧
  assemble "WRITE_PORTS16 0x1234" = .ok 0x90001234 ∧ assemble "ENABLE_PIN_INTERRUPT 3, TRIGGER_LOW" = .ok 0xB1030000 ∧
  assemble "BIND_I2C 0x20" = .ok 0x10000020 ∧ assemble "BIND_SPI 2" = .ok 0x20000002 ∧
  assemble "CONFIGURE_INTERRUPTS 1, 0, 1" = .ok 0xA5000000 ∧ assemble "CONFIGURE_INTERRUPTS 1, 0, 0" = .ok 0xA4000000 ∧
  assemble "DIGITAL_READ 13" = .ok 0x400D0000 ∧ assemble "READ_PORT B" = .ok 0x61000000 ∧
  assemble "WRITE_PORT A, 0x3C" = .ok 0x7000003C ∧ assemble "READ_PORTS16" = .ok 0x80000000 ∧
  assemble "DISABLE_PIN_INTERRUPT 11" = .ok 0xC00B0000 ∧ assemble "LAST_INTERRUPT_PIN" = .ok 0xD0000000 ∧
  assemble "CLEAR_INTERRUPTS" = .ok 0xE0000000 ∧ assemble "CAPTURED_INTERRUPT_STATE" = .ok 0xE1000000 ∧
  assemble "ENABLE_HW_ADDRESS_PINS" = .ok 0xF0000000 ∧
  (∀ c : Config,
    decode c 0x31090000 = .ok (.setPinMode 9 .output) ∧ decode c 0x51090000 = .ok (.digitalWrite 9 true) ∧
    decode c 0x90001234 = .ok (.writePorts16 0x1234) ∧ decode c 0xB1030000 = .ok (.enablePinInterrupt 3 .triggerLow) ∧
    decode c 0x10000020 = .ok (.bindI2c 0x20) ∧ decode c 0x20000002 = .ok (.bindSpi 2) ∧
    decode c 0xA5000000 = .ok (.configureInterrupts true false true) ∧
    decode c 0xA4000000 = .ok (.configureInterrupts true false false) ∧ decode c 0x400D0000 = .ok (.digitalRead 13) ∧
    decode c 0x61000000 = .ok (.readPort .B) ∧ decode c 0x7000003C = .ok (.writePort .A 0x3C) ∧
    decode c 0x80000000 = .ok .readPorts16 ∧ decode c 0xC00B0000 = .ok (.disablePinInterrupt 11) ∧
    decode c 0xD0000000 = .ok .lastInterruptPin ∧ decode c 0xE0000000 = .ok .clearInterrupts ∧
    decode c 0xE1000000 = .ok .capturedInterruptState ∧ decode c 0xF0000000 = .ok .enableHwAddressPins)

/-- 30_encoding.md R96: "the assembler never truncates". The operands of a mnemonic are accepted exactly when they spell an
instruction in the form R96 gives it, every number having the value of its field and every name being the operand's; a number that does
not fit is reported as such, and decimal and `0x` hexadecimal digits of any length have their value (either letter case: log 13). A
line is its mnemonic and its operands (white space: log 13); what it assembles to is its instruction's
encoding and legal on the 16-pin variant. -/
def Obligations.AssemblerNeverTruncates : Prop :=
  (∀ (op : Opcode) (operands : List (List Char)) (i : Instr), parseOperands op operands = .ok i ↔
    match i with
    | .bindI2c x => op = .bindI2c ∧ ∃ a, operands = [a] ∧ readNumber a = some x.toNat
    | .bindSpi x => op = .bindSpi ∧ ∃ a, operands = [a] ∧ readNumber a = some x.toNat
    | .setPinMode x m => op = .setPinMode ∧ ∃ a, readNumber a = some x.toNat ∧
        operands = [a, match m with
          | .input => "INPUT".toList | .output => "OUTPUT".toList | .inputPullup => "INPUT_PULLUP".toList]
    | .digitalRead x => op = .digitalRead ∧ ∃ a, operands = [a] ∧ readNumber a = some x.toNat
    | .digitalWrite x v => op = .digitalWrite ∧ ∃ a b, operands = [a, b] ∧ readNumber a = some x.toNat ∧
        readNumber b = some v.toNat
    | .readPort q => op = .readPort ∧ operands = [match q with | .A => "A".toList | .B => "B".toList]
    | .writePort q x => op = .writePort ∧ ∃ a, readNumber a = some x.toNat ∧
        operands = [match q with | .A => "A".toList | .B => "B".toList, a]
    | .readPorts16 => op = .readPorts16 ∧ operands = []
    | .writePorts16 x => op = .writePorts16 ∧ ∃ a, operands = [a] ∧ readNumber a = some x.toNat
    | .configureInterrupts mir odr ah => op = .configureInterrupts ∧ ∃ a b d, operands = [a, b, d] ∧
        readNumber a = some mir.toNat ∧ readNumber b = some odr.toNat ∧ readNumber d = some ah.toNat
    | .enablePinInterrupt x g => op = .enablePinInterrupt ∧ ∃ a, readNumber a = some x.toNat ∧
        operands = [a, match g with
          | .onChange => "ON_CHANGE".toList | .triggerLow => "TRIGGER_LOW".toList | .triggerHigh => "TRIGGER_HIGH".toList]
    | .disablePinInterrupt x => op = .disablePinInterrupt ∧ ∃ a, operands = [a] ∧ readNumber a = some x.toNat
    | .lastInterruptPin => op = .lastInterruptPin ∧ operands = []
    | .clearInterrupts => op = .clearInterrupts ∧ operands = []
    | .capturedInterruptState => op = .capturedInterruptState ∧ operands = []
    | .enableHwAddressPins => op = .enableHwAddressPins ∧ operands = []) ∧
  (∀ (n : Nat) (cs : List Char) (m : Nat), readNumber cs = some m → 2 ^ n ≤ m → number n cs = .error .doesNotFit) ∧
  (∀ ds : List (Fin 10), ds ≠ [] →
    readNumber (ds.map fun d => "0123456789".toList.getD d.val ' ') = some (ds.foldl (fun v d => v * 10 + d.val) 0)) ∧
  (∀ ds : List (Fin 16), ds ≠ [] → ∀ digits ∈ ["0123456789abcdef".toList, "0123456789ABCDEF".toList],
    readNumber ('0' :: 'x' :: ds.map fun d => digits.getD d.val ' ') = some (ds.foldl (fun v d => v * 16 + d.val) 0)) ∧
  (∀ (line : String) (w : CommandWord), assemble line = .ok w ↔
    ∃ op i, opcodeOf ((trimSpaces line.toList).takeWhile (· != ' ')) = some op ∧
      parseOperands op (operandsOf ((trimSpaces line.toList).dropWhile (· != ' '))) = .ok i ∧ encode i = w) ∧
  (∀ (line : String) (w : CommandWord), assemble line = .ok w → ∀ c : Config, c.pinCount = .sixteen →
    ∃ i, decode c w = .ok i ∧ encode i = w)

/-! ## The combinational decoder -/

/-- 40_decoder.md R114 (and R113, R115, R123): the pin mapper, on every 8-bit pin; for a valid pin `p = 8 * portOf(p) + bitOf(p)`; port
A is valid on both variants and port B on the 16-pin variant only. -/
def Obligations.PinMapperLaws : Prop :=
  ∀ (c : Config) (pin : Byte),
    (portOf pin = if pin.toNat < 8 then Port.A else Port.B) ∧
    (bitOf pin).toNat = pin.toNat % 8 ∧
    (c.pinCount = .sixteen → (pinValid c pin = true ↔ pin.toNat ≤ 15)) ∧
    (c.pinCount = .eight → (pinValid c pin = true ↔ pin.toNat ≤ 7)) ∧
    (pinValid c pin = true → pin.toNat = 8 * (portBit (portOf pin)).toNat + (bitOf pin).toNat) ∧
    portValid c .A = true ∧ (portValid c .B = true ↔ c.pinCount = .sixteen)

/-- 40_decoder.md R116: the resolver, over all sixteen ids (R118) and both ports; the arithmetic never wraps. -/
def Obligations.ResolverFormula : Prop :=
  ∀ (c : Config) (reg : BitVec 4) (port : Port),
    (c.pinCount = .sixteen →
      (resolveId c reg port).toNat = reg.toNat * 2 + (portBit port).toNat ∧ (resolveId c reg port).toNat ≤ 0x1F) ∧
    (c.pinCount = .eight → (resolveId c reg port).toNat = reg.toNat ∧ (resolveId c reg port).toNat ≤ 0x0F)

/-- The register maps of 20_memory.md R51 and R52, row by row. -/
def Obligations.RegisterMaps : Prop :=
  ∀ c : Config,
    (c.pinCount = .sixteen →
      resolve c .iodir .A = 0x00 ∧ resolve c .iodir .B = 0x01 ∧ resolve c .ipol .A = 0x02 ∧ resolve c .ipol .B = 0x03 ∧
      resolve c .gpinten .A = 0x04 ∧ resolve c .gpinten .B = 0x05 ∧ resolve c .defval .A = 0x06 ∧
      resolve c .defval .B = 0x07 ∧ resolve c .intcon .A = 0x08 ∧ resolve c .intcon .B = 0x09 ∧
      resolve c .iocon .A = 0x0A ∧ resolve c .iocon .B = 0x0B ∧ resolve c .gppu .A = 0x0C ∧ resolve c .gppu .B = 0x0D ∧
      resolve c .intf .A = 0x0E ∧ resolve c .intf .B = 0x0F ∧ resolve c .intcap .A = 0x10 ∧ resolve c .intcap .B = 0x11 ∧
      resolve c .gpio .A = 0x12 ∧ resolve c .gpio .B = 0x13 ∧ resolve c .olat .A = 0x14 ∧ resolve c .olat .B = 0x15) ∧
    (c.pinCount = .eight → ∀ port,
      resolve c .iodir port = 0x00 ∧ resolve c .ipol port = 0x01 ∧ resolve c .gpinten port = 0x02 ∧
      resolve c .defval port = 0x03 ∧ resolve c .intcon port = 0x04 ∧ resolve c .iocon port = 0x05 ∧
      resolve c .gppu port = 0x06 ∧ resolve c .intf port = 0x07 ∧ resolve c .intcap port = 0x08 ∧
      resolve c .gpio port = 0x09 ∧ resolve c .olat port = 0x0A)

/-- 40_decoder.md R120: the SPI opcode byte, with the rule's examples for `SPI_OPCODE_HI = 0x4`, the default; read and write of the
same register differ in bit 0 and nowhere else. -/
def Obligations.SpiOpcodeLayout : Prop :=
  ∀ (c : Config) (f : HwAddr),
    (∀ rw : Bool, (spiOpcode c rw f).toNat = c.spiOpcodeHi.toNat * 16 + f.toNat * 2 + rw.toNat) ∧
    spiOpcode c true f ^^^ spiOpcode c false f = 1 ∧
    (c.spiOpcodeHi = 0x4 → spiOpcode c false 2 = 0x44 ∧ spiOpcode c true 2 = 0x45 ∧ spiOpcode c false 0 = 0x40 ∧
      spiOpcode c true 7 = 0x4F) ∧
    Config.standard.spiOpcodeHi = 0x4

/-- 40_decoder.md R119 and 10_state.md R26: the decoder port's outputs depend on its inputs and the parameters only, and its
inputs do not disturb the sequencer. -/
def Obligations.DecoderPortIsIndependent : Prop :=
  (∀ s t : State, s.cfg = t.cfg → s.now.dec = t.now.dec → (outputs s).dec = (outputs t).dec) ∧
  (∀ (s : State) (i : Inputs) (d : DecoderInputs) (rest : List Inputs),
    step { s with inputs := { i with dec := d } :: rest } = step { s with inputs := i :: rest })

/-! ## Transport requests -/

/-- 20_memory.md R55 and R56: the requests of an I2C binding. -/
def Obligations.I2cRequests : Prop :=
  ∀ (s : State) (f : HwAddr) (a : RegAddr) (v : BitVec 16), s.bus = .i2c →
    writeRequest s f a .one v =
      { kind := .write, bus := .i2c, dev := s.i2cAddr, wlen := 2, wbytes := 0#16 ++ v.extractLsb' 0 8 ++ a, rcount := 0 } ∧
    writeRequest s f a .two v =
      { kind := .write, bus := .i2c, dev := s.i2cAddr, wlen := 3,
        wbytes := 0#8 ++ v.extractLsb' 8 8 ++ v.extractLsb' 0 8 ++ a, rcount := 0 } ∧
    readRequest s f a .one =
      { kind := .writeRead, bus := .i2c, dev := s.i2cAddr, wlen := 1, wbytes := 0#24 ++ a, rcount := 1 } ∧
    readRequest s f a .two =
      { kind := .writeRead, bus := .i2c, dev := s.i2cAddr, wlen := 1, wbytes := 0#24 ++ a, rcount := 2 }

/-- 20_memory.md R57 and R58: the requests of an SPI binding, the opcode byte first; the opcodes of a read and a write differ in
bit 0. -/
def Obligations.SpiRequests : Prop :=
  ∀ (s : State) (f : HwAddr) (a : RegAddr) (v : BitVec 16), s.bus = .spi →
    writeRequest s f a .one v =
      { kind := .write, bus := .spi, dev := 0, wlen := 3,
        wbytes := 0#8 ++ v.extractLsb' 0 8 ++ a ++ spiOpcode s.cfg false f, rcount := 0 } ∧
    writeRequest s f a .two v =
      { kind := .write, bus := .spi, dev := 0, wlen := 4,
        wbytes := v.extractLsb' 8 8 ++ v.extractLsb' 0 8 ++ a ++ spiOpcode s.cfg false f, rcount := 0 } ∧
    readRequest s f a .one =
      { kind := .writeRead, bus := .spi, dev := 0, wlen := 2, wbytes := 0#16 ++ a ++ spiOpcode s.cfg true f, rcount := 1 } ∧
    readRequest s f a .two =
      { kind := .writeRead, bus := .spi, dev := 0, wlen := 2, wbytes := 0#16 ++ a ++ spiOpcode s.cfg true f, rcount := 2 } ∧
    spiOpcode s.cfg true f ^^^ spiOpcode s.cfg false f = 1

/-- 40_decoder.md R121 and 45_address_pins.md R252 (00_scope.md R15): the address field of an ordinary transaction is 0 while
`S.haen_on` is 0 and `S.hw_addr` while it is 1. Every request other than a begin that a command other than ENABLE_HW_ADDRESS_PINS
presents on an SPI binding carries that field in bits 3:1 of its first byte, the opcode; bit 0 is 1 for a read. -/
def Obligations.OrdinaryAddressField : Prop :=
  ∀ s : State,
    (s.haenOn = false → hwf s = 0) ∧ (s.haenOn = true → hwf s = s.hwAddr) ∧
    (∀ (i : Instr) (t : State), exec i s = .next t → t.phase = .issue → t.req.kind ≠ .begin → i ≠ .enableHwAddressPins →
      s.bus = .spi →
        t.req.wbytes.extractLsb' 4 4 = s.cfg.spiOpcodeHi ∧
        (s.haenOn = false → t.req.wbytes.extractLsb' 1 3 = 0#3) ∧
        (s.haenOn = true → t.req.wbytes.extractLsb' 1 3 = s.hwAddr) ∧
        (t.req.wbytes.getLsbD 0 = true ↔ t.req.kind = .writeRead))

/-- 41_sequencer.md R161 (and R160): wherever it stands in a program, a read-modify-write is a read of one byte and then, always,
a write of the same address that carries the read byte with bit `b` replaced and every other bit as read, even if that is the byte
read; then what follows it runs. -/
def Obligations.ReadModifyWriteAlwaysWrites : Prop :=
  ∀ (s : State) (a : RegAddr) (b : BitIndex) (d : Bool) (before after : List (State → Result)) (finish : State → Result),
    (s.k.toNat = before.length →
      runSequence (before ++ rmw a b d ++ after) finish s =
        .next { s with req := readRequest s (hwf s) a .one, phase := .issue }) ∧
    (s.k.toNat = before.length + 1 →
      ∃ v : Byte, (∀ j, j < 8 → v.getLsbD j = if j = b.toNat then d else s.rd.getLsbD j) ∧
        runSequence (before ++ rmw a b d ++ after) finish s =
          .next { s with req := writeRequest s (hwf s) a .one (v.setWidth 16), phase := .issue }) ∧
    (s.k.toNat = before.length + 2 →
      runSequence (before ++ rmw a b d ++ after) finish s = (after.head?.getD finish) s)

/-! ## The commands: what each does at every point of its program -/

/-- 41_sequencer.md R150 (and R151, R59): BIND_I2C. -/
def Obligations.BindI2cProgram : Prop :=
  ∀ (s : State) (addr7 : DeviceAddr),
    (s.init = false → s.k = 0 →
      exec (.bindI2c addr7) s = .next
        { s with req := { kind := .begin, bus := .i2c, dev := addr7, wlen := 0, wbytes := 0, rcount := 0 },
                 phase := .issue }) ∧
    (s.k = 1 →
      exec (.bindI2c addr7) s = .next
        { s with bus := .i2c, i2cAddr := addr7, hwAddr := 0, haenOn := false, init := true,
                 rsp := { status := .ok, data := 0, found := false, xerr := 0 }, phase := .resp })

/-- 41_sequencer.md R152 (and R151, R59): BIND_SPI. That the begin carries the address although `wlen = 0` is log 9. -/
def Obligations.BindSpiProgram : Prop :=
  ∀ (s : State) (hwa : HwAddr),
    (s.init = false → s.k = 0 →
      exec (.bindSpi hwa) s = .next
        { s with req := { kind := .begin, bus := .spi, dev := 0, wlen := 0, wbytes := 0#29 ++ hwa, rcount := 0 },
                 phase := .issue }) ∧
    (s.k = 1 →
      exec (.bindSpi hwa) s = .next
        { s with bus := .spi, i2cAddr := 0, hwAddr := hwa, haenOn := false, init := true,
                 rsp := { status := .ok, data := 0, found := false, xerr := 0 }, phase := .resp })

/-- 42_pin_ops.md R180: SET_PIN_MODE, IODIR then GPPU, in all three modes. -/
def Obligations.SetPinModeProgram : Prop :=
  ∀ (s : State) (pin : Byte) (mode : PinMode), s.init = true → pinValid s.cfg pin = true →
    let iodir := resolve s.cfg .iodir (portOf pin)
    let gppu := resolve s.cfg .gppu (portOf pin)
    let read : Byte := s.rd.extractLsb' 0 8
    let asks : Request → Result := fun r => .next { s with req := r, phase := .issue }
    (s.k = 0 → exec (.setPinMode pin mode) s = asks (readRequest s (hwf s) iodir .one)) ∧
    (s.k = 1 → exec (.setPinMode pin mode) s = asks
      (writeRequest s (hwf s) iodir .one ((setbit read (bitOf pin) (decide (mode ≠ .output))).setWidth 16))) ∧
    (s.k = 2 → exec (.setPinMode pin mode) s = asks (readRequest s (hwf s) gppu .one)) ∧
    (s.k = 3 → exec (.setPinMode pin mode) s = asks
      (writeRequest s (hwf s) gppu .one ((setbit read (bitOf pin) (decide (mode = .inputPullup))).setWidth 16))) ∧
    (s.k = 4 → exec (.setPinMode pin mode) s = .next
      { s with rsp := { status := .ok, data := 0, found := false, xerr := 0 }, phase := .resp })

/-- 42_pin_ops.md R181: DIGITAL_READ, always GPIO, whatever `PORT_WRITE_REG` is. -/
def Obligations.DigitalReadProgram : Prop :=
  ∀ (s : State) (pin : Byte), s.init = true → pinValid s.cfg pin = true →
    (s.k = 0 → exec (.digitalRead pin) s = .next
      { s with req := readRequest s (hwf s) (resolve s.cfg .gpio (portOf pin)) .one, phase := .issue }) ∧
    (s.k = 1 → exec (.digitalRead pin) s = .next
      { s with rsp := { status := .ok, data := if s.rd.getLsbD (pin.toNat % 8) then 1 else 0, found := false, xerr := 0 },
               phase := .resp })

/-- 42_pin_ops.md R182: DIGITAL_WRITE, a read-modify-write of GPIO or, with `PORT_WRITE_REG = OLAT`, of OLAT. -/
def Obligations.DigitalWriteProgram : Prop :=
  ∀ (s : State) (pin : Byte) (value : Bool) (reg : LogicalReg), s.init = true → pinValid s.cfg pin = true →
    (s.cfg.portWriteReg = .gpio → reg = .gpio) → (s.cfg.portWriteReg = .olat → reg = .olat) →
    let a := resolve s.cfg reg (portOf pin)
    (s.k = 0 → exec (.digitalWrite pin value) s = .next { s with req := readRequest s (hwf s) a .one, phase := .issue }) ∧
    (s.k = 1 → exec (.digitalWrite pin value) s = .next
      { s with req := writeRequest s (hwf s) a .one ((setbit (s.rd.extractLsb' 0 8) (bitOf pin) value).setWidth 16),
               phase := .issue }) ∧
    (s.k = 2 → exec (.digitalWrite pin value) s = .next
      { s with rsp := { status := .ok, data := 0, found := false, xerr := 0 }, phase := .resp })

/-- 43_port_ops.md R201 and R205: READ_PORT and READ_PORTS16, one read of GPIO each. -/
def Obligations.PortReadPrograms : Prop :=
  ∀ s : State, s.init = true →
    (∀ port, portValid s.cfg port = true →
      (s.k = 0 → exec (.readPort port) s = .next
        { s with req := readRequest s (hwf s) (resolve s.cfg .gpio port) .one, phase := .issue }) ∧
      (s.k = 1 → exec (.readPort port) s = .next
        { s with rsp := { status := .ok, data := 0#8 ++ s.rd.extractLsb' 0 8, found := false, xerr := 0 },
                 phase := .resp })) ∧
    (s.cfg.pinCount = .sixteen →
      (s.k = 0 → exec .readPorts16 s = .next { s with req := readRequest s (hwf s) 0x12 .two, phase := .issue }) ∧
      (s.k = 1 → exec .readPorts16 s = .next
        { s with rsp := { status := .ok, data := s.rd, found := false, xerr := 0 }, phase := .resp }))

/-- 43_port_ops.md R202 and R206: WRITE_PORT and WRITE_PORTS16, one write each, to GPIO or, with `PORT_WRITE_REG = OLAT`, to
OLAT. -/
def Obligations.PortWritePrograms : Prop :=
  ∀ (s : State) (reg : LogicalReg), s.init = true →
    (s.cfg.portWriteReg = .gpio → reg = .gpio) → (s.cfg.portWriteReg = .olat → reg = .olat) →
    let done : Result := .next { s with rsp := { status := .ok, data := 0, found := false, xerr := 0 }, phase := .resp }
    (∀ port byte, portValid s.cfg port = true →
      (s.k = 0 → exec (.writePort port byte) s = .next
        { s with req := writeRequest s (hwf s) (resolve s.cfg reg port) .one (byte.setWidth 16), phase := .issue }) ∧
      (s.k = 1 → exec (.writePort port byte) s = done)) ∧
    (∀ word, s.cfg.pinCount = .sixteen →
      (s.k = 0 → exec (.writePorts16 word) s = .next
        { s with req := writeRequest s (hwf s) (resolve s.cfg reg .A) .two word, phase := .issue }) ∧
      (s.k = 1 → exec (.writePorts16 word) s = done))

/-- 44_interrupt_ops.md R220: CONFIGURE_INTERRUPTS reads IOCON and writes it back with every bit but the three parameters'
positions as read; where the positions differ from one another each takes its operand. -/
def Obligations.ConfigureInterruptsProgram : Prop :=
  ∀ (s : State) (mir odr ah : Bool), s.init = true →
    let a := resolve s.cfg .iocon .A
    let m := s.cfg.mirrorBit
    let o := s.cfg.odrBit
    let p := s.cfg.intpolBit
    (s.k = 0 → exec (.configureInterrupts mir odr ah) s = .next
      { s with req := readRequest s (hwf s) a .one, phase := .issue }) ∧
    (s.k = 1 → ∃ v : Byte,
      (∀ j, j < 8 → j ≠ m.toNat → j ≠ o.toNat → j ≠ p.toNat → v.getLsbD j = s.rd.getLsbD j) ∧
      (m ≠ o → m ≠ p → o ≠ p → v.getLsbD m.toNat = mir ∧ v.getLsbD o.toNat = odr ∧ v.getLsbD p.toNat = ah) ∧
      exec (.configureInterrupts mir odr ah) s = .next
        { s with req := writeRequest s (hwf s) a .one (v.setWidth 16), phase := .issue }) ∧
    (s.k = 2 → exec (.configureInterrupts mir odr ah) s = .next
      { s with rsp := { status := .ok, data := 0, found := false, xerr := 0 }, phase := .resp })

/-- 44_interrupt_ops.md R225 and R230: ENABLE_PIN_INTERRUPT, the comparison first and GPINTEN last, DEFVAL untouched for
OnChange; DISABLE_PIN_INTERRUPT, GPINTEN only. -/
def Obligations.PinInterruptPrograms : Prop :=
  ∀ (s : State) (pin : Byte) (trig : Trigger), s.init = true → pinValid s.cfg pin = true →
    let reads : LogicalReg → Result := fun r => .next
      { s with req := readRequest s (hwf s) (resolve s.cfg r (portOf pin)) .one, phase := .issue }
    let writes : LogicalReg → Bool → Result := fun r d => .next
      { s with req := writeRequest s (hwf s) (resolve s.cfg r (portOf pin)) .one
                        ((setbit (s.rd.extractLsb' 0 8) (bitOf pin) d).setWidth 16), phase := .issue }
    let done : Result := .next { s with rsp := { status := .ok, data := 0, found := false, xerr := 0 }, phase := .resp }
    (s.k = 0 → exec (.enablePinInterrupt pin trig) s = reads .intcon) ∧
    (s.k = 1 → exec (.enablePinInterrupt pin trig) s = writes .intcon (decide (trig ≠ .onChange))) ∧
    (trig = .onChange →
      (s.k = 2 → exec (.enablePinInterrupt pin trig) s = reads .gpinten) ∧
      (s.k = 3 → exec (.enablePinInterrupt pin trig) s = writes .gpinten true) ∧
      (s.k = 4 → exec (.enablePinInterrupt pin trig) s = done)) ∧
    (trig ≠ .onChange →
      (s.k = 2 → exec (.enablePinInterrupt pin trig) s = reads .defval) ∧
      (s.k = 3 → exec (.enablePinInterrupt pin trig) s = writes .defval (decide (trig = .triggerLow))) ∧
      (s.k = 4 → exec (.enablePinInterrupt pin trig) s = reads .gpinten) ∧
      (s.k = 5 → exec (.enablePinInterrupt pin trig) s = writes .gpinten true) ∧
      (s.k = 6 → exec (.enablePinInterrupt pin trig) s = done)) ∧
    (s.k = 0 → exec (.disablePinInterrupt pin) s = reads .gpinten) ∧
    (s.k = 1 → exec (.disablePinInterrupt pin) s = writes .gpinten false) ∧
    (s.k = 2 → exec (.disablePinInterrupt pin) s = done)

/-- 44_interrupt_ops.md R235: LAST_INTERRUPT_PIN reports the least flagged pin, port A first; INTF B is read only on the 16-pin
variant and only if INTF A has no flag; None is `found = 0`, `data = 0`. -/
def Obligations.LastInterruptPinProgram : Prop :=
  ∀ s : State, s.init = true →
    let none : Result := .next { s with rsp := { status := .ok, data := 0, found := false, xerr := 0 }, phase := .resp }
    let flagged : Byte := s.rd.extractLsb' 0 8
    (s.k = 0 → exec .lastInterruptPin s = .next
      { s with req := readRequest s (hwf s) (resolve s.cfg .intf .A) .one, phase := .issue }) ∧
    (s.k = 1 → flagged = 0 → s.cfg.pinCount = .eight → exec .lastInterruptPin s = none) ∧
    (s.k = 1 → flagged = 0 → s.cfg.pinCount = .sixteen → exec .lastInterruptPin s = .next
      { s with req := readRequest s (hwf s) (resolve s.cfg .intf .B) .one, phase := .issue }) ∧
    (s.k = 2 → flagged = 0 → exec .lastInterruptPin s = none) ∧
    (flagged ≠ 0 → ∃ j, j < 8 ∧ s.rd.getLsbD j = true ∧ (∀ i, i < j → s.rd.getLsbD i = false) ∧
      (s.k = 1 → exec .lastInterruptPin s = .next
        { s with rsp := { status := .ok, data := BitVec.ofNat 16 j, found := true, xerr := 0 }, phase := .resp }) ∧
      (s.k = 2 → exec .lastInterruptPin s = .next
        { s with rsp := { status := .ok, data := BitVec.ofNat 16 (8 + j), found := true, xerr := 0 }, phase := .resp }))

/-- 44_interrupt_ops.md R240 and R241: CLEAR_INTERRUPTS and CAPTURED_INTERRUPT_STATE issue the same INTCAP read, 2 bytes on the
16-pin variant and 1 on the 8-pin variant; only the response differs. -/
def Obligations.IntcapPrograms : Prop :=
  ∀ s : State, s.init = true →
    let asks : Width → Result := fun n => .next
      { s with req := readRequest s (hwf s) (resolve s.cfg .intcap .A) n, phase := .issue }
    (s.k = 0 → s.cfg.pinCount = .sixteen →
      exec .clearInterrupts s = asks .two ∧ exec .capturedInterruptState s = asks .two) ∧
    (s.k = 0 → s.cfg.pinCount = .eight →
      exec .clearInterrupts s = asks .one ∧ exec .capturedInterruptState s = asks .one) ∧
    (s.k = 1 →
      exec .clearInterrupts s = .next
        { s with rsp := { status := .ok, data := 0, found := false, xerr := 0 }, phase := .resp } ∧
      exec .capturedInterruptState s = .next
        { s with rsp := { status := .ok, data := s.rd, found := false, xerr := 0 }, phase := .resp })

/-- 45_address_pins.md R250, R251, R252 and R254: ENABLE_HW_ADDRESS_PINS does nothing on I2C; on SPI it writes 0x08 whole to IOCON,
addressed as 0 and then, on the 16-pin variant, as `S.hw_addr`, and only then sets `S.haen_on`. -/
def Obligations.EnableHwAddressPinsProgram : Prop :=
  ∀ s : State, s.init = true →
    let response : Response := { status := .ok, data := 0, found := false, xerr := 0 }
    let writes : HwAddr → Result := fun f => .next
      { s with req := writeRequest s f (resolve s.cfg .iocon .A) .one 0x08, phase := .issue }
    let enabled : Result := .next { s with haenOn := true, rsp := response, phase := .resp }
    (s.bus = .i2c → exec .enableHwAddressPins s = .next { s with rsp := response, phase := .resp }) ∧
    (s.bus = .spi → s.k = 0 → exec .enableHwAddressPins s = writes 0) ∧
    (s.bus = .spi → s.cfg.pinCount = .sixteen → s.k = 1 → exec .enableHwAddressPins s = writes s.hwAddr) ∧
    (s.bus = .spi → s.cfg.pinCount = .sixteen → s.k = 2 → exec .enableHwAddressPins s = enabled) ∧
    (s.bus = .spi → s.cfg.pinCount = .eight → s.k = 1 → exec .enableHwAddressPins s = enabled)

/-! ## What holds of every command and every step -/

/-- The frame of every command (10_state.md R28 to R34): a command's meaning always answers a next state; it writes the request
or the response and the phase, and nothing else, but for a bind's binding and ENABLE_HW_ADDRESS_PINS' flag, which come with a
response of status OK. -/
def Obligations.CommandsWriteNothingElse : Prop :=
  ∀ (i : Instr) (s : State), ∃ t, exec i s = .next t ∧
    t.cfg = s.cfg ∧ t.cmd = s.cmd ∧ t.k = s.k ∧ t.rd = s.rd ∧ t.inputs = s.inputs ∧
    ((t.phase = .issue ∧ t.rsp = s.rsp) ∨ (t.phase = .resp ∧ t.req = s.req)) ∧
    (isBind i = false → t.init = s.init ∧ t.bus = s.bus ∧ t.i2cAddr = s.i2cAddr ∧ t.hwAddr = s.hwAddr) ∧
    (isBind i = false → i ≠ .enableHwAddressPins → t.haenOn = s.haenOn) ∧
    (t.init ≠ s.init ∨ t.bus ≠ s.bus ∨ t.i2cAddr ≠ s.i2cAddr ∨ t.hwAddr ≠ s.hwAddr ∨ t.haenOn ≠ s.haenOn →
      t.phase = .resp ∧ t.rsp.status = .ok)

/-- 10_state.md R28 and R29: in a step that is no reset, initialisation and binding change only when the begin of a bind
completes with success, all together and to what that bind names. -/
def Obligations.BindingChangesOnlyByASuccessfulBind : Prop :=
  ∀ s t : State, step s = .next t → s.now.rst = false →
    t.init ≠ s.init ∨ t.bus ≠ s.bus ∨ t.i2cAddr ≠ s.i2cAddr ∨ t.hwAddr ≠ s.hwAddr →
      s.phase = .wait ∧ s.now.txDone = true ∧ s.now.txOk = true ∧
      t.init = true ∧ t.haenOn = false ∧ t.phase = .resp ∧ t.rsp.status = .ok ∧
      ((∃ a, decode s.cfg s.cmd = .ok (.bindI2c a) ∧ t.bus = .i2c ∧ t.i2cAddr = a ∧ t.hwAddr = 0) ∨
       (∃ h, decode s.cfg s.cmd = .ok (.bindSpi h) ∧ t.bus = .spi ∧ t.i2cAddr = 0 ∧ t.hwAddr = h))

/-- 10_state.md R30 and 45_address_pins.md R252, R254 (d): `S.haen_on` becomes 1 only when the last write of
ENABLE_HW_ADDRESS_PINS completes with success on an SPI binding, and becomes 0 only by a successful bind or a reset. -/
def Obligations.AddressModeChangesOnlyByItsCommand : Prop :=
  ∀ s t : State, step s = .next t → s.now.rst = false → t.haenOn ≠ s.haenOn →
    s.phase = .wait ∧ s.now.txDone = true ∧ s.now.txOk = true ∧ t.rsp.status = .ok ∧
    ((t.haenOn = true ∧ s.bus = .spi ∧ decode s.cfg s.cmd = .ok .enableHwAddressPins) ∨
     (t.haenOn = false ∧ ∃ i, decode s.cfg s.cmd = .ok i ∧ isBind i = true))

/-- 10_state.md R21: no step, a reset included, changes the build parameters. -/
def Obligations.ParametersNeverChange : Prop :=
  ∀ s t : State, step s = .next t → t.cfg = s.cfg

/-- 20_memory.md R54, R53, R61 and 00_scope.md R7: every request a command presents touches only addresses of R54 (so never IPOL,
never 0x0B); 0x11 is never a start and 0x0F is LAST_INTERRUPT_PIN's alone on the 16-pin variant; a 2-byte transaction occurs only
on the 16-pin variant and starts at an even address. -/
def Obligations.OnlyTheMappedAddressesAreEmitted : Prop :=
  ∀ (i : Instr) (s t : State), exec i s = .next t → t.phase = .issue → t.req.kind ≠ .begin →
    ((touched t.req).length = 1 ∨ (touched t.req).length = 2) ∧
    (∀ a ∈ touched t.req, emitted s.cfg a = true) ∧
    (s.cfg.pinCount = .sixteen → requestAddress t.req ≠ 0x11) ∧
    (s.cfg.pinCount = .sixteen → 0x0F ∈ touched t.req → i = .lastInterruptPin) ∧
    ((touched t.req).length = 2 → s.cfg.pinCount = .sixteen ∧ requestAddress t.req % 2 = 0)

/-- 10_state.md R35: the number of transactions of a command that ends with OK; LAST_INTERRUPT_PIN issues 2 exactly when INTF A reads 0
on the 16-pin variant (44_interrupt_ops.md R235). -/
def Obligations.TransactionCounts : Prop :=
  ∀ (i : Instr) (s : State) (d : Nat → BitVec 16),
    (commandBody i s d).requests.length ≤ maxTransactions s i ∧ maxTransactions s i ≤ 6 ∧
    (i ≠ .lastInterruptPin → (commandBody i s d).requests.length = maxTransactions s i) ∧
    (i = .lastInterruptPin → (commandBody i s d).requests.length =
      if s.cfg.pinCount = .sixteen ∧ (d 0).extractLsb' 0 8 = 0#8 then 2 else 1)

/-- The machine, advancing by `S.k` and `S.rd` from event to event, does what each command's pseudocode says from top to bottom
(41_sequencer.md R142, and 42 to 45): the same requests in the same order, each once, the same response, the same binding; a
command that fails a check issues nothing. That a command which fails a check has nevertheless been latched, with `S.k = 0`, is the
model's choice (log 5: R141 against R86 and R154). -/
def Obligations.CommandsRunTheirPseudocode : Prop :=
  ∀ (i : Instr) (s : State) (d : Nat → BitVec 16), i.wellFormed s.cfg = true → s.phase = .idle →
    let e := commandEffect i s d
    let n := e.requests.length
    let start : State := { s with inputs := Inputs.command (encode i) :: exchanges d n }
    issuedRequests (1 + 2 * n) start = e.requests ∧
    ∃ t, run (1 + 2 * n) start = .next t ∧ t.phase = .resp ∧ t.rsp = e.response ∧ t.k.toNat = n ∧ t.cmd = encode i ∧
      t.cfg = s.cfg ∧ t.init = e.init ∧ t.bus = e.bus ∧ t.i2cAddr = e.i2cAddr ∧ t.hwAddr = e.hwAddr ∧
      t.haenOn = e.haenOn ∧ t.inputs = []

/-- 10_state.md R25: every accepted command, legal or not, is answered, in whatever way the transport answers its requests and
whatever data it returns, within the 12 instants that 6 transactions take (R35). That the transport acts is a hypothesis
(70_reset_and_hazards.md R310). That `S.cmd` is the word also after an illegal or refused one is the model's choice (log 5: R141
against R86 and R154). -/
def Obligations.EveryAcceptedCommandIsAnswered : Prop :=
  ∀ (s : State) (w : CommandWord) (l : List Inputs), s.phase = .idle → l.length = 12 →
    (∀ i ∈ l, i.cooperative = true) →
      ∃ t, run 13 { s with inputs := Inputs.command w :: l } = .next t ∧ t.phase = .resp ∧ t.cmd = w

/-- 10_state.md R20: no command's behaviour depends on what earlier commands read, or on anything else they left behind but the
binding: two machines ready to accept, with the same binding and the same world outside, show the same for ever. -/
def Obligations.CommandsLeaveNoMemory : Prop :=
  ∀ s t : State, SameBinding s t → s.phase = .idle → t.phase = .idle →
    ∀ n : Nat, ∃ s' t', run n s = .next s' ∧ run n t = .next t' ∧ SameOutside s' t' ∧ SameBinding s' t'

/-- The invariant holds right after reset, on every instance (10_state.md R40). -/
def Obligations.InvariantHoldsAtReset : Prop :=
  (∀ c : Config, Inv (State.resetWith c)) ∧ Inv State.reset

/-- The invariant is kept by every step from every state that meets it, whatever the outside world does. -/
def Obligations.EveryStepKeepsTheInvariant : Prop :=
  ∀ s t : State, Inv s → step s = .next t → Inv t

/-- 60_exceptions.md R270: "the PRD has no fault state". From a state that meets the invariant every step answers a next state:
the model's one fault (log 6) is out of reach. -/
def Obligations.NoStepStops : Prop :=
  ∀ s : State, Inv s → ∃ t, step s = .next t

/-! ## The PRD with the register-file test double (95_test_vectors.md 9.1) -/

/-- What the storing pin and port commands do to the double's bytes: exactly the bytes the rule names change
(R180, R182, R202, R206), every other byte is as before. -/
def Obligations.DoubleAfterPinAndPortWrites : Prop :=
  ∀ (s : State) (m : Memory) (reg : LogicalReg), m.wf = true → s.phase = .idle → s.init = true →
    (s.cfg.portWriteReg = .gpio → reg = .gpio) → (s.cfg.portWriteReg = .olat → reg = .olat) →
    let ok : Response := { status := .ok, data := 0, found := false, xerr := 0 }
    let at_ : LogicalReg → Port → Nat := fun r p => (resolve s.cfg r p).toNat
    (∀ pin mode, pinValid s.cfg pin = true → ∃ t m', rfCommand (encode (.setPinMode pin mode)) s m = some (t, m') ∧
      t.rsp = ok ∧ t.phase = .idle ∧ ∀ a, m'.read a =
        if a = at_ .iodir (portOf pin) then setbit (m.read a) (bitOf pin) (decide (mode ≠ .output))
        else if a = at_ .gppu (portOf pin) then setbit (m.read a) (bitOf pin) (decide (mode = .inputPullup))
        else m.read a) ∧
    (∀ pin value, pinValid s.cfg pin = true → ∃ t m', rfCommand (encode (.digitalWrite pin value)) s m = some (t, m') ∧
      t.rsp = ok ∧ t.phase = .idle ∧ ∀ a, m'.read a =
        if a = at_ reg (portOf pin) then setbit (m.read a) (bitOf pin) value else m.read a) ∧
    (∀ port byte, portValid s.cfg port = true → ∃ t m', rfCommand (encode (.writePort port byte)) s m = some (t, m') ∧
      t.rsp = ok ∧ t.phase = .idle ∧ ∀ a, m'.read a = if a = at_ reg port then byte else m.read a) ∧
    (∀ word, s.cfg.pinCount = .sixteen → ∃ t m', rfCommand (encode (.writePorts16 word)) s m = some (t, m') ∧
      t.rsp = ok ∧ t.phase = .idle ∧ ∀ a, m'.read a =
        if a = at_ reg .A then word.extractLsb' 0 8 else if a = at_ reg .B then word.extractLsb' 8 8 else m.read a)

/-- The same for the interrupt commands and the hardware address enable (R220, R225, R230, R250, R251). The source's example E6
(95_test_vectors.md) is the case TriggerLow. -/
def Obligations.DoubleAfterInterruptAndAddressWrites : Prop :=
  ∀ (s : State) (m : Memory), m.wf = true → s.phase = .idle → s.init = true →
    let ok : Response := { status := .ok, data := 0, found := false, xerr := 0 }
    let at_ : LogicalReg → Port → Nat := fun r p => (resolve s.cfg r p).toNat
    (∀ mir odr ah, ∃ t m', rfCommand (encode (.configureInterrupts mir odr ah)) s m = some (t, m') ∧
      t.rsp = ok ∧ t.phase = .idle ∧ ∀ a, m'.read a =
        if a = at_ .iocon .A then ioconWith s.cfg (m.read a) mir odr ah else m.read a) ∧
    (∀ pin trig, pinValid s.cfg pin = true → ∃ t m', rfCommand (encode (.enablePinInterrupt pin trig)) s m = some (t, m') ∧
      t.rsp = ok ∧ t.phase = .idle ∧ ∀ a, m'.read a =
        if a = at_ .gpinten (portOf pin) then setbit (m.read a) (bitOf pin) true
        else if a = at_ .intcon (portOf pin) then setbit (m.read a) (bitOf pin) (decide (trig ≠ .onChange))
        else if a = at_ .defval (portOf pin) ∧ trig ≠ .onChange then setbit (m.read a) (bitOf pin) (decide (trig = .triggerLow))
        else m.read a) ∧
    (∀ pin, pinValid s.cfg pin = true → ∃ t m', rfCommand (encode (.disablePinInterrupt pin)) s m = some (t, m') ∧
      t.rsp = ok ∧ t.phase = .idle ∧ ∀ a, m'.read a =
        if a = at_ .gpinten (portOf pin) then setbit (m.read a) (bitOf pin) false else m.read a) ∧
    (∃ t m', rfCommand (encode .enableHwAddressPins) s m = some (t, m') ∧
      t.rsp = ok ∧ t.phase = .idle ∧ (s.bus = .spi → t.haenOn = true) ∧ (s.bus = .i2c → t.haenOn = s.haenOn) ∧
      ∀ a, m'.read a = if s.bus = .spi ∧ a = at_ .iocon .A then 0x08 else m.read a)

/-- The reading commands store nothing (R181, R201, R205, R235, R240, R241) and answer with the double's bytes. -/
def Obligations.DoubleAfterReads : Prop :=
  ∀ (s : State) (m : Memory), s.phase = .idle → s.init = true →
    let at_ : LogicalReg → Port → Nat := fun r p => (resolve s.cfg r p).toNat
    (∀ pin, pinValid s.cfg pin = true → ∃ t, rfCommand (encode (.digitalRead pin)) s m = some (t, m) ∧ t.phase = .idle ∧
      t.rsp = { status := .ok, found := false, xerr := 0,
                data := if (m.read (at_ .gpio (portOf pin))).getLsbD (pin.toNat % 8) then 1 else 0 }) ∧
    (∀ port, portValid s.cfg port = true → ∃ t, rfCommand (encode (.readPort port)) s m = some (t, m) ∧ t.phase = .idle ∧
      t.rsp = { status := .ok, found := false, xerr := 0, data := 0#8 ++ m.read (at_ .gpio port) }) ∧
    (s.cfg.pinCount = .sixteen → ∃ t, rfCommand (encode .readPorts16) s m = some (t, m) ∧ t.phase = .idle ∧
      t.rsp = { status := .ok, found := false, xerr := 0, data := m.read (at_ .gpio .B) ++ m.read (at_ .gpio .A) }) ∧
    (∃ t, rfCommand (encode .clearInterrupts) s m = some (t, m) ∧ t.phase = .idle ∧
      t.rsp = { status := .ok, found := false, xerr := 0, data := 0 }) ∧
    (∃ t, rfCommand (encode .capturedInterruptState) s m = some (t, m) ∧ t.phase = .idle ∧
      t.rsp = { status := .ok, found := false, xerr := 0,
                data := (if s.cfg.pinCount = .sixteen then m.read (at_ .intcap .B) else 0#8) ++ m.read (at_ .intcap .A) }) ∧
    (∃ t, rfCommand (encode .lastInterruptPin) s m = some (t, m) ∧ t.phase = .idle ∧
      let fa := m.read (at_ .intf .A)
      let fb := m.read (at_ .intf .B)
      let found : Nat → Response := fun p => { status := .ok, data := BitVec.ofNat 16 p, found := true, xerr := 0 }
      (fa ≠ 0 → ∃ j, j < 8 ∧ fa.getLsbD j = true ∧ (∀ i, i < j → fa.getLsbD i = false) ∧ t.rsp = found j) ∧
      (fa = 0 → s.cfg.pinCount = .sixteen → fb ≠ 0 →
        ∃ j, j < 8 ∧ fb.getLsbD j = true ∧ (∀ i, i < j → fb.getLsbD i = false) ∧ t.rsp = found (8 + j)) ∧
      (fa = 0 → s.cfg.pinCount = .eight ∨ fb = 0 → t.rsp = { status := .ok, data := 0, found := false, xerr := 0 }))

/-- The source's round trip (42_pin_ops.md R183), for every valid pin of both variants with `PORT_WRITE_REG = GPIO`: set the pin
to Output, write it high, read it high, whatever the double held before. -/
def Obligations.PinRoundTripOnTheDouble : Prop :=
  ∀ (s : State) (m : Memory) (pin : Byte) (value : Bool), m.wf = true → s.phase = .idle → s.init = true →
    s.cfg.portWriteReg = .gpio → pinValid s.cfg pin = true →
      ∃ t m', rfProgram [encode (.setPinMode pin .output), encode (.digitalWrite pin value), encode (.digitalRead pin)] s m
          = some (t, m') ∧
        t.rsp = { status := .ok, data := if value then 1 else 0, found := false, xerr := 0 }

/-- The source's round trip (43_port_ops.md R207), for every word on the 16-pin variant: it holds with `PORT_WRITE_REG = GPIO`;
with OLAT on a fresh double the read returns 0, so it does not hold there for a word other than 0. -/
def Obligations.PortsRoundTripOnTheDouble : Prop :=
  ∀ (s : State) (m : Memory) (word : PortWord), m.wf = true → s.phase = .idle → s.init = true → s.cfg.pinCount = .sixteen →
    (s.cfg.portWriteReg = .gpio →
      ∃ t m', rfProgram [encode (.writePorts16 word), encode .readPorts16] s m = some (t, m') ∧
        t.rsp = { status := .ok, data := word, found := false, xerr := 0 }) ∧
    (s.cfg.portWriteReg = .olat → m = [] →
      ∃ t m', rfProgram [encode (.writePorts16 word), encode .readPorts16] s m = some (t, m') ∧
        t.rsp = { status := .ok, data := 0, found := false, xerr := 0 })

/-- The double's bytes (95_test_vectors.md 9.1) keep their canonical form through every command, whatever the state it starts from. The
form, rising addresses and no zero entry, is the model's choice and not the spec's: log 14. -/
def Obligations.DoubleKeepsItsForm : Prop :=
  ∀ (w : CommandWord) (s t : State) (m m' : Memory), m.wf = true → rfCommand w s m = some (t, m') → m'.wf = true
end

