-- ==== Sys2Proof/Laws/Flags.lean ====
section
/-!
SUPPORT. The responses field by field, and the bit computations of Machine/Flags.lean said bit by bit.
-/

namespace Sys2Proof.Machine

@[simp] theorem okResponse_status (d : BitVec 16) (f : Bool) : (okResponse d f).status = .ok := rfl
@[simp] theorem okResponse_data (d : BitVec 16) (f : Bool) : (okResponse d f).data = d := rfl
@[simp] theorem okResponse_found (d : BitVec 16) (f : Bool) : (okResponse d f).found = f := rfl
@[simp] theorem okResponse_xerr (d : BitVec 16) (f : Bool) : (okResponse d f).xerr = 0 := rfl
@[simp] theorem errorResponse_status (st : Status) (e : Byte) : (errorResponse st e).status = st := rfl
@[simp] theorem errorResponse_data (st : Status) (e : Byte) : (errorResponse st e).data = 0 := rfl
@[simp] theorem errorResponse_found (st : Status) (e : Byte) : (errorResponse st e).found = false := rfl
@[simp] theorem errorResponse_xerr (st : Status) (e : Byte) :
    (errorResponse st e).xerr = if st = .transportError then e else 0 := rfl

/-- A shifted bit stands at one place. -/
theorem bit8_shift (d : Bool) (n j : Nat) :
    (bit8 d <<< n).getLsbD j = (decide (j < 8) && decide (j = n) && d) := by
  cases d
  · simp [bit8]
  · simp only [bit8, if_true, BitVec.getLsbD_shiftLeft, Bool.and_true]
    show (_ && _ && BitVec.getLsbD 1#8 _) = _
    rw [BitVec.getLsbD_one]
    by_cases h : j < 8
    · by_cases h2 : j = n
      · simp [h2]
      · simp [h, h2]
        omega
    · simp [h]

/-- `setbit` replaces one bit and keeps the others (R15). -/
theorem setbit_bit (v : Byte) (b : BitIndex) (d : Bool) (j : Nat) (hj : j < 8) :
    (setbit v b d).getLsbD j = if j = b.toNat then d else v.getLsbD j := by
  have e := bit8_shift true b.toNat j
  simp only [bit8, if_true, Bool.and_true] at e
  simp only [setbit, BitVec.getLsbD_or, BitVec.getLsbD_and, BitVec.getLsbD_not, bit8_shift]
  rw [show (1#8) = (1 : Byte) from rfl, e]
  have hb := b.isLt
  by_cases h : j = b.toNat
  · simp [h]
    omega
  · simp [h, hj]

/-- CONFIGURE_INTERRUPTS replaces the bits at the three positions and keeps the others (R220). -/
theorem ioconWith_bit (c : Config) (v : Byte) (mir odr ah : Bool) (j : Nat) (hj : j < 8) :
    (ioconWith c v mir odr ah).getLsbD j =
      ((v.getLsbD j &&
          !(decide (j = c.mirrorBit.toNat) || decide (j = c.odrBit.toNat) || decide (j = c.intpolBit.toNat))) ||
        (decide (j = c.mirrorBit.toNat) && mir) || (decide (j = c.odrBit.toNat) && odr) ||
        (decide (j = c.intpolBit.toNat) && ah)) := by
  have e := bit8_shift true
  simp only [bit8, if_true] at e
  simp only [ioconWith, ioconMask, BitVec.getLsbD_or, BitVec.getLsbD_and, BitVec.getLsbD_not, bit8_shift]
  rw [show (1#8) = (1 : Byte) from rfl, e, e, e]
  simp [hj]

/-- `lowest_set` of a byte with a bit set is the place of its lowest set bit (R15). -/
theorem lowestSet_spec : ∀ v : Byte, v ≠ 0 →
    lowestSet v < 8 ∧ v.getLsbD (lowestSet v) = true ∧ ∀ i, i < lowestSet v → v.getLsbD i = false := by
  decide

theorem haenByte_eq : haenByte = 0x08 := rfl

end Sys2Proof.Machine
end

