-- ==== Sys2Proof/Laws/Operands.lean ====
section
/-!
SUPPORT. The decoder and the wire bytes of a request, in closed form.
-/

namespace Sys2Proof.Machine

/-! The wire bytes of the lengths that occur, byte 0 lowest (R95). -/

theorem packBytes_one (a : Byte) : packBytes [a] = 0#24 ++ a := by
  apply BitVec.eq_of_getLsbD_eq; intro j hj
  show _ = BitVec.getLsbD (w := 24 + 8) _ j
  rw [BitVec.getLsbD_append]
  simp only [packBytes]
  interval_cases j <;> simp

theorem packBytes_two (a b : Byte) : packBytes [a, b] = 0#16 ++ b ++ a := by
  apply BitVec.eq_of_getLsbD_eq; intro j hj
  show _ = BitVec.getLsbD (w := 16 + 8 + 8) _ j
  rw [BitVec.getLsbD_append, BitVec.getLsbD_append]
  simp only [packBytes]
  interval_cases j <;> simp

theorem packBytes_three (a b d : Byte) : packBytes [a, b, d] = 0#8 ++ d ++ b ++ a := by
  apply BitVec.eq_of_getLsbD_eq; intro j hj
  show _ = BitVec.getLsbD (w := 8 + 8 + 8 + 8) _ j
  rw [BitVec.getLsbD_append, BitVec.getLsbD_append, BitVec.getLsbD_append]
  simp only [packBytes]
  interval_cases j <;> simp

theorem packBytes_four (a b d e : Byte) : packBytes [a, b, d, e] = e ++ d ++ b ++ a := by
  apply BitVec.eq_of_getLsbD_eq; intro j hj
  show _ = BitVec.getLsbD (w := 8 + 8 + 8 + 8) _ j
  rw [BitVec.getLsbD_append, BitVec.getLsbD_append, BitVec.getLsbD_append]
  simp only [packBytes]
  interval_cases j <;> simp

/-- Nothing stands above the bytes (R95). -/
theorem packBytes_above (l : List Byte) (j : Nat) (h : 8 * l.length ≤ j) : (packBytes l).getLsbD j = false := by
  induction l generalizing j with
  | nil => simp [packBytes]
  | cons b l ih =>
    simp only [List.length_cons] at h
    simp [packBytes, ih (j - 8) (by omega), BitVec.getLsbD_of_ge b j (by omega)]

@[simp] theorem dataBytes_one (v : BitVec 16) : dataBytes .one v = [v.extractLsb' 0 8] := rfl
@[simp] theorem dataBytes_two (v : BitVec 16) : dataBytes .two v = [v.extractLsb' 0 8, v.extractLsb' 8 8] := rfl

@[simp] theorem bitOf_toNat (pin : Byte) : (bitOf pin).toNat = pin.toNat % 8 := by
  simp [bitOf, BitVec.extractLsb'_toNat]

/-- `PORT_WRITE_REG` by its two values (R10). -/
theorem portWriteReg_eq {c : Config} {reg : LogicalReg} (hg : c.portWriteReg = .gpio → reg = .gpio)
    (ho : c.portWriteReg = .olat → reg = .olat) : portWriteReg c = reg := by
  unfold portWriteReg
  cases h : c.portWriteReg <;> simp_all

/-- Port B is there on the 16-pin variant (R123). -/
theorem portValid_sixteen {c : Config} (h : c.pinCount = .sixteen) (p : Port) : portValid c p = true := by
  simp [portValid, h]

/-- Distinct cases of a read completion: the bytes past `rcount` are 0 (R145). -/
theorem readData_zero (d : BitVec 16) : readData 0 d = 0 := by
  apply BitVec.eq_of_getLsbD_eq; intro j hj
  show BitVec.getLsbD (w := 8 + 8) _ j = _
  simp [readData]

theorem readData_one (d : BitVec 16) : readData 1 d = (d.extractLsb' 0 8).setWidth 16 := by
  apply BitVec.eq_of_getLsbD_eq; intro j hj
  show BitVec.getLsbD (w := 8 + 8) _ j = _
  simp only [readData]
  rw [BitVec.getLsbD_append]
  interval_cases j <;> simp

theorem readData_two (d : BitVec 16) : readData 2 d = d := by
  apply BitVec.eq_of_getLsbD_eq; intro j hj
  show BitVec.getLsbD (w := 8 + 8) _ j = _
  simp only [readData]
  rw [BitVec.getLsbD_append]
  interval_cases j <;> simp

end Sys2Proof.Machine
end

