-- ==== Sys2Proof/Laws/State.lean ====
section
/-!
SUPPORT. One lemma per field per named update of the state (Machine/Ops.lean), so that no proof unfolds an update.
-/

namespace Sys2Proof.Machine

/-! consume -/

@[simp] theorem consume_cfg (s : State) : (consume s).cfg = s.cfg := rfl
@[simp] theorem consume_init (s : State) : (consume s).init = s.init := rfl
@[simp] theorem consume_bus (s : State) : (consume s).bus = s.bus := rfl
@[simp] theorem consume_i2cAddr (s : State) : (consume s).i2cAddr = s.i2cAddr := rfl
@[simp] theorem consume_hwAddr (s : State) : (consume s).hwAddr = s.hwAddr := rfl
@[simp] theorem consume_haenOn (s : State) : (consume s).haenOn = s.haenOn := rfl
@[simp] theorem consume_phase (s : State) : (consume s).phase = s.phase := rfl
@[simp] theorem consume_cmd (s : State) : (consume s).cmd = s.cmd := rfl
@[simp] theorem consume_k (s : State) : (consume s).k = s.k := rfl
@[simp] theorem consume_req (s : State) : (consume s).req = s.req := rfl
@[simp] theorem consume_rsp (s : State) : (consume s).rsp = s.rsp := rfl
@[simp] theorem consume_rd (s : State) : (consume s).rd = s.rd := rfl
@[simp] theorem consume_inputs (s : State) : (consume s).inputs = s.inputs.tail := rfl

/-! latch -/

@[simp] theorem latch_cfg (w : CommandWord) (s : State) : (latch w s).cfg = s.cfg := rfl
@[simp] theorem latch_init (w : CommandWord) (s : State) : (latch w s).init = s.init := rfl
@[simp] theorem latch_bus (w : CommandWord) (s : State) : (latch w s).bus = s.bus := rfl
@[simp] theorem latch_i2cAddr (w : CommandWord) (s : State) : (latch w s).i2cAddr = s.i2cAddr := rfl
@[simp] theorem latch_hwAddr (w : CommandWord) (s : State) : (latch w s).hwAddr = s.hwAddr := rfl
@[simp] theorem latch_haenOn (w : CommandWord) (s : State) : (latch w s).haenOn = s.haenOn := rfl
@[simp] theorem latch_phase (w : CommandWord) (s : State) : (latch w s).phase = s.phase := rfl
@[simp] theorem latch_cmd (w : CommandWord) (s : State) : (latch w s).cmd = w := rfl
@[simp] theorem latch_k (w : CommandWord) (s : State) : (latch w s).k = 0 := rfl
@[simp] theorem latch_req (w : CommandWord) (s : State) : (latch w s).req = s.req := rfl
@[simp] theorem latch_rsp (w : CommandWord) (s : State) : (latch w s).rsp = s.rsp := rfl
@[simp] theorem latch_rd (w : CommandWord) (s : State) : (latch w s).rd = 0 := rfl
@[simp] theorem latch_inputs (w : CommandWord) (s : State) : (latch w s).inputs = s.inputs := rfl

/-! present -/

@[simp] theorem present_cfg (r : Request) (s : State) : (present r s).cfg = s.cfg := rfl
@[simp] theorem present_init (r : Request) (s : State) : (present r s).init = s.init := rfl
@[simp] theorem present_bus (r : Request) (s : State) : (present r s).bus = s.bus := rfl
@[simp] theorem present_i2cAddr (r : Request) (s : State) : (present r s).i2cAddr = s.i2cAddr := rfl
@[simp] theorem present_hwAddr (r : Request) (s : State) : (present r s).hwAddr = s.hwAddr := rfl
@[simp] theorem present_haenOn (r : Request) (s : State) : (present r s).haenOn = s.haenOn := rfl
@[simp] theorem present_phase (r : Request) (s : State) : (present r s).phase = .issue := rfl
@[simp] theorem present_cmd (r : Request) (s : State) : (present r s).cmd = s.cmd := rfl
@[simp] theorem present_k (r : Request) (s : State) : (present r s).k = s.k := rfl
@[simp] theorem present_req (r : Request) (s : State) : (present r s).req = r := rfl
@[simp] theorem present_rsp (r : Request) (s : State) : (present r s).rsp = s.rsp := rfl
@[simp] theorem present_rd (r : Request) (s : State) : (present r s).rd = s.rd := rfl
@[simp] theorem present_inputs (r : Request) (s : State) : (present r s).inputs = s.inputs := rfl

/-! endWith -/

@[simp] theorem endWith_cfg (r : Response) (s : State) : (endWith r s).cfg = s.cfg := rfl
@[simp] theorem endWith_init (r : Response) (s : State) : (endWith r s).init = s.init := rfl
@[simp] theorem endWith_bus (r : Response) (s : State) : (endWith r s).bus = s.bus := rfl
@[simp] theorem endWith_i2cAddr (r : Response) (s : State) : (endWith r s).i2cAddr = s.i2cAddr := rfl
@[simp] theorem endWith_hwAddr (r : Response) (s : State) : (endWith r s).hwAddr = s.hwAddr := rfl
@[simp] theorem endWith_haenOn (r : Response) (s : State) : (endWith r s).haenOn = s.haenOn := rfl
@[simp] theorem endWith_phase (r : Response) (s : State) : (endWith r s).phase = .resp := rfl
@[simp] theorem endWith_cmd (r : Response) (s : State) : (endWith r s).cmd = s.cmd := rfl
@[simp] theorem endWith_k (r : Response) (s : State) : (endWith r s).k = s.k := rfl
@[simp] theorem endWith_req (r : Response) (s : State) : (endWith r s).req = s.req := rfl
@[simp] theorem endWith_rsp (r : Response) (s : State) : (endWith r s).rsp = r := rfl
@[simp] theorem endWith_rd (r : Response) (s : State) : (endWith r s).rd = s.rd := rfl
@[simp] theorem endWith_inputs (r : Response) (s : State) : (endWith r s).inputs = s.inputs := rfl

/-! issue -/

@[simp] theorem issue_cfg (s : State) : (issue s).cfg = s.cfg := rfl
@[simp] theorem issue_init (s : State) : (issue s).init = s.init := rfl
@[simp] theorem issue_bus (s : State) : (issue s).bus = s.bus := rfl
@[simp] theorem issue_i2cAddr (s : State) : (issue s).i2cAddr = s.i2cAddr := rfl
@[simp] theorem issue_hwAddr (s : State) : (issue s).hwAddr = s.hwAddr := rfl
@[simp] theorem issue_haenOn (s : State) : (issue s).haenOn = s.haenOn := rfl
@[simp] theorem issue_phase (s : State) : (issue s).phase = .wait := rfl
@[simp] theorem issue_cmd (s : State) : (issue s).cmd = s.cmd := rfl
@[simp] theorem issue_k (s : State) : (issue s).k = s.k := rfl
@[simp] theorem issue_req (s : State) : (issue s).req = s.req := rfl
@[simp] theorem issue_rsp (s : State) : (issue s).rsp = s.rsp := rfl
@[simp] theorem issue_rd (s : State) : (issue s).rd = s.rd := rfl
@[simp] theorem issue_inputs (s : State) : (issue s).inputs = s.inputs := rfl

/-! receive -/

@[simp] theorem receive_cfg (v : BitVec 16) (s : State) : (receive v s).cfg = s.cfg := rfl
@[simp] theorem receive_init (v : BitVec 16) (s : State) : (receive v s).init = s.init := rfl
@[simp] theorem receive_bus (v : BitVec 16) (s : State) : (receive v s).bus = s.bus := rfl
@[simp] theorem receive_i2cAddr (v : BitVec 16) (s : State) : (receive v s).i2cAddr = s.i2cAddr := rfl
@[simp] theorem receive_hwAddr (v : BitVec 16) (s : State) : (receive v s).hwAddr = s.hwAddr := rfl
@[simp] theorem receive_haenOn (v : BitVec 16) (s : State) : (receive v s).haenOn = s.haenOn := rfl
@[simp] theorem receive_phase (v : BitVec 16) (s : State) : (receive v s).phase = s.phase := rfl
@[simp] theorem receive_cmd (v : BitVec 16) (s : State) : (receive v s).cmd = s.cmd := rfl
@[simp] theorem receive_k (v : BitVec 16) (s : State) : (receive v s).k = s.k + 1 := rfl
@[simp] theorem receive_req (v : BitVec 16) (s : State) : (receive v s).req = s.req := rfl
@[simp] theorem receive_rsp (v : BitVec 16) (s : State) : (receive v s).rsp = s.rsp := rfl
@[simp] theorem receive_rd (v : BitVec 16) (s : State) : (receive v s).rd = if s.req.kind = .writeRead then readData s.req.rcount v else s.rd := rfl
@[simp] theorem receive_inputs (v : BitVec 16) (s : State) : (receive v s).inputs = s.inputs := rfl

/-! deliver -/

@[simp] theorem deliver_cfg (s : State) : (deliver s).cfg = s.cfg := rfl
@[simp] theorem deliver_init (s : State) : (deliver s).init = s.init := rfl
@[simp] theorem deliver_bus (s : State) : (deliver s).bus = s.bus := rfl
@[simp] theorem deliver_i2cAddr (s : State) : (deliver s).i2cAddr = s.i2cAddr := rfl
@[simp] theorem deliver_hwAddr (s : State) : (deliver s).hwAddr = s.hwAddr := rfl
@[simp] theorem deliver_haenOn (s : State) : (deliver s).haenOn = s.haenOn := rfl
@[simp] theorem deliver_phase (s : State) : (deliver s).phase = .idle := rfl
@[simp] theorem deliver_cmd (s : State) : (deliver s).cmd = s.cmd := rfl
@[simp] theorem deliver_k (s : State) : (deliver s).k = s.k := rfl
@[simp] theorem deliver_req (s : State) : (deliver s).req = s.req := rfl
@[simp] theorem deliver_rsp (s : State) : (deliver s).rsp = s.rsp := rfl
@[simp] theorem deliver_rd (s : State) : (deliver s).rd = s.rd := rfl
@[simp] theorem deliver_inputs (s : State) : (deliver s).inputs = s.inputs := rfl

/-! hardReset -/

@[simp] theorem hardReset_cfg (s : State) : (hardReset s).cfg = s.cfg := rfl
@[simp] theorem hardReset_init (s : State) : (hardReset s).init = false := rfl
@[simp] theorem hardReset_bus (s : State) : (hardReset s).bus = .i2c := rfl
@[simp] theorem hardReset_i2cAddr (s : State) : (hardReset s).i2cAddr = 0 := rfl
@[simp] theorem hardReset_hwAddr (s : State) : (hardReset s).hwAddr = 0 := rfl
@[simp] theorem hardReset_haenOn (s : State) : (hardReset s).haenOn = false := rfl
@[simp] theorem hardReset_phase (s : State) : (hardReset s).phase = .idle := rfl
@[simp] theorem hardReset_cmd (s : State) : (hardReset s).cmd = 0 := rfl
@[simp] theorem hardReset_k (s : State) : (hardReset s).k = 0 := rfl
@[simp] theorem hardReset_req (s : State) : (hardReset s).req = ⟨.begin, .i2c, 0, 0, 0, 0⟩ := rfl
@[simp] theorem hardReset_rsp (s : State) : (hardReset s).rsp = ⟨.ok, 0, false, 0⟩ := rfl
@[simp] theorem hardReset_rd (s : State) : (hardReset s).rd = 0 := rfl
@[simp] theorem hardReset_inputs (s : State) : (hardReset s).inputs = s.inputs := rfl

/-! bindTo -/

@[simp] theorem bindTo_cfg (b : Bus) (a : DeviceAddr) (h : HwAddr) (s : State) : (bindTo b a h s).cfg = s.cfg := rfl
@[simp] theorem bindTo_init (b : Bus) (a : DeviceAddr) (h : HwAddr) (s : State) : (bindTo b a h s).init = true := rfl
@[simp] theorem bindTo_bus (b : Bus) (a : DeviceAddr) (h : HwAddr) (s : State) : (bindTo b a h s).bus = b := rfl
@[simp] theorem bindTo_i2cAddr (b : Bus) (a : DeviceAddr) (h : HwAddr) (s : State) : (bindTo b a h s).i2cAddr = a := rfl
@[simp] theorem bindTo_hwAddr (b : Bus) (a : DeviceAddr) (h : HwAddr) (s : State) : (bindTo b a h s).hwAddr = h := rfl
@[simp] theorem bindTo_haenOn (b : Bus) (a : DeviceAddr) (h : HwAddr) (s : State) : (bindTo b a h s).haenOn = false := rfl
@[simp] theorem bindTo_phase (b : Bus) (a : DeviceAddr) (h : HwAddr) (s : State) : (bindTo b a h s).phase = s.phase := rfl
@[simp] theorem bindTo_cmd (b : Bus) (a : DeviceAddr) (h : HwAddr) (s : State) : (bindTo b a h s).cmd = s.cmd := rfl
@[simp] theorem bindTo_k (b : Bus) (a : DeviceAddr) (h : HwAddr) (s : State) : (bindTo b a h s).k = s.k := rfl
@[simp] theorem bindTo_req (b : Bus) (a : DeviceAddr) (h : HwAddr) (s : State) : (bindTo b a h s).req = s.req := rfl
@[simp] theorem bindTo_rsp (b : Bus) (a : DeviceAddr) (h : HwAddr) (s : State) : (bindTo b a h s).rsp = s.rsp := rfl
@[simp] theorem bindTo_rd (b : Bus) (a : DeviceAddr) (h : HwAddr) (s : State) : (bindTo b a h s).rd = s.rd := rfl
@[simp] theorem bindTo_inputs (b : Bus) (a : DeviceAddr) (h : HwAddr) (s : State) : (bindTo b a h s).inputs = s.inputs := rfl

/-! setHaen -/

@[simp] theorem setHaen_cfg (s : State) : (setHaen s).cfg = s.cfg := rfl
@[simp] theorem setHaen_init (s : State) : (setHaen s).init = s.init := rfl
@[simp] theorem setHaen_bus (s : State) : (setHaen s).bus = s.bus := rfl
@[simp] theorem setHaen_i2cAddr (s : State) : (setHaen s).i2cAddr = s.i2cAddr := rfl
@[simp] theorem setHaen_hwAddr (s : State) : (setHaen s).hwAddr = s.hwAddr := rfl
@[simp] theorem setHaen_haenOn (s : State) : (setHaen s).haenOn = true := rfl
@[simp] theorem setHaen_phase (s : State) : (setHaen s).phase = s.phase := rfl
@[simp] theorem setHaen_cmd (s : State) : (setHaen s).cmd = s.cmd := rfl
@[simp] theorem setHaen_k (s : State) : (setHaen s).k = s.k := rfl
@[simp] theorem setHaen_req (s : State) : (setHaen s).req = s.req := rfl
@[simp] theorem setHaen_rsp (s : State) : (setHaen s).rsp = s.rsp := rfl
@[simp] theorem setHaen_rd (s : State) : (setHaen s).rd = s.rd := rfl
@[simp] theorem setHaen_inputs (s : State) : (setHaen s).inputs = s.inputs := rfl

end Sys2Proof.Machine
end

