-- ==== Sys2Proof/Laws/Ops.lean ====
section
/-!
SUPPORT. One lemma per shared operation of Machine/Ops.lean: everything it can answer. Callers cite these and do not unfold the
operation.
-/

namespace Sys2Proof.Machine

/-! The primitives and the ends always answer a next state. -/

theorem raise_eq (st : Status) (info : Byte) (s : State) : raise st info s = .next (endWith (errorResponse st info) s) := rfl

theorem respond_eq (d : BitVec 16) (f : Bool) (s : State) : respond d f s = .next (endWith (okResponse d f) s) := rfl

theorem memRead_eq (a : RegAddr) (n : Width) (s : State) :
    memRead a n s = .next (present (readRequest s (hwf s) a n) s) := rfl

theorem memWriteAs_eq (f : HwAddr) (a : RegAddr) (n : Width) (v : BitVec 16) (s : State) :
    memWriteAs f a n v s = .next (present (writeRequest s f a n v) s) := rfl

theorem memWrite_eq (a : RegAddr) (n : Width) (v : BitVec 16) (s : State) :
    memWrite a n v s = .next (present (writeRequest s (hwf s) a n v) s) := rfl

theorem begin_eq (r : Request) (s : State) : begin r s = .next (present r s) := rfl

/-! A program stands at one of its primitives or at its end (R142). -/

theorem runSequence_at {prims : List (State → Result)} {finish : State → Result} {s : State} (h : s.k.toNat < prims.length) :
    runSequence prims finish s = prims[s.k.toNat] s := by
  simp [runSequence, List.getElem?_eq_getElem h]

theorem runSequence_end {prims : List (State → Result)} {finish : State → Result} {s : State} (h : prims.length ≤ s.k.toNat) :
    runSequence prims finish s = finish s := by
  simp [runSequence, List.getElem?_eq_none h]

/-- The program at a known index. -/
theorem runSequence_index {prims : List (State → Result)} {finish : State → Result} {s : State} {n : BitVec 3} (h : s.k = n) :
    runSequence prims finish s = (prims[n.toNat]?.getD finish) s := by
  rw [runSequence, h]

/-- What holds of every primitive before the end, and of the end past the first one, holds of the program. -/
theorem runSequence_cases {P : Result → Prop} {prims : List (State → Result)} {finish : State → Result} {s : State}
    (hp : ∀ f ∈ prims, P (f s)) (hf : prims.length ≤ s.k.toNat → P (finish s)) : P (runSequence prims finish s) := by
  by_cases h : s.k.toNat < prims.length
  · rw [runSequence_at h]; exact hp _ (List.getElem_mem h)
  · rw [runSequence_end (by omega)]; exact hf (by omega)

/-! The checks run when the command is accepted, in order (R143). -/

theorem checked_later {checks : List (State → Option Status)} {program : State → Result} {s : State} (h : s.k ≠ 0) :
    checked checks program s = program s := by
  simp only [checked, if_neg h]

theorem checked_pass {checks : List (State → Option Status)} {program : State → Result} {s : State}
    (h : firstFailure s checks = none) : checked checks program s = program s := by
  simp [checked, h]

theorem checked_fail {checks : List (State → Option Status)} {program : State → Result} {s : State} {st : Status}
    (hk : s.k = 0) (h : firstFailure s checks = some st) : checked checks program s = raise st 0 s := by
  simp [checked, hk, h]

/-- A command either raises the status of its first failed check, at acceptance, or runs its program. -/
theorem checked_cases {P : Result → Prop} {checks : List (State → Option Status)} {program : State → Result} {s : State}
    (hr : ∀ st, s.k = 0 → firstFailure s checks = some st → P (raise st 0 s))
    (hp : (s.k = 0 → firstFailure s checks = none) → P (program s)) : P (checked checks program s) := by
  by_cases hk : s.k = 0
  · cases h : firstFailure s checks with
    | none => rw [checked_pass h]; exact hp (fun _ => h)
    | some st => rw [checked_fail hk h]; exact hr st hk h
  · rw [checked_later hk]; exact hp (fun e => absurd e hk)

/-- The status of a failed check is one of three, never OK (R143). -/
theorem firstFailure_status {s : State} {checks : List (State → Option Status)} {st : Status}
    (hc : ∀ c ∈ checks, c s = none ∨ c s = some .alreadyBound ∨ c s = some .notInitialized ∨ c s = some .invalidPin)
    (h : firstFailure s checks = some st) : st = .alreadyBound ∨ st = .notInitialized ∨ st = .invalidPin := by
  obtain ⟨c, hmem, hcs⟩ := List.exists_of_findSome?_eq_some h
  rcases hc c hmem with h' | h' | h' | h' <;> rw [h'] at hcs <;> simp_all

theorem needUnbound_cases (s : State) : needUnbound s = none ∨ needUnbound s = some .alreadyBound := by
  unfold needUnbound; split <;> simp

theorem needBound_cases (s : State) : needBound s = none ∨ needBound s = some .notInitialized := by
  unfold needBound; split <;> simp

theorem needPin_cases (pin : Byte) (s : State) : needPin pin s = none ∨ needPin pin s = some .invalidPin := by
  unfold needPin; split <;> simp

theorem needPort_cases (port : Port) (s : State) : needPort port s = none ∨ needPort port s = some .invalidPin := by
  unfold needPort; split <;> simp

/-- The two primitives of a read-modify-write each present one request (R160). -/
theorem rmw_cases {P : Result → Prop} {a : RegAddr} {b : BitIndex} {d : Bool} {s : State}
    (hp : ∀ r, P (.next (present r s))) : ∀ f ∈ rmw a b d, P (f s) := by
  intro f hf
  simp only [rmw, List.mem_cons, List.not_mem_nil, or_false] at hf
  rcases hf with rfl | rfl
  · exact hp _
  · exact hp _

@[simp] theorem rmw_length (a : RegAddr) (b : BitIndex) (d : Bool) : (rmw a b d).length = 2 := rfl

end Sys2Proof.Machine
end

