-- ==== Sys2Proof/Laws/Exec.lean ====
section
/-!
SUPPORT. Everything `exec`, a completion and a step can do, said once: invariants are derived from these lemmas and do not
unfold the meanings.
-/

namespace Sys2Proof.Machine

/-- What a command's meaning answers: a failed check, a request presented, or its end; only the two binds and
ENABLE_HW_ADDRESS_PINS write anything else, and only past their first transaction. -/
inductive ExecCase (i : Instr) (s : State) : Result → Prop where
  | failed (st : Status) (hk : s.k = 0) (hf : firstFailure s (commandChecks i) = some st)
      (hst : st = .alreadyBound ∨ st = .notInitialized ∨ st = .invalidPin) :
      ExecCase i s (.next (endWith (errorResponse st 0) s))
  | presents (r : Request) : ExecCase i s (.next (present r s))
  | ends (d : BitVec 16) (f : Bool) (hf : f = true → d.toNat < 16) : ExecCase i s (.next (endWith (okResponse d f) s))
  | bindsI2c (a : DeviceAddr) (hi : i = .bindI2c a) (hk : 1 ≤ s.k.toNat) :
      ExecCase i s (.next (endWith (okResponse 0 false) (bindTo .i2c a 0 s)))
  | bindsSpi (h : HwAddr) (hi : i = .bindSpi h) (hk : 1 ≤ s.k.toNat) :
      ExecCase i s (.next (endWith (okResponse 0 false) (bindTo .spi 0 h s)))
  | enables (hi : i = .enableHwAddressPins) (hb : s.bus = .spi) (hk : 1 ≤ s.k.toNat) :
      ExecCase i s (.next (endWith (okResponse 0 false) (setHaen s)))

/-- A check that fails gives one of three statuses, never OK (R143). -/
theorem commandChecks_status {i : Instr} {s : State} {st : Status} (h : firstFailure s (commandChecks i) = some st) :
    st = .alreadyBound ∨ st = .notInitialized ∨ st = .invalidPin := by
  refine firstFailure_status (checks := commandChecks i) ?_ h
  have hu := needUnbound_cases s
  have hb := needBound_cases s
  intro c hc
  cases i <;> simp only [commandChecks, List.mem_cons, List.not_mem_nil, or_false] at hc <;> rcases hc with rfl | rfl <;>
    first
    | (rcases hu with h | h <;> simp [h])
    | (rcases hb with h | h <;> simp [h])
    | (rename_i pin; rcases needPin_cases pin s with h | h <;> simp [h])
    | (rename_i pin _; rcases needPin_cases pin s with h | h <;> simp [h])
    | (rename_i port; rcases needPort_cases port s with h | h <;> simp [h])
    | (rename_i port _; rcases needPort_cases port s with h | h <;> simp [h])
    | (rcases needPort_cases .B s with h | h <;> simp [h])

/-- A command that checks what R143 lists and whose program stays within `ExecCase` does so as a whole. -/
theorem checked_execCase {i : Instr} {s : State} {program : State → Result} (hp : ExecCase i s (program s)) :
    ExecCase i s (checked (commandChecks i) program s) :=
  checked_cases (fun st hk h => .failed st hk h (commandChecks_status h)) (fun _ => hp)

/-- A program of one primitive that presents a request. -/
theorem single_execCase {i : Instr} {s : State} {f finish : State → Result} (hf : ∃ r, f s = .next (present r s))
    (he : 1 ≤ s.k.toNat → ExecCase i s (finish s)) : ExecCase i s (runSequence [f] finish s) := by
  refine runSequence_cases ?_ he
  intro g hg
  simp only [List.mem_singleton] at hg
  subst hg
  obtain ⟨r, hr⟩ := hf
  rw [hr]
  exact .presents r

/-- A program of primitives that each present a request, and that ends with OK. -/
theorem rmws_execCase {i : Instr} {s : State} {prims : List (State → Result)}
    (hf : ∀ f ∈ prims, ExecCase i s (f s)) : ExecCase i s (runSequence prims (respond 0 false) s) :=
  runSequence_cases hf (fun _ => .ends 0 false (by simp))

theorem rmw_execCase {i : Instr} {s : State} {a : RegAddr} {b : BitIndex} {d : Bool} :
    ∀ f ∈ rmw a b d, ExecCase i s (f s) := rmw_cases (fun r => .presents r)

theorem append_execCase {i : Instr} {s : State} {xs ys : List (State → Result)} (hx : ∀ f ∈ xs, ExecCase i s (f s))
    (hy : ∀ f ∈ ys, ExecCase i s (f s)) : ∀ f ∈ xs ++ ys, ExecCase i s (f s) := by
  intro f hf
  rcases List.mem_append.mp hf with h | h
  · exact hx f h
  · exact hy f h

/-- Everything a command's meaning can do. -/
theorem exec_cases (i : Instr) (s : State) : ExecCase i s (exec i s) := by
  cases i with
  | bindI2c a =>
    exact checked_execCase (single_execCase ⟨_, rfl⟩ (fun hk => .bindsI2c a rfl hk))
  | bindSpi h =>
    exact checked_execCase (single_execCase ⟨_, rfl⟩ (fun hk => .bindsSpi h rfl hk))
  | setPinMode pin mode =>
    exact checked_execCase (rmws_execCase (append_execCase rmw_execCase rmw_execCase))
  | digitalRead pin => exact checked_execCase (single_execCase ⟨_, rfl⟩ (fun _ => .ends _ _ (by simp)))
  | digitalWrite pin value => exact checked_execCase (rmws_execCase rmw_execCase)
  | readPort port => exact checked_execCase (single_execCase ⟨_, rfl⟩ (fun _ => .ends _ _ (by simp)))
  | writePort port byte => exact checked_execCase (single_execCase ⟨_, rfl⟩ (fun _ => .ends _ _ (by simp)))
  | readPorts16 => exact checked_execCase (single_execCase ⟨_, rfl⟩ (fun _ => .ends _ _ (by simp)))
  | writePorts16 word => exact checked_execCase (single_execCase ⟨_, rfl⟩ (fun _ => .ends _ _ (by simp)))
  | configureInterrupts mir odr ah =>
    refine checked_execCase (rmws_execCase ?_)
    intro f hf
    simp only [List.mem_cons, List.not_mem_nil, or_false] at hf
    rcases hf with rfl | rfl <;> exact .presents _
  | enablePinInterrupt pin trig =>
    refine checked_execCase (rmws_execCase (append_execCase ?_ rmw_execCase))
    cases trig
    · exact rmw_execCase
    · exact append_execCase rmw_execCase rmw_execCase
    · exact append_execCase rmw_execCase rmw_execCase
  | disablePinInterrupt pin => exact checked_execCase (rmws_execCase rmw_execCase)
  | lastInterruptPin =>
    refine checked_execCase (runSequence_cases ?_ ?_)
    · intro f hf
      simp only [List.mem_cons, List.not_mem_nil, or_false] at hf
      rcases hf with rfl | rfl
      · exact .presents _
      · dsimp only
        split
        · rename_i h
          have := (lowestSet_spec _ h).1
          exact .ends _ _ (fun _ => by simp only [BitVec.toNat_ofNat]; omega)
        · split
          · exact .presents _
          · exact .ends _ _ (by simp)
    · intro _
      split
      · rename_i h
        have := (lowestSet_spec _ h).1
        exact .ends _ _ (fun _ => by simp only [BitVec.toNat_ofNat]; omega)
      · exact .ends _ _ (by simp)
  | clearInterrupts => exact checked_execCase (single_execCase ⟨_, rfl⟩ (fun _ => .ends _ _ (by simp)))
  | capturedInterruptState => exact checked_execCase (single_execCase ⟨_, rfl⟩ (fun _ => .ends _ _ (by simp)))
  | enableHwAddressPins =>
    unfold exec execEnableHwAddressPins
    refine checked_execCase ?_
    cases hb : s.bus with
    | i2c => exact .ends _ _ (by simp)
    | spi =>
      dsimp only
      refine runSequence_cases ?_ ?_
      · intro f hf
        unfold haenWrites at hf
        cases hc : s.cfg.pinCount with
        | eight =>
          simp only [hc, List.mem_singleton] at hf
          subst hf; exact .presents _
        | sixteen =>
          simp only [hc, List.mem_cons, List.not_mem_nil, or_false] at hf
          rcases hf with rfl | rfl <;> exact .presents _
      · intro hk
        refine .enables rfl hb ?_
        unfold haenWrites at hk
        cases hc : s.cfg.pinCount <;> simp only [hc, List.length_cons, List.length_nil] at hk <;> omega

theorem exec_cases_of {i : Instr} {s : State} {o : Result} (h : exec i s = o) : ExecCase i s o := h ▸ exec_cases i s

/-- A command that fails a check when it is accepted raises that check's status (R143). -/
theorem exec_fail {i : Instr} {s : State} {st : Status} (hk : s.k = 0) (h : firstFailure s (commandChecks i) = some st) :
    exec i s = raise st 0 s := by
  cases i
  case enableHwAddressPins => unfold exec execEnableHwAddressPins; exact checked_fail hk h
  all_goals exact checked_fail hk h

/-- A command's meaning always answers a next state. -/
theorem exec_next (i : Instr) (s : State) : ∃ t, exec i s = .next t := by
  have h := exec_cases i s
  generalize exec i s = o at h
  cases h <;> exact ⟨_, rfl⟩

/-! The step, by the event that fires. -/

theorem step_reset {s : State} (h : s.now.rst = true) : step s = .next (hardReset (consume s)) := by
  simp [step, react, enabledEvent, h, fire]

theorem step_accept {s : State} (hr : s.now.rst = false) (hp : s.phase = .idle) (hv : s.now.cmdValid = true) :
    step s = accept s.now.cmdWord (consume s) := by
  simp [step, react, enabledEvent, hr, hp, hv, fire]

theorem step_issue {s : State} (hr : s.now.rst = false) (hp : s.phase = .issue) (hv : s.now.txReqReady = true) :
    step s = .next (issue (consume s)) := by
  simp [step, react, enabledEvent, hr, hp, hv, fire]

theorem step_complete {s : State} (hr : s.now.rst = false) (hp : s.phase = .wait) (hv : s.now.txDone = true) :
    step s = complete s.now.txOk s.now.txErr s.now.txRdata (consume s) := by
  simp [step, react, enabledEvent, hr, hp, hv, fire]

theorem step_deliver {s : State} (hr : s.now.rst = false) (hp : s.phase = .resp) (hv : s.now.rspReady = true) :
    step s = .next (deliver (consume s)) := by
  simp [step, react, enabledEvent, hr, hp, hv, fire]

theorem step_nothing {s : State} (h : enabledEvent s.phase s.now = none) : step s = .next (consume s) := by
  simp [step, react, h]

/-- Everything a step can do (R140 to R147, R266), guards included. With `step s = .next t` for a variable `t`, `cases` on it and
then on `exec_cases` names `t` in every case. -/
inductive StepCase (s : State) : Result → Prop where
  | reset (hr : s.now.rst = true) : StepCase s (.next (hardReset (consume s)))
  | illegal (e : DecodeError) (hr : s.now.rst = false) (hp : s.phase = .idle) (hv : s.now.cmdValid = true)
      (hd : decode s.cfg s.now.cmdWord = .error e) :
      StepCase s (.next (endWith (errorResponse .illegalCommand 0) (latch s.now.cmdWord (consume s))))
  | accepted (i : Instr) (o : Result) (hr : s.now.rst = false) (hp : s.phase = .idle) (hv : s.now.cmdValid = true)
      (hd : decode s.cfg s.now.cmdWord = .ok i) (he : exec i (latch s.now.cmdWord (consume s)) = o) : StepCase s o
  | issued (hr : s.now.rst = false) (hp : s.phase = .issue) (hv : s.now.txReqReady = true) :
      StepCase s (.next (issue (consume s)))
  | failed (hr : s.now.rst = false) (hp : s.phase = .wait) (hv : s.now.txDone = true) (ho : s.now.txOk = false) :
      StepCase s (.next (endWith (errorResponse .transportError s.now.txErr) (consume s)))
  | continued (i : Instr) (o : Result) (hr : s.now.rst = false) (hp : s.phase = .wait) (hv : s.now.txDone = true)
      (ho : s.now.txOk = true) (hd : decode s.cfg s.cmd = .ok i) (he : exec i (receive s.now.txRdata (consume s)) = o) :
      StepCase s o
  | stopped (e : DecodeError) (hr : s.now.rst = false) (hp : s.phase = .wait) (hv : s.now.txDone = true)
      (ho : s.now.txOk = true) (hd : decode s.cfg s.cmd = .error e) : StepCase s (.fault .noProgram)
  | delivered (hr : s.now.rst = false) (hp : s.phase = .resp) (hv : s.now.rspReady = true) :
      StepCase s (.next (deliver (consume s)))
  | nothing (hr : s.now.rst = false) (hn : enabledEvent s.phase s.now = none) : StepCase s (.next (consume s))

theorem step_cases (s : State) : StepCase s (step s) := by
  by_cases hr : s.now.rst = true
  · rw [step_reset hr]; exact .reset hr
  · simp only [Bool.not_eq_true] at hr
    by_cases hn : enabledEvent s.phase s.now = none
    · rw [step_nothing hn]; exact .nothing hr hn
    · cases hp : s.phase with
      | idle =>
        have hv : s.now.cmdValid = true := by simpa [enabledEvent, hr, hp] using hn
        rw [step_accept hr hp hv]
        cases hd : decode s.cfg s.now.cmdWord with
        | ok i => simp only [accept, consume_cfg, hd]; exact .accepted i _ hr hp hv hd rfl
        | error e => simp only [accept, consume_cfg, hd]; exact .illegal e hr hp hv hd
      | issue =>
        have hv : s.now.txReqReady = true := by simpa [enabledEvent, hr, hp] using hn
        rw [step_issue hr hp hv]; exact .issued hr hp hv
      | wait =>
        have hv : s.now.txDone = true := by simpa [enabledEvent, hr, hp] using hn
        rw [step_complete hr hp hv]
        cases ho : s.now.txOk with
        | false => exact .failed hr hp hv ho
        | true =>
          cases hd : decode s.cfg s.cmd with
          | ok i =>
            simp only [complete, if_true, runProgram, receive_cfg, receive_cmd, consume_cfg, consume_cmd, hd]
            exact .continued i _ hr hp hv ho hd rfl
          | error e =>
            simp only [complete, if_true, runProgram, receive_cfg, receive_cmd, consume_cfg, consume_cmd, hd]
            exact .stopped e hr hp hv ho hd
      | resp =>
        have hv : s.now.rspReady = true := by simpa [enabledEvent, hr, hp] using hn
        rw [step_deliver hr hp hv]; exact .delivered hr hp hv

end Sys2Proof.Machine
end

