-- ==== Sys2Proof/Laws/Checks.lean ====
section
/-!
SUPPORT. What the checks at accept answer, by the kind of command (41_sequencer.md R143).
-/

namespace Sys2Proof.Machine

/-- A bind is refused when the PRD is initialised, and for nothing else. -/
theorem checks_bind {i : Instr} {s : State} (h : isBind i = true) :
    firstFailure s (commandChecks i) = if s.init then some .alreadyBound else none := by
  cases i <;> simp only [isBind, Bool.false_eq_true] at h <;> cases hi : s.init <;>
    simp [firstFailure, commandChecks, needUnbound, hi]

/-- Any other command needs the initialisation first, then a valid operand. -/
theorem checks_command {i : Instr} {s : State} (h : isBind i = false) :
    firstFailure s (commandChecks i) =
      if s.init then (if badOperand s.cfg i then some .invalidPin else none) else some .notInitialized := by
  cases hi : s.init
  · cases i <;> simp [isBind] at h <;> simp [firstFailure, commandChecks, needBound, hi]
  · cases i <;> simp [isBind] at h <;>
      simp [firstFailure, commandChecks, needBound, needPin, needPort, hi, badOperand, portValid, pinValid,
        List.findSome?_cons]
    all_goals (split <;> split <;> simp_all)

end Sys2Proof.Machine
end

