-- ==== Sys2Proof/Laws/Decode.lean ====
section
/-!
SUPPORT. The fields of a packed word (30_encoding.md R80), and what masking and comparing packed words means field by field, so
that selecting a row of the opcode map (R84) is a question about fields.
-/

namespace Sys2Proof

/-- Bit `j` of a packed word, field by field (R80). -/
theorem packWord_getLsbD (op sub : BitVec 4) (pin : Byte) (data : BitVec 16) (j : Nat) :
    (packWord op sub pin data).getLsbD j =
      if j < 16 then data.getLsbD j
      else if j < 24 then pin.getLsbD (j - 16)
      else if j < 28 then sub.getLsbD (j - 24)
      else op.getLsbD (j - 28) := by
  show BitVec.getLsbD (w := 4 + 4 + 8 + 16) (op ++ sub ++ pin ++ data) j = _
  rw [BitVec.getLsbD_append, BitVec.getLsbD_append, BitVec.getLsbD_append]
  have e1 : j - 16 - 8 = j - 24 := by omega
  have e2 : j - 24 - 4 = j - 28 := by omega
  have c1 : (j - 16 < 8) ↔ (j < 24) := by omega
  have c2 : (j - 24 < 4) ↔ (j < 28) := by omega
  simp only [e1, e2, c1, c2]

/-- Masking a packed word masks its fields. -/
theorem packWord_and (op mo sub ms : BitVec 4) (pin mp : Byte) (data md : BitVec 16) :
    packWord op sub pin data &&& packWord mo ms mp md = packWord (op &&& mo) (sub &&& ms) (pin &&& mp) (data &&& md) := by
  apply BitVec.eq_of_getLsbD_eq
  intro j _
  simp only [BitVec.getLsbD_and, packWord_getLsbD]
  split
  · rfl
  · split
    · rfl
    · split <;> rfl

theorem opField_packWord (op sub : BitVec 4) (pin : Byte) (data : BitVec 16) : opField (packWord op sub pin data) = op := by
  apply BitVec.eq_of_getLsbD_eq
  intro j hj
  have : ¬ 28 + j < 16 ∧ ¬ 28 + j < 24 ∧ ¬ 28 + j < 28 := by omega
  simp [opField, packWord_getLsbD, this, hj]

theorem pinField_packWord (op sub : BitVec 4) (pin : Byte) (data : BitVec 16) :
    pinField (packWord op sub pin data) = pin := by
  apply BitVec.eq_of_getLsbD_eq
  intro j hj
  have : ¬ 16 + j < 16 ∧ 16 + j < 24 := by omega
  simp [pinField, packWord_getLsbD, this, hj]

theorem wordField_packWord (op sub : BitVec 4) (pin : Byte) (data : BitVec 16) :
    wordField (packWord op sub pin data) = data := by
  apply BitVec.eq_of_getLsbD_eq
  intro j hj
  simp [wordField, packWord_getLsbD, hj]

/-- SUB = `cmd[27:24]` (R80). -/
theorem subField_packWord (op sub : BitVec 4) (pin : Byte) (data : BitVec 16) :
    (packWord op sub pin data).extractLsb' 24 4 = sub := by
  apply BitVec.eq_of_getLsbD_eq
  intro j hj
  have : ¬ 24 + j < 16 ∧ ¬ 24 + j < 24 ∧ 24 + j < 28 := by omega
  simp [packWord_getLsbD, this, hj]

/-- A packed word determines its fields. -/
theorem packWord_inj {op op' sub sub' : BitVec 4} {pin pin' : Byte} {data data' : BitVec 16} :
    packWord op sub pin data = packWord op' sub' pin' data' ↔ op = op' ∧ sub = sub' ∧ pin = pin' ∧ data = data' := by
  constructor
  · intro h
    refine ⟨?_, ?_, ?_, ?_⟩
    · simpa only [opField_packWord] using congrArg opField h
    · simpa only [subField_packWord] using congrArg (BitVec.extractLsb' 24 4) h
    · simpa only [pinField_packWord] using congrArg pinField h
    · simpa only [wordField_packWord] using congrArg wordField h
  · rintro ⟨rfl, rfl, rfl, rfl⟩; rfl

/-- Every word is packed from its fields. -/
theorem packWord_fields (w : CommandWord) :
    packWord (opField w) (w.extractLsb' 24 4) (pinField w) (wordField w) = w := by
  apply BitVec.eq_of_getLsbD_eq
  intro j hj
  rw [packWord_getLsbD]
  split
  · rename_i h; simp [wordField, h]
  · split
    · rename_i h h'; simp [pinField, (by omega : j - 16 < 8), (by omega : 16 + (j - 16) = j)]
    · split
      · simp [(by omega : j - 24 < 4), (by omega : 24 + (j - 24) = j)]
      · simp [opField, (by omega : j - 28 < 4), (by omega : 28 + (j - 28) = j)]

/-- A row whose pattern and mask are packed selects a packed word exactly when each masked field is the pattern's. -/
theorem selects_packWord (o : Opcode) (po ps mo ms op sub : BitVec 4) (pp mp pin : Byte) (pd md data : BitVec 16) :
    (OpcodeRow.mk o (packWord po ps pp pd) (packWord mo ms mp md)).selects (packWord op sub pin data) =
      (op &&& mo == po && (sub &&& ms == ps && (pin &&& mp == pp && data &&& md == pd))) := by
  rw [Bool.eq_iff_iff]
  simp only [OpcodeRow.selects, packWord_and, beq_iff_eq, packWord_inj, Bool.and_eq_true]

/-- The opcode map with its patterns and masks packed. -/
theorem opcodeMap_packed : opcodeMap =
    [ ⟨.bindI2c,                packWord 0x1 0x0 0 0, packWord 0xF 0xF 0xFF 0xFF80⟩,
      ⟨.bindSpi,                packWord 0x2 0x0 0 0, packWord 0xF 0xF 0xFF 0xFFF8⟩,
      ⟨.setPinMode,             packWord 0x3 0x0 0 0, packWord 0xF 0xC 0x00 0xFFFF⟩,
      ⟨.digitalRead,            packWord 0x4 0x0 0 0, packWord 0xF 0xF 0x00 0xFFFF⟩,
      ⟨.digitalWrite,           packWord 0x5 0x0 0 0, packWord 0xF 0xE 0x00 0xFFFF⟩,
      ⟨.readPort,               packWord 0x6 0x0 0 0, packWord 0xF 0xE 0xFF 0xFFFF⟩,
      ⟨.writePort,              packWord 0x7 0x0 0 0, packWord 0xF 0xE 0xFF 0xFF00⟩,
      ⟨.readPorts16,            packWord 0x8 0x0 0 0, packWord 0xF 0xF 0xFF 0xFFFF⟩,
      ⟨.writePorts16,           packWord 0x9 0x0 0 0, packWord 0xF 0xF 0xFF 0x0000⟩,
      ⟨.configureInterrupts,    packWord 0xA 0x0 0 0, packWord 0xF 0x8 0xFF 0xFFFF⟩,
      ⟨.enablePinInterrupt,     packWord 0xB 0x0 0 0, packWord 0xF 0xC 0x00 0xFFFF⟩,
      ⟨.disablePinInterrupt,    packWord 0xC 0x0 0 0, packWord 0xF 0xF 0x00 0xFFFF⟩,
      ⟨.lastInterruptPin,       packWord 0xD 0x0 0 0, packWord 0xF 0xF 0xFF 0xFFFF⟩,
      ⟨.clearInterrupts,        packWord 0xE 0x0 0 0, packWord 0xF 0xF 0xFF 0xFFFF⟩,
      ⟨.capturedInterruptState, packWord 0xE 0x1 0 0, packWord 0xF 0xF 0xFF 0xFFFF⟩,
      ⟨.enableHwAddressPins,    packWord 0xF 0x0 0 0, packWord 0xF 0xF 0xFF 0xFFFF⟩ ] := by
  decide

end Sys2Proof
end

