-- ==== Sys2Proof/Laws/Memory.lean ====
section
/-!
SUPPORT. The laws of the test double's memory: read after write, and that every operation on it keeps the canonical form.
-/

namespace Sys2Proof.Machine

theorem Memory.read_of_lt {lo : Nat} {m : Memory} (h : Memory.wfFrom lo m = true) {a : Nat} (ha : a < lo) :
    Memory.read m a = 0 := by
  induction m generalizing lo with
  | nil => rfl
  | cons cell rest ih =>
    obtain ⟨b, v⟩ := cell
    simp only [Memory.wfFrom, Bool.and_eq_true, decide_eq_true_eq] at h
    have hne : b ≠ a := by omega
    simp only [Memory.read, hne, if_false]
    exact ih h.2 (by omega)

theorem Memory.read_cons {lo : Nat} {rest : Memory} {a : Nat} (h : Memory.wfFrom (a + 1) rest = true) (_ : lo ≤ a)
    (v : Byte) (x : Nat) : Memory.read (Memory.cons a v rest) x = if x = a then v else Memory.read rest x := by
  unfold Memory.cons
  by_cases hx : x = a
  · subst hx
    split
    · rename_i hv
      simp [hv, Memory.read_of_lt h (Nat.lt_succ_self _)]
    · simp [Memory.read]
  · have hx' : a ≠ x := fun e => hx e.symm
    split <;> simp [Memory.read, hx']


theorem Memory.wfFrom_mono {lo lo' : Nat} {m : Memory} (h : Memory.wfFrom lo m = true) (hl : lo' ≤ lo) :
    Memory.wfFrom lo' m = true := by
  cases m with
  | nil => rfl
  | cons cell rest =>
    obtain ⟨b, v⟩ := cell
    simp only [Memory.wfFrom, Bool.and_eq_true, decide_eq_true_eq] at h ⊢
    exact ⟨⟨by omega, h.1.2⟩, h.2⟩

theorem Memory.wfFrom_cons {lo a : Nat} {rest : Memory} (h : Memory.wfFrom (a + 1) rest = true) (hl : lo ≤ a) (v : Byte) :
    Memory.wfFrom lo (Memory.cons a v rest) = true := by
  unfold Memory.cons
  split
  · exact Memory.wfFrom_mono h (by omega)
  · rename_i hv
    have hv' : ¬v = 0#8 := hv
    simp [Memory.wfFrom, h, hl, hv']

theorem Memory.wfFrom_write {lo a : Nat} {m : Memory} (h : Memory.wfFrom lo m = true) (hl : lo ≤ a) (v : Byte) :
    Memory.wfFrom lo (Memory.write m a v) = true := by
  induction m generalizing lo with
  | nil => exact Memory.wfFrom_cons rfl hl v
  | cons cell rest ih =>
    obtain ⟨b, x⟩ := cell
    have h' := h
    simp only [Memory.wfFrom, Bool.and_eq_true, decide_eq_true_eq] at h
    unfold Memory.write
    split
    · rename_i hab
      refine Memory.wfFrom_cons ?_ hl v
      simp only [Memory.wfFrom, Bool.and_eq_true, decide_eq_true_eq]
      exact ⟨⟨by omega, h.1.2⟩, h.2⟩
    · split
      · rename_i hab hab'
        subst hab'
        exact Memory.wfFrom_cons h.2 hl v
      · simp only [Memory.wfFrom, Bool.and_eq_true, decide_eq_true_eq]
        exact ⟨h.1, ih h.2 (by omega)⟩

/-- A write keeps the canonical form. -/
theorem Memory.wf_write {m : Memory} (h : m.wf = true) (a : Nat) (v : Byte) : (m.write a v).wf = true :=
  Memory.wfFrom_write h (Nat.zero_le a) v

theorem Memory.read_write_from {lo a : Nat} {m : Memory} (h : Memory.wfFrom lo m = true) (hl : lo ≤ a) (v : Byte) (x : Nat) :
    Memory.read (Memory.write m a v) x = if x = a then v else Memory.read m x := by
  induction m generalizing lo with
  | nil => exact Memory.read_cons (lo := lo) rfl hl v x
  | cons cell rest ih =>
    obtain ⟨b, y⟩ := cell
    have h' := h
    simp only [Memory.wfFrom, Bool.and_eq_true, decide_eq_true_eq] at h
    unfold Memory.write
    split
    · rename_i hab
      refine Memory.read_cons (lo := lo) ?_ hl v x
      simp only [Memory.wfFrom, Bool.and_eq_true, decide_eq_true_eq]
      exact ⟨⟨by omega, h.1.2⟩, h.2⟩
    · split
      · rename_i hab hab'
        subst hab'
        rw [Memory.read_cons (lo := lo) h.2 hl v x]
        by_cases hx : x = a
        · simp [hx]
        · have hx' : a ≠ x := fun e => hx e.symm
          simp [hx, hx', Memory.read]
      · rename_i hab hab'
        simp only [Memory.read]
        by_cases hb : b = x
        · subst hb
          have : b ≠ a := fun e => hab' e.symm
          simp [this]
        · simp [hb, ih h.2 (by omega)]

/-- Reading after a write: the written value at its address, every other address as before. -/
theorem Memory.read_write {m : Memory} (h : m.wf = true) (a : Nat) (v : Byte) (x : Nat) :
    (m.write a v).read x = if x = a then v else m.read x :=
  Memory.read_write_from h (Nat.zero_le a) v x

/-- A store of the double keeps the canonical form. -/
theorem rfStore_wf {m : Memory} (h : m.wf = true) (a : Nat) (v : Byte) : (rfStore m a v).wf = true := by
  unfold rfStore
  split
  · exact Memory.wf_write h a v
  · exact h

/-- A store within `T[0x00..0x1F]` is a write. -/
theorem rfStore_read {m : Memory} (h : m.wf = true) {a : Nat} (ha : a < 0x20) (v : Byte) (x : Nat) :
    (rfStore m a v).read x = if x = a then v else m.read x := by
  unfold rfStore
  rw [if_pos ha]
  exact Memory.read_write h a v x

/-- Serving a request keeps the canonical form. -/
theorem rfMemory_wf {m : Memory} (h : m.wf = true) (r : Request) : (rfMemory m r).wf = true := by
  unfold rfMemory
  cases r.kind with
  | write =>
    simp only
    split <;> split <;> simp [rfStore_wf, h]
  | begin => exact h
  | writeRead => exact h

end Sys2Proof.Machine
end

