-- ==== Sys2Proof/Laws/PerInstr.lean ====
section
/-!
SUPPORT. Statements made per instruction. `RowOfEncoding`: the word the encoder writes from the field formats (R81) selects, in
the opcode map of masks and patterns (R84), the row of its own instruction.
-/

namespace Sys2Proof

/-- The row of R84 an instruction belongs to. -/
def rowOf : Instr → Opcode
  | .bindI2c _ => .bindI2c
  | .bindSpi _ => .bindSpi
  | .setPinMode _ _ => .setPinMode
  | .digitalRead _ => .digitalRead
  | .digitalWrite _ _ => .digitalWrite
  | .readPort _ => .readPort
  | .writePort _ _ => .writePort
  | .readPorts16 => .readPorts16
  | .writePorts16 _ => .writePorts16
  | .configureInterrupts _ _ _ => .configureInterrupts
  | .enablePinInterrupt _ _ => .enablePinInterrupt
  | .disablePinInterrupt _ => .disablePinInterrupt
  | .lastInterruptPin => .lastInterruptPin
  | .clearInterrupts => .clearInterrupts
  | .capturedInterruptState => .capturedInterruptState
  | .enableHwAddressPins => .enableHwAddressPins

/-- Selecting a row for a packed word. -/
theorem selectRow_packWord (op sub : BitVec 4) (pin : Byte) (data : BitVec 16) :
    selectRow (packWord op sub pin data) = opcodeMap.find? (·.selects (packWord op sub pin data)) := rfl

/-- An ADDR7 leaves the reserved bits of BIND_I2C 0. -/
theorem addr7_mask (a : DeviceAddr) : a.setWidth 16 &&& 0xFF80#16 = 0 := by
  ext j hj; simp; interval_cases j <;> simp

/-- An HWA leaves the reserved bits of BIND_SPI 0. -/
theorem hwa_mask (h : HwAddr) : h.setWidth 16 &&& 0xFFF8#16 = 0 := by
  ext j hj; simp; interval_cases j <;> simp

/-- A BYTE leaves the reserved bits of WRITE_PORT 0. -/
theorem byte_mask (b : Byte) : b.setWidth 16 &&& 0xFF00#16 = 0 := by
  ext j hj; simp; interval_cases j <;> simp

end Sys2Proof

namespace Sys2Proof.Laws.RowOfEncoding

/-- The encoded word selects the instruction's own row. -/
def Statement (i : Instr) : Prop := (selectRow (encode i)).map (·.op) = some (rowOf i)

theorem bindI2c (a : DeviceAddr) : Statement (.bindI2c a) := by
  simp [Statement, encode, rowOf, selectRow_packWord, opcodeMap_packed, selects_packWord, addr7_mask]

theorem bindSpi (h : HwAddr) : Statement (.bindSpi h) := by
  simp [Statement, encode, rowOf, selectRow_packWord, opcodeMap_packed, selects_packWord, hwa_mask]

theorem setPinMode (p : Byte) (m : PinMode) : Statement (.setPinMode p m) := by
  cases m <;> simp [Statement, encode, rowOf, PinMode.code, selectRow_packWord, opcodeMap_packed, selects_packWord]

theorem digitalRead (p : Byte) : Statement (.digitalRead p) := by
  simp [Statement, encode, rowOf, selectRow_packWord, opcodeMap_packed, selects_packWord]

theorem digitalWrite (p : Byte) (v : Bool) : Statement (.digitalWrite p v) := by
  cases v <;> simp [Statement, encode, rowOf, flagAt, selectRow_packWord, opcodeMap_packed, selects_packWord]

theorem readPort (q : Port) : Statement (.readPort q) := by
  cases q <;> simp [Statement, encode, rowOf, Port.code, selectRow_packWord, opcodeMap_packed, selects_packWord]

theorem writePort (q : Port) (b : Byte) : Statement (.writePort q b) := by
  cases q <;>
    simp [Statement, encode, rowOf, Port.code, selectRow_packWord, opcodeMap_packed, selects_packWord, byte_mask]

theorem readPorts16 : Statement .readPorts16 := by unfold Statement; decide

theorem writePorts16 (w : PortWord) : Statement (.writePorts16 w) := by
  simp [Statement, encode, rowOf, selectRow_packWord, opcodeMap_packed, selects_packWord]

theorem configureInterrupts (x o t : Bool) : Statement (.configureInterrupts x o t) := by
  cases x <;> cases o <;> cases t <;> (unfold Statement; decide)

theorem enablePinInterrupt (p : Byte) (g : Trigger) : Statement (.enablePinInterrupt p g) := by
  cases g <;> simp [Statement, encode, rowOf, Trigger.code, selectRow_packWord, opcodeMap_packed, selects_packWord]

theorem disablePinInterrupt (p : Byte) : Statement (.disablePinInterrupt p) := by
  simp [Statement, encode, rowOf, selectRow_packWord, opcodeMap_packed, selects_packWord]

theorem lastInterruptPin : Statement .lastInterruptPin := by unfold Statement; decide

theorem clearInterrupts : Statement .clearInterrupts := by unfold Statement; decide

theorem capturedInterruptState : Statement .capturedInterruptState := by unfold Statement; decide

theorem enableHwAddressPins : Statement .enableHwAddressPins := by unfold Statement; decide

end Sys2Proof.Laws.RowOfEncoding
end

