-- ==== Sys2Proof/Laws/Requests.lean ====
section
/-!
SUPPORT. What the requests of the primitives touch, and which of them a command's meaning can present: the claims about emitted
addresses cite `exec_presents` and do not unfold the meanings.
-/

namespace Sys2Proof.Machine

/-! The bytes of a request after its header (R55 to R58). -/

theorem requestAddress_write (s : State) (f : HwAddr) (a : RegAddr) (n : Width) (v : BitVec 16) :
    requestAddress (writeRequest s f a n v) = a.toNat := by
  cases hb : s.bus <;> cases n <;>
    simp only [requestAddress, wireByte, headerLength, writeRequest, hb, addressBytes, dataBytes, List.cons_append,
      List.nil_append, packBytes] <;>
    congr 1 <;> apply BitVec.eq_of_getLsbD_eq <;> intro j hj <;> interval_cases j <;> simp

theorem requestAddress_read (s : State) (f : HwAddr) (a : RegAddr) (n : Width) :
    requestAddress (readRequest s f a n) = a.toNat := by
  cases hb : s.bus <;> cases n <;>
    simp only [requestAddress, wireByte, headerLength, readRequest, hb, addressBytes, packBytes] <;>
    congr 1 <;> apply BitVec.eq_of_getLsbD_eq <;> intro j hj <;> interval_cases j <;> simp

theorem touched_write (s : State) (f : HwAddr) (a : RegAddr) (n : Width) (v : BitVec 16) :
    touched (writeRequest s f a n v) = (List.range n.bytes).map (a.toNat + ·) := by
  have h := requestAddress_write s f a n v
  cases hb : s.bus <;> cases n <;> simp [touched, h] <;>
    simp [writeRequest, headerLength, hb, addressBytes, dataBytes, Width.bytes]

theorem touched_read (s : State) (f : HwAddr) (a : RegAddr) (n : Width) :
    touched (readRequest s f a n) = (List.range n.bytes).map (a.toNat + ·) := by
  have h := requestAddress_read s f a n
  cases hb : s.bus <;> cases n <;> simp [touched, h] <;> simp [readRequest, hb, addressBytes, Width.bytes]

/-- The first byte of an SPI request is its opcode (R57, R58). -/
theorem opcode_write {s : State} (f : HwAddr) (a : RegAddr) (n : Width) (v : BitVec 16) (h : s.bus = .spi) :
    (writeRequest s f a n v).wbytes.extractLsb' 0 8 = spiOpcode s.cfg false f := by
  simp only [writeRequest, addressBytes, h, List.cons_append, packBytes]
  apply BitVec.eq_of_getLsbD_eq
  intro j hj
  interval_cases j <;> simp

theorem opcode_read {s : State} (f : HwAddr) (a : RegAddr) (n : Width) (h : s.bus = .spi) :
    (readRequest s f a n).wbytes.extractLsb' 0 8 = spiOpcode s.cfg true f := by
  simp only [readRequest, addressBytes, h, packBytes]
  apply BitVec.eq_of_getLsbD_eq
  intro j hj
  interval_cases j <;> simp

/-- The accesses a command makes: which register, of which port, in which width. -/
inductive Access (i : Instr) (c : Config) : RegAddr → Width → Prop where
  | byte (reg : LogicalReg) (port : Port)
      (h : reg = .iodir ∨ reg = .gpinten ∨ reg = .defval ∨ reg = .intcon ∨ reg = .gppu ∨ reg = .gpio ∨ reg = portWriteReg c) :
      Access i c (resolve c reg port) .one
  | iocon : Access i c (resolve c .iocon .A) .one
  | intfA : i = .lastInterruptPin → Access i c (resolve c .intf .A) .one
  | intfB : i = .lastInterruptPin → c.pinCount = .sixteen → Access i c (resolve c .intf .B) .one
  | intcap : Access i c (resolve c .intcap .A) (intcapWidth c)
  | pair (reg : LogicalReg) (h : reg = .gpio ∨ reg = portWriteReg c) (hc : c.pinCount = .sixteen) :
      Access i c (resolve c reg .A) .two

/-- The requests a command's meaning can present. -/
inductive Presents (i : Instr) (s : State) : Request → Prop where
  | beginI2c (a : DeviceAddr) (hi : i = .bindI2c a) : Presents i s (beginI2c a)
  | beginSpi (h : HwAddr) (hi : i = .bindSpi h) : Presents i s (beginSpi h)
  | read (a : RegAddr) (n : Width) (h : Access i s.cfg a n) : Presents i s (readRequest s (hwf s) a n)
  | write (f : HwAddr) (a : RegAddr) (n : Width) (v : BitVec 16) (h : Access i s.cfg a n)
      (hf : i ≠ .enableHwAddressPins → f = hwf s) :
      Presents i s (writeRequest s f a n v)

/-- An answer that, if it presents a request, presents one of those. -/
def PresentsOnly (i : Instr) (s : State) (o : Result) : Prop := ∀ t, o = .next t → t.phase = .issue → Presents i s t.req

theorem presentsOnly_present {i : Instr} {s : State} {r : Request} (h : Presents i s r) :
    PresentsOnly i s (.next (present r s)) := by
  intro t ht _
  injection ht with ht
  subst ht
  exact h

theorem presentsOnly_end {i : Instr} {s u : State} {r : Response} : PresentsOnly i s (.next (endWith r u)) := by
  intro t ht hp
  injection ht with ht
  subst ht
  cases hp

theorem presentsOnly_rmw {i : Instr} {s : State} {reg : LogicalReg} {port : Port} {b : BitIndex} {d : Bool}
    (h : reg = .iodir ∨ reg = .gpinten ∨ reg = .defval ∨ reg = .intcon ∨ reg = .gppu ∨ reg = .gpio ∨
      reg = portWriteReg s.cfg) :
    ∀ f ∈ rmw (resolve s.cfg reg port) b d, PresentsOnly i s (f s) := by
  intro f hf
  simp only [rmw, List.mem_cons, List.not_mem_nil, or_false] at hf
  rcases hf with rfl | rfl
  · exact presentsOnly_present (.read _ _ (.byte reg port h))
  · exact presentsOnly_present (.write _ _ _ _ (.byte reg port h) (fun _ => rfl))

theorem presentsOnly_append {i : Instr} {s : State} {xs ys : List (State → Result)}
    (hx : ∀ f ∈ xs, PresentsOnly i s (f s)) (hy : ∀ f ∈ ys, PresentsOnly i s (f s)) :
    ∀ f ∈ xs ++ ys, PresentsOnly i s (f s) := by
  intro f hf
  rcases List.mem_append.mp hf with h | h
  · exact hx f h
  · exact hy f h

theorem presentsOnly_checked {i : Instr} {s : State} {checks : List (State → Option Status)} {program : State → Result}
    (hp : (s.k = 0 → firstFailure s checks = none) → PresentsOnly i s (program s)) :
    PresentsOnly i s (checked checks program s) :=
  checked_cases (fun _ _ _ => presentsOnly_end) hp

/-- A program of one primitive stands at it only when the command was just accepted. -/
theorem presentsOnly_single {i : Instr} {s : State} {f finish : State → Result} (hf : s.k = 0 → PresentsOnly i s (f s))
    (he : PresentsOnly i s (finish s)) : PresentsOnly i s (runSequence [f] finish s) := by
  by_cases hk : s.k = 0
  · rw [runSequence_index hk]; exact hf hk
  · have h1 : s.k.toNat ≠ 0 := fun e => hk (BitVec.eq_of_toNat_eq e)
    rw [runSequence_end (by simp only [List.length_cons, List.length_nil]; omega)]
    exact he

/-- The check that the variant has a port B is passed on the 16-pin variant only (R200). -/
theorem sixteen_of_needPort {s : State} (h : firstFailure s [needBound, needPort .B] = none) : s.cfg.pinCount = .sixteen := by
  cases hc : s.cfg.pinCount with
  | sixteen => rfl
  | eight => cases hi : s.init <;> simp [firstFailure, needBound, needPort, portValid, hi, hc] at h

/-- Every request a command's meaning presents. -/
theorem exec_presents {i : Instr} {s t : State} (he : exec i s = .next t) (hp : t.phase = .issue) : Presents i s t.req := by
  revert t
  suffices h : PresentsOnly i s (exec i s) by
    intro t he hp
    exact h t he hp
  cases i with
  | bindI2c a =>
    exact presentsOnly_checked fun _ => presentsOnly_single (fun _ => presentsOnly_present (.beginI2c a rfl)) presentsOnly_end
  | bindSpi h =>
    exact presentsOnly_checked fun _ => presentsOnly_single (fun _ => presentsOnly_present (.beginSpi h rfl)) presentsOnly_end
  | setPinMode pin mode =>
    exact presentsOnly_checked fun _ => runSequence_cases (P := PresentsOnly _ s)
      (presentsOnly_append (presentsOnly_rmw (by simp)) (presentsOnly_rmw (by simp))) (fun _ => presentsOnly_end)
  | digitalRead pin =>
    exact presentsOnly_checked fun _ =>
      presentsOnly_single (fun _ => presentsOnly_present (.read _ _ (.byte _ _ (by simp)))) presentsOnly_end
  | digitalWrite pin value =>
    exact presentsOnly_checked fun _ => runSequence_cases (P := PresentsOnly _ s) (presentsOnly_rmw (by simp))
      (fun _ => presentsOnly_end)
  | readPort port =>
    exact presentsOnly_checked fun _ =>
      presentsOnly_single (fun _ => presentsOnly_present (.read _ _ (.byte _ _ (by simp)))) presentsOnly_end
  | writePort port byte =>
    exact presentsOnly_checked fun _ =>
      presentsOnly_single (fun _ => presentsOnly_present (.write _ _ _ _ (.byte _ _ (by simp)) (fun _ => rfl))) presentsOnly_end
  | readPorts16 =>
    exact presentsOnly_checked fun hc => presentsOnly_single
      (fun hk => presentsOnly_present (.read _ _ (.pair _ (by simp) (sixteen_of_needPort (hc hk))))) presentsOnly_end
  | writePorts16 word =>
    exact presentsOnly_checked fun hc => presentsOnly_single
      (fun hk => presentsOnly_present (.write _ _ _ _ (.pair _ (by simp) (sixteen_of_needPort (hc hk))) (fun _ => rfl))) presentsOnly_end
  | configureInterrupts mir odr ah =>
    refine presentsOnly_checked fun _ => runSequence_cases (P := PresentsOnly _ s) ?_ (fun _ => presentsOnly_end)
    intro f hf
    simp only [List.mem_cons, List.not_mem_nil, or_false] at hf
    rcases hf with rfl | rfl
    · exact presentsOnly_present (.read _ _ .iocon)
    · exact presentsOnly_present (.write _ _ _ _ .iocon (fun _ => rfl))
  | enablePinInterrupt pin trig =>
    refine presentsOnly_checked fun _ => runSequence_cases (P := PresentsOnly _ s)
      (presentsOnly_append ?_ (presentsOnly_rmw (by simp))) (fun _ => presentsOnly_end)
    cases trig
    · exact presentsOnly_rmw (by simp)
    · exact presentsOnly_append (presentsOnly_rmw (by simp)) (presentsOnly_rmw (by simp))
    · exact presentsOnly_append (presentsOnly_rmw (by simp)) (presentsOnly_rmw (by simp))
  | disablePinInterrupt pin =>
    exact presentsOnly_checked fun _ => runSequence_cases (P := PresentsOnly _ s) (presentsOnly_rmw (by simp))
      (fun _ => presentsOnly_end)
  | lastInterruptPin =>
    refine presentsOnly_checked fun _ => runSequence_cases (P := PresentsOnly _ s) ?_ ?_
    · intro f hf
      simp only [List.mem_cons, List.not_mem_nil, or_false] at hf
      rcases hf with rfl | rfl
      · exact presentsOnly_present (.read _ _ (.intfA rfl))
      · dsimp only
        split
        · exact presentsOnly_end
        · split
          · exact presentsOnly_present (.read _ _ (.intfB rfl (by assumption)))
          · exact presentsOnly_end
    · intro _
      split <;> exact presentsOnly_end
  | clearInterrupts =>
    exact presentsOnly_checked fun _ =>
      presentsOnly_single (fun _ => presentsOnly_present (.read _ _ .intcap)) presentsOnly_end
  | capturedInterruptState =>
    exact presentsOnly_checked fun _ =>
      presentsOnly_single (fun _ => presentsOnly_present (.read _ _ .intcap)) presentsOnly_end
  | enableHwAddressPins =>
    unfold exec execEnableHwAddressPins
    refine presentsOnly_checked fun _ => ?_
    cases hb : s.bus with
    | i2c => exact presentsOnly_end
    | spi =>
      refine runSequence_cases (P := PresentsOnly _ s) ?_ (fun _ => presentsOnly_end)
      intro f hf
      unfold haenWrites at hf
      cases hc : s.cfg.pinCount with
      | eight =>
        simp only [hc, List.mem_singleton] at hf
        subst hf
        exact presentsOnly_present (.write _ _ _ _ .iocon (fun h => absurd rfl h))
      | sixteen =>
        simp only [hc, List.mem_cons, List.not_mem_nil, or_false] at hf
        rcases hf with rfl | rfl <;> exact presentsOnly_present (.write _ _ _ _ .iocon (fun h => absurd rfl h))

/-! A command presents a request only below its transaction count (R35). -/

theorem endWith_ne_present {s u : State} {r : Response} {q : Request} :
    (Host.Outcome.next (endWith r u) : Result) ≠ .next (present q s) := by
  intro h
  injection h with h
  have := congrArg State.phase h
  cases this

theorem runSequence_presents {s : State} {prims : List (State → Result)} {finish : State → Result} {r : Request}
    (h : runSequence prims finish s = .next (present r s)) (hf : finish s ≠ .next (present r s)) :
    s.k.toNat < prims.length := by
  by_contra hk
  rw [runSequence_end (by omega)] at h
  exact hf h

theorem checked_presents {s : State} {checks : List (State → Option Status)} {program : State → Result} {r : Request}
    (h : checked checks program s = .next (present r s)) : program s = .next (present r s) := by
  revert h
  exact checked_cases (P := fun o => o = .next (present r s) → program s = .next (present r s))
    (fun _ _ _ h => absurd h endWith_ne_present) (fun _ h => h)

end Sys2Proof.Machine
end

