-- ==== Sys2Proof/Laws/Run.lean ====
section
/-!
SUPPORT. Runs of the machine, one step at a time.
-/

namespace Sys2Proof.Machine

@[simp] theorem run_zero (s : State) : run 0 s = .next s := rfl

/-- A run goes on from the state its first step answers. -/
theorem run_step {n : Nat} {s t : State} (h : step s = .next t) : run (n + 1) s = run n t := by
  have h' : Sys2Proof.core.step s = .next t := h
  simp only [run, Host.Core.run, h']
  rfl

/-- A run of `m + n` steps is a run of `n` steps from where `m` steps end. -/
theorem run_add {m n : Nat} {s t : State} (h : run m s = .next t) : run (m + n) s = run n t := by
  induction m generalizing s with
  | zero =>
    rw [run_zero] at h
    injection h with h
    rw [Nat.zero_add, h]
  | succ m ih =>
    cases hs : step s with
    | next u =>
      rw [run_step hs] at h
      rw [Nat.add_right_comm, run_step hs, ih h]
    | fault r =>
      exfalso
      have hs' : Sys2Proof.core.step s = .fault r := hs
      simp only [run, Host.Core.run, hs'] at h
      cases h
    | refused r =>
      exfalso
      have hs' : Sys2Proof.core.step s = .refused r := hs
      simp only [run, Host.Core.run, hs'] at h
      cases h

theorem issuedRequests_step {n : Nat} {s t : State} (h : step s = .next t) :
    issuedRequests (n + 1) s =
      (if enabledEvent s.phase s.now = some .issue then [s.req] else []) ++ issuedRequests n t := by
  simp only [issuedRequests, h]

end Sys2Proof.Machine
end

