-- ==== Sys2Proof/Laws/Same.lean ====
section
/-!
SUPPORT. A command's meaning looks at the parameters, the initialisation and binding, `S.k` and `S.rd`, and at nothing else of
the state: from two states that agree on these it does the same thing to each.
-/

namespace Sys2Proof.Machine

/-- The fields a command's meaning looks at. -/
structure SameView (s t : State) : Prop where
  cfg     : s.cfg = t.cfg
  init    : s.init = t.init
  bus     : s.bus = t.bus
  i2cAddr : s.i2cAddr = t.i2cAddr
  hwAddr  : s.hwAddr = t.hwAddr
  haenOn  : s.haenOn = t.haenOn
  k       : s.k = t.k
  rd      : s.rd = t.rd

/-- The same effect on two states. -/
inductive SameAnswer (s t : State) : Result → Result → Prop where
  | presents (r : Request) : SameAnswer s t (.next (present r s)) (.next (present r t))
  | ends (r : Response) : SameAnswer s t (.next (endWith r s)) (.next (endWith r t))
  | binds (r : Response) (b : Bus) (a : DeviceAddr) (h : HwAddr) :
      SameAnswer s t (.next (endWith r (bindTo b a h s))) (.next (endWith r (bindTo b a h t)))
  | enables (r : Response) : SameAnswer s t (.next (endWith r (setHaen s))) (.next (endWith r (setHaen t)))

theorem checked_same {P : Result → Result → Prop} {checks : List (State → Option Status)} {p q : State → Result} {s t : State}
    (hk : s.k = t.k) (hf : firstFailure s checks = firstFailure t checks) (hr : ∀ st, P (raise st 0 s) (raise st 0 t))
    (hp : P (p s) (q t)) : P (checked checks p s) (checked checks q t) := by
  by_cases h : s.k = 0
  · cases hs : firstFailure s checks with
    | none => rw [checked_pass hs, checked_pass (hf ▸ hs)]; exact hp
    | some st => rw [checked_fail h hs, checked_fail (hk ▸ h) (hf ▸ hs)]; exact hr st
  · rw [checked_later h, checked_later (hk ▸ h)]; exact hp

theorem runSequence_same {P : Result → Result → Prop} {prims : List (State → Result)} {finish : State → Result} {s t : State}
    (hk : s.k = t.k) (hp : ∀ f ∈ prims, P (f s) (f t)) (he : P (finish s) (finish t)) :
    P (runSequence prims finish s) (runSequence prims finish t) := by
  by_cases h : s.k.toNat < prims.length
  · rw [runSequence_at h, runSequence_at (hk ▸ h)]
    have e : prims[t.k.toNat]'(hk ▸ h) = prims[s.k.toNat] := by simp only [hk]
    rw [e]
    exact hp _ (List.getElem_mem h)
  · rw [runSequence_end (by omega), runSequence_end (by rw [← hk]; omega)]
    exact he

theorem rmw_same {s t : State} (hv : SameView s t) {a : RegAddr} {b : BitIndex} {d : Bool} :
    ∀ f ∈ rmw a b d, SameAnswer s t (f s) (f t) := by
  cases s; cases t
  obtain ⟨rfl, rfl, rfl, rfl, rfl, rfl, rfl, rfl⟩ := hv
  intro f hf
  simp only [rmw, List.mem_cons, List.not_mem_nil, or_false] at hf
  rcases hf with rfl | rfl <;> exact .presents _

theorem append_same {s t : State} {xs ys : List (State → Result)} (hx : ∀ f ∈ xs, SameAnswer s t (f s) (f t))
    (hy : ∀ f ∈ ys, SameAnswer s t (f s) (f t)) : ∀ f ∈ xs ++ ys, SameAnswer s t (f s) (f t) := by
  intro f hf
  rcases List.mem_append.mp hf with h | h
  · exact hx f h
  · exact hy f h

theorem one_same {s t : State} {f : State → Result} (h : SameAnswer s t (f s) (f t)) :
    ∀ g ∈ [f], SameAnswer s t (g s) (g t) := by
  intro g hg
  simp only [List.mem_singleton] at hg
  subst hg
  exact h

theorem ite_same {P : Result → Result → Prop} {q : Prop} [Decidable q] {a b d e : Result} (ha : P a d) (hb : P b e) :
    P (if q then a else b) (if q then d else e) := by
  by_cases h : q
  · rw [if_pos h, if_pos h]; exact ha
  · rw [if_neg h, if_neg h]; exact hb

/-- A command's meaning looks at nothing but the view. -/
theorem exec_same (i : Instr) {s t : State} (hv : SameView s t) : SameAnswer s t (exec i s) (exec i t) := by
  cases s; cases t
  have hv' := hv
  obtain ⟨rfl, rfl, rfl, rfl, rfl, rfl, rfl, rfl⟩ := hv
  cases i with
  | bindI2c a =>
    exact checked_same rfl rfl (fun _ => .ends _) (runSequence_same rfl (one_same (.presents _)) (.binds _ _ _ _))
  | bindSpi h =>
    exact checked_same rfl rfl (fun _ => .ends _) (runSequence_same rfl (one_same (.presents _)) (.binds _ _ _ _))
  | setPinMode pin mode =>
    exact checked_same rfl rfl (fun _ => .ends _)
      (runSequence_same rfl (append_same (rmw_same hv') (rmw_same hv')) (.ends _))
  | digitalRead pin =>
    exact checked_same rfl rfl (fun _ => .ends _) (runSequence_same rfl (one_same (.presents _)) (.ends _))
  | digitalWrite pin value =>
    exact checked_same rfl rfl (fun _ => .ends _) (runSequence_same rfl (rmw_same hv') (.ends _))
  | readPort port =>
    exact checked_same rfl rfl (fun _ => .ends _) (runSequence_same rfl (one_same (.presents _)) (.ends _))
  | writePort port byte =>
    exact checked_same rfl rfl (fun _ => .ends _) (runSequence_same rfl (one_same (.presents _)) (.ends _))
  | readPorts16 =>
    exact checked_same rfl rfl (fun _ => .ends _) (runSequence_same rfl (one_same (.presents _)) (.ends _))
  | writePorts16 word =>
    exact checked_same rfl rfl (fun _ => .ends _) (runSequence_same rfl (one_same (.presents _)) (.ends _))
  | configureInterrupts mir odr ah =>
    refine checked_same rfl rfl (fun _ => .ends _) (runSequence_same rfl ?_ (.ends _))
    intro f hf
    simp only [List.mem_cons, List.not_mem_nil, or_false] at hf
    rcases hf with rfl | rfl <;> exact .presents _
  | enablePinInterrupt pin trig =>
    refine checked_same rfl rfl (fun _ => .ends _) (runSequence_same rfl (append_same ?_ (rmw_same hv')) (.ends _))
    cases trig
    · exact rmw_same hv'
    · exact append_same (rmw_same hv') (rmw_same hv')
    · exact append_same (rmw_same hv') (rmw_same hv')
  | disablePinInterrupt pin =>
    exact checked_same rfl rfl (fun _ => .ends _) (runSequence_same rfl (rmw_same hv') (.ends _))
  | lastInterruptPin =>
    refine checked_same rfl rfl (fun _ => .ends _) (runSequence_same rfl ?_ (ite_same (.ends _) (.ends _)))
    intro f hf
    simp only [List.mem_cons, List.not_mem_nil, or_false] at hf
    rcases hf with rfl | rfl
    · exact .presents _
    · exact ite_same (.ends _) (ite_same (.presents _) (.ends _))
  | clearInterrupts =>
    exact checked_same rfl rfl (fun _ => .ends _) (runSequence_same rfl (one_same (.presents _)) (.ends _))
  | capturedInterruptState =>
    exact checked_same rfl rfl (fun _ => .ends _) (runSequence_same rfl (one_same (.presents _)) (.ends _))
  | enableHwAddressPins =>
    unfold exec execEnableHwAddressPins
    refine checked_same rfl rfl (fun _ => .ends _) ?_
    dsimp only
    split
    · exact .ends _
    · refine runSequence_same rfl ?_ (.enables _)
      intro f hf
      simp only [haenWrites] at hf
      split at hf <;> simp only [List.mem_cons, List.not_mem_nil, or_false] at hf <;> rcases hf with rfl | rfl <;>
        exact .presents _

end Sys2Proof.Machine
end

