-- ==== Sys2Proof/Tests/Slice0.lean ====
section
/-!
SUPPORT. This row's own tests. Words are written out bit by bit from the patterns of 30_encoding.md R84; expected results are those of
95_test_vectors.md and of the examples in the command rules. At the end, for each statement with hypotheses, a named witness that
meets them.
-/

namespace Sys2Proof.Tests.Slice0

open Sys2Proof.Machine

/-! ## Small states -/

/-- The setup "16/I2C 0x20" of 95_test_vectors.md. -/
def onI2c : State := { State.resetWith (Config.withPins .sixteen) with init := true, i2cAddr := 0x20 }

/-- The setup "16/SPI hw 2, haen_on 0". -/
def onSpi : State := { State.resetWith (Config.withPins .sixteen) with init := true, bus := .spi, hwAddr := 2 }

/-- The setup "8/I2C 0x20". -/
def onEight : State := { State.resetWith (Config.withPins .eight) with init := true, i2cAddr := 0x20 }

/-- The setup "16/I2C 0x20, OLAT". -/
def withOlat : State := { onI2c with cfg := { Config.withPins .sixteen with portWriteReg := .olat } }

/-- The setup "8/SPI hw 3, haen_on 0". -/
def onSpiEight : State := { State.resetWith (Config.withPins .eight) with init := true, bus := .spi, hwAddr := 3 }

/-- The host presents `w`. -/
def presenting (s : State) (w : CommandWord) : State := { s with inputs := [Inputs.command w] }

/-- Transaction `k` of the command `w` is outstanding, a read of `n` bytes if `n` is not 0, and completes with success and `d`. -/
def completing (s : State) (w : CommandWord) (k : BitVec 3) (n : BitVec 2) (d : BitVec 16) : State :=
  { s with phase := .wait, cmd := w, k := k,
           req := { kind := if n = 0 then .write else .writeRead, bus := s.bus, dev := 0, wlen := 1, wbytes := 0, rcount := n },
           inputs := [Inputs.completion true 0 d] }

/-- The request a step presents. -/
def request : Result → Option Request
  | .next t => if t.phase = .issue then some t.req else none
  | .fault _ => none
  | .refused _ => none

/-- The response a step presents. -/
def response : Result → Option Response
  | .next t => if t.phase = .resp then some t.rsp else none
  | .fault _ => none
  | .refused _ => none

/-- The binding a step leaves: init, bus, i2c_addr, hw_addr, haen_on. -/
def binding : Result → Option (Bool × Bus × DeviceAddr × HwAddr × Bool)
  | .next t => some (t.init, t.bus, t.i2cAddr, t.hwAddr, t.haenOn)
  | .fault _ => none
  | .refused _ => none

/-- OK with data 0. -/
def done : Option Response := some { status := .ok, data := 0, found := false, xerr := 0 }

/-! ## WellFormed: its one check, at the boundary (R85, R153) -/

theorem test_wf_hwa_three_on_eight : (Instr.bindSpi 3).wellFormed (Config.withPins .eight) = true := by decide

theorem test_wf_refuses_hwa_four_on_eight : (Instr.bindSpi 4).wellFormed (Config.withPins .eight) = false := by decide

theorem test_wf_hwa_seven_on_sixteen : (Instr.bindSpi 7).wellFormed (Config.withPins .sixteen) = true := by decide

/-! ## Decoding: one word per constructor (R84) -/

theorem test_decode_bindI2c :
    decode Config.standard 0b0001_0000_00000000_00000000_01111111 = .ok (.bindI2c 0x7F) := by decide

theorem test_decode_bindSpi :
    decode Config.standard 0b0010_0000_00000000_00000000_00000101 = .ok (.bindSpi 5) := by decide

theorem test_decode_setPinMode :
    decode Config.standard 0b0011_0010_00001111_00000000_00000000 = .ok (.setPinMode 15 .inputPullup) := by decide

theorem test_decode_digitalRead :
    decode Config.standard 0b0100_0000_11111111_00000000_00000000 = .ok (.digitalRead 255) := by decide

theorem test_decode_digitalWrite :
    decode Config.standard 0b0101_0001_00001001_00000000_00000000 = .ok (.digitalWrite 9 true) := by decide

theorem test_decode_readPort :
    decode Config.standard 0b0110_0001_00000000_00000000_00000000 = .ok (.readPort .B) := by decide

theorem test_decode_writePort :
    decode Config.standard 0b0111_0000_00000000_00000000_00111100 = .ok (.writePort .A 0x3C) := by decide

theorem test_decode_readPorts16 :
    decode Config.standard 0b1000_0000_00000000_00000000_00000000 = .ok .readPorts16 := by decide

theorem test_decode_writePorts16 :
    decode Config.standard 0b1001_0000_00000000_00010010_00110100 = .ok (.writePorts16 0x1234) := by decide

theorem test_decode_configureInterrupts :
    decode Config.standard 0b1010_0100_00000000_00000000_00000000 = .ok (.configureInterrupts true false false) := by decide

theorem test_decode_enablePinInterrupt :
    decode Config.standard 0b1011_0010_00001011_00000000_00000000 = .ok (.enablePinInterrupt 11 .triggerHigh) := by decide

theorem test_decode_disablePinInterrupt :
    decode Config.standard 0b1100_0000_00001011_00000000_00000000 = .ok (.disablePinInterrupt 11) := by decide

theorem test_decode_lastInterruptPin :
    decode Config.standard 0b1101_0000_00000000_00000000_00000000 = .ok .lastInterruptPin := by decide

theorem test_decode_clearInterrupts :
    decode Config.standard 0b1110_0000_00000000_00000000_00000000 = .ok .clearInterrupts := by decide

theorem test_decode_capturedInterruptState :
    decode Config.standard 0b1110_0001_00000000_00000000_00000000 = .ok .capturedInterruptState := by decide

theorem test_decode_enableHwAddressPins :
    decode Config.standard 0b1111_0000_00000000_00000000_00000000 = .ok .enableHwAddressPins := by decide

/-! Each reason of R85 and R86 (V-B-8, V-B-13, V-B-17, V-SPM-11, V-SPM-12, V-EI-6). -/

theorem test_decode_rejects :
    decode Config.standard 0x0FFFFFFF = .error .reservedOpcode ∧ decode Config.standard 0xE2000000 = .error .reservedBits ∧
    decode Config.standard 0x31090001 = .error .reservedBits ∧ decode Config.standard 0x33050000 = .error .reservedMode ∧
    decode Config.standard 0xB3030000 = .error .reservedTrigger ∧
    decode (Config.withPins .eight) 0x20000004 = .error .hwAddressTooWide := by decide

/-- The host's numbering: one 32-bit word, bits above `nbits` 0. -/
theorem test_decodeTableWord : decodeTableWord 32 0x31090000 = some (.setPinMode 9 .output) := by decide

/-- A word placed with `withFetchWord` is the next command accepted, even in a state that was waiting. -/
theorem test_withFetchWord :
    response (step ((completing onI2c 0x400D0000 0 1 0).withFetchWord 32 0x40100000)) =
      some { status := .invalidPin, data := 0, found := false, xerr := 0 } := by decide

/-! ## One step of each command -/

/-- V-B-1. -/
theorem test_bindI2c_begins :
    request (step (presenting State.reset 0x10000020)) =
      some { kind := .begin, bus := .i2c, dev := 0x20, wlen := 0, wbytes := 0, rcount := 0 } := by decide

theorem test_bindI2c_binds :
    binding (step (completing State.reset 0x10000020 0 0 0)) = some (true, .i2c, 0x20, 0, false) := by decide

/-- V-B-5; R59: the hardware address stands in `wbytes[2:0]`. -/
theorem test_bindSpi_begins :
    request (step (presenting State.reset 0x20000002)) =
      some { kind := .begin, bus := .spi, dev := 0, wlen := 0, wbytes := 2, rcount := 0 } := by decide

theorem test_bindSpi_binds :
    binding (step (completing State.reset 0x20000002 0 0 0)) = some (true, .spi, 0, 2, false) := by decide

/-- V-SPM-1: IODIR B reads 0xFF and is written 0xFD. -/
theorem test_setPinMode_writes_iodir :
    request (step (completing onI2c 0x31090000 0 1 0x00FF)) =
      some { kind := .write, bus := .i2c, dev := 0x20, wlen := 2, wbytes := 0xFD01, rcount := 0 } := by decide

/-- V-SPM-2: Input clears the pull-up, GPPU B reads 0x02 and is written 0x00. -/
theorem test_setPinMode_input_clears_gppu :
    request (step (completing onI2c 0x30090000 2 1 0x0002)) =
      some { kind := .write, bus := .i2c, dev := 0x20, wlen := 2, wbytes := 0x000D, rcount := 0 } := by decide

/-- V-DR-7: GPIO B also with OLAT. -/
theorem test_digitalRead_reads_gpio :
    request (step (presenting withOlat 0x40080000)) =
      some { kind := .writeRead, bus := .i2c, dev := 0x20, wlen := 1, wbytes := 0x13, rcount := 1 } := by decide

/-- V-DR-1, with the ignored second byte of the completion not 0 (R95). -/
theorem test_digitalRead_answers_the_bit :
    response (step (completing onI2c 0x400D0000 0 1 0xFF20)) =
      some { status := .ok, data := 1, found := false, xerr := 0 } := by decide

/-- V-DW-2. -/
theorem test_digitalWrite_clears_one_bit :
    request (step (completing onI2c 0x50090000 0 1 0x00FF)) =
      some { kind := .write, bus := .i2c, dev := 0x20, wlen := 2, wbytes := 0xFD13, rcount := 0 } := by decide

/-- V-DW-4: with OLAT the read is of OLAT. -/
theorem test_digitalWrite_reads_olat :
    request (step (presenting withOlat 0x51090000)) =
      some { kind := .writeRead, bus := .i2c, dev := 0x20, wlen := 1, wbytes := 0x15, rcount := 1 } := by decide

/-- V-RP-2, with the ignored second byte not 0. -/
theorem test_readPort_zero_extends :
    response (step (completing onI2c 0x61000000 0 1 0xFF3C)) =
      some { status := .ok, data := 0x003C, found := false, xerr := 0 } := by decide

/-- V-RP-4: port B on the 8-pin variant. -/
theorem test_readPort_refuses_b_on_eight :
    response (step (presenting onEight 0x61000000)) =
      some { status := .invalidPin, data := 0, found := false, xerr := 0 } := by decide

/-- V-WP-3. -/
theorem test_writePort_olat :
    request (step (presenting withOlat 0x7100003C)) =
      some { kind := .write, bus := .i2c, dev := 0x20, wlen := 2, wbytes := 0x3C15, rcount := 0 } := by decide

theorem test_writePort_ends : response (step (completing onI2c 0x7100003C 0 0 0)) = done := by decide

/-- V-R16-1: two bytes from 0x12, low byte port A. -/
theorem test_readPorts16_word :
    response (step (completing onI2c 0x80000000 0 2 0x1234)) =
      some { status := .ok, data := 0x1234, found := false, xerr := 0 } := by decide

/-- V-R16-3. -/
theorem test_readPorts16_refused_on_eight :
    response (step (presenting onEight 0x80000000)) =
      some { status := .invalidPin, data := 0, found := false, xerr := 0 } := by decide

/-- V-W16-1: low byte first. -/
theorem test_writePorts16_bytes :
    request (step (presenting onI2c 0x90001234)) =
      some { kind := .write, bus := .i2c, dev := 0x20, wlen := 3, wbytes := 0x00123412, rcount := 0 } := by decide

/-- V-W16-3's form on SPI: the opcode, the address, two data bytes. -/
theorem test_writePorts16_spi :
    request (step (presenting onSpi 0x9000FFFE)) =
      some { kind := .write, bus := .spi, dev := 0, wlen := 4, wbytes := 0xFFFE1240, rcount := 0 } := by decide

/-- V-CI-1. -/
theorem test_configureInterrupts_sets :
    request (step (completing onI2c 0xA5000000 0 1 0x0008)) =
      some { kind := .write, bus := .i2c, dev := 0x20, wlen := 2, wbytes := 0x4A0A, rcount := 0 } := by decide

/-- V-CI-3: every other bit as read. -/
theorem test_configureInterrupts_keeps :
    request (step (completing onI2c 0xA0000000 0 1 0x00FF)) =
      some { kind := .write, bus := .i2c, dev := 0x20, wlen := 2, wbytes := 0xB90A, rcount := 0 } := by decide

/-- V-EI-5: TriggerHigh clears the DEFVAL bit. -/
theorem test_enablePinInterrupt_defval :
    request (step (completing onEight 0xB2070000 2 1 0x00FF)) =
      some { kind := .write, bus := .i2c, dev := 0x20, wlen := 2, wbytes := 0x7F03, rcount := 0 } := by decide

/-- V-EI-2: OnChange goes from INTCON to GPINTEN. -/
theorem test_enablePinInterrupt_onChange :
    request (step (completing onI2c 0xB0030000 1 0 0)) =
      some { kind := .writeRead, bus := .i2c, dev := 0x20, wlen := 1, wbytes := 0x04, rcount := 1 } := by decide

/-- V-DI-1. -/
theorem test_disablePinInterrupt_clears :
    request (step (completing onI2c 0xC00B0000 0 1 0x0009)) =
      some { kind := .write, bus := .i2c, dev := 0x20, wlen := 2, wbytes := 0x0105, rcount := 0 } := by decide

/-- V-LI-2: a flag of port B. -/
theorem test_lastInterruptPin_b :
    response (step (completing onI2c 0xD0000000 1 1 0x0030)) =
      some { status := .ok, data := 12, found := true, xerr := 0 } := by decide

/-- V-LI-6: pin 0 is found, INTF B is not read. -/
theorem test_lastInterruptPin_zero :
    response (step (completing onI2c 0xD0000000 0 1 0x0001)) =
      some { status := .ok, data := 0, found := true, xerr := 0 } := by decide

/-- V-CL-1: two bytes from 0x10. -/
theorem test_clearInterrupts_reads :
    request (step (presenting onI2c 0xE0000000)) =
      some { kind := .writeRead, bus := .i2c, dev := 0x20, wlen := 1, wbytes := 0x10, rcount := 2 } := by decide

theorem test_clearInterrupts_discards : response (step (completing onI2c 0xE0000000 0 2 0x8001)) = done := by decide

/-- V-CS-1. -/
theorem test_capturedInterruptState_word :
    response (step (completing onI2c 0xE1000000 0 2 0x8001)) =
      some { status := .ok, data := 0x8001, found := false, xerr := 0 } := by decide

/-- V-CS-2: one byte on the 8-pin variant. -/
theorem test_capturedInterruptState_byte :
    response (step (completing onEight 0xE1000000 0 1 0xFF5A)) =
      some { status := .ok, data := 0x005A, found := false, xerr := 0 } := by decide

/-- V-HA-1: the second write carries the configured address. -/
theorem test_enableHwAddressPins_second_write :
    request (step (completing onSpi 0xF0000000 0 0 0)) =
      some { kind := .write, bus := .spi, dev := 0, wlen := 3, wbytes := 0x00080A44, rcount := 0 } := by decide

/-- V-HA-4: one write on the 8-pin variant, then the flag. -/
theorem test_enableHwAddressPins_sets_the_flag :
    binding (step (completing onSpiEight 0xF0000000 0 0 0)) = some (true, .spi, 0, 3, true) := by decide

/-- The address field of an ordinary transaction with `S.haen_on = 1` (R121, R252): V-HA-9, hardware address 2, and V-DR-8,
hardware address 5. -/
theorem test_address_field_with_haen_on :
    request (step (presenting { onSpi with haenOn := true } 0x40000000)) =
      some { kind := .writeRead, bus := .spi, dev := 0, wlen := 2, wbytes := 0x1245, rcount := 1 } ∧
    request (step (presenting { onSpi with haenOn := true, hwAddr := 5 } 0x40030000)) =
      some { kind := .writeRead, bus := .spi, dev := 0, wlen := 2, wbytes := 0x124B, rcount := 1 } := by decide

/-! ## Witnesses: each shows states and operands that meet the hypotheses of the statement it names -/

/-- An instant with reset and everything else asserted. -/
def resetting : Inputs := { Inputs.command 0x10000020 with rst := true, txReqReady := true, txDone := true, rspReady := true }

theorem witness_ResetClearsEveryField :
    ({ completing onI2c 0x400D0000 0 1 0 with inputs := [resetting] } : State).now.rst = true := by decide

theorem witness_StepRunsTheDecodedCommand :
    (presenting onI2c 0x31FF0000).now.rst = false ∧ (presenting onI2c 0x31FF0000).phase = .idle ∧
    (presenting onI2c 0x31FF0000).now.cmdValid = true ∧
    decode onI2c.cfg (presenting onI2c 0x31FF0000).now.cmdWord = .ok (.setPinMode 255 .output) ∧
    decode onI2c.cfg (tableWord 32 0x31FF0000) = .ok (.setPinMode 255 .output) := by decide

/-- A state whose request is presented, at an instant `i`. -/
def issuing (i : Inputs) : State := { completing onI2c 0x400D0000 0 1 0 with phase := .issue, inputs := [i] }

theorem witness_IssueKeepsTheRequest :
    (issuing Inputs.takeRequest).now.rst = false ∧ (issuing Inputs.takeRequest).phase = .issue ∧
    (issuing Inputs.takeRequest).now.txReqReady = true ∧ (issuing Inputs.quiet).now.rst = false ∧
    (issuing Inputs.quiet).now.txReqReady = false ∧
    ({ issuing Inputs.quiet with phase := .wait } : State).now.txDone = false := by decide

theorem witness_SuccessfulCompletionContinuesTheProgram :
    ∀ n : BitVec 2, n ≠ 3 →
      (completing onI2c 0x31090000 0 n 0xFFFF).now.rst = false ∧ (completing onI2c 0x31090000 0 n 0xFFFF).phase = .wait ∧
      (completing onI2c 0x31090000 0 n 0xFFFF).now.txDone = true ∧ (completing onI2c 0x31090000 0 n 0xFFFF).now.txOk = true ∧
      decode onI2c.cfg (completing onI2c 0x31090000 0 n 0xFFFF).cmd = .ok (.setPinMode 9 .output) ∧
      (n = 0 ↔ (completing onI2c 0x31090000 0 n 0xFFFF).req.kind ≠ .writeRead) ∧
      (completing onI2c 0x31090000 0 n 0xFFFF).req.rcount = n := by decide

/-- A failing completion. -/
def failing : State := { completing onI2c 0x400D0000 0 1 0 with inputs := [Inputs.completion false 0xFF 0] }

theorem witness_FailedCompletionEndsTheCommand :
    failing.now.rst = false ∧ failing.phase = .wait ∧ failing.now.txDone = true ∧ failing.now.txOk = false := by decide

/-- A state whose response is presented and is not 0. -/
def responding (i : Inputs) : State :=
  { onI2c with phase := .resp, rsp := { status := .ok, data := 1, found := true, xerr := 0 }, inputs := [i] }

/-- The clauses in turn: delivery; a step that ends no command, and one in RESP; a step outside IDLE. -/
theorem witness_DeliveryReturnsToIdle :
    (responding Inputs.takeResponse).now.rst = false ∧ (responding Inputs.takeResponse).phase = .resp ∧
    (responding Inputs.takeResponse).now.rspReady = true ∧
    (∃ t, step (issuing Inputs.takeRequest) = .next t ∧ t.phase ≠ .resp) ∧
    (∃ t, step (responding Inputs.quiet) = .next t ∧ t.phase = .resp) ∧ (issuing Inputs.takeRequest).phase ≠ .idle := by
  exact ⟨by decide, by decide, by decide, ⟨_, rfl, by decide⟩, ⟨_, rfl, by decide⟩, by decide⟩

/-- In ISSUE, two instants that agree on `tx_req_ready` and on nothing else. -/
theorem witness_EventsNeverCompete :
    ({ resetting with rst := false } : Inputs).rst = false ∧ Inputs.takeRequest.rst = false ∧
    ({ resetting with rst := false } : Inputs).txReqReady = Inputs.takeRequest.txReqReady ∧
    ({ resetting with rst := false } : Inputs).txDone ≠ Inputs.takeRequest.txDone ∧ resetting.rst = true := by decide

/-- In WAIT, an instant at which everything but reset and the completion is asserted, repeated. -/
theorem witness_WaitingIsUnbounded :
    ∀ i ∈ List.replicate 5 { resetting with rst := false, txDone := false }, i.rst = false ∧ i.txDone = false := by decide

/-- One word for each clause, pin 16 and HWA 4 at the boundary. -/
theorem witness_ChecksAtAcceptInOrder :
    decode onEight.cfg 0x20000004 = .error .hwAddressTooWide ∧
    (decode onI2c.cfg 0x10000021 = .ok (.bindI2c 0x21) ∧ isBind (.bindI2c 0x21) = true ∧ onI2c.init = true) ∧
    (decode State.reset.cfg 0x31100000 = .ok (.setPinMode 16 .output) ∧ isBind (.setPinMode 16 .output) = false ∧
      State.reset.init = false) ∧
    (decode onI2c.cfg 0x40100000 = .ok (.digitalRead 16) ∧ badOperand onI2c.cfg (.digitalRead 16) = true) ∧
    (decode onI2c.cfg 0x400F0000 = .ok (.digitalRead 15) ∧ badOperand onI2c.cfg (.digitalRead 15) = false ∧
      isBind (.digitalRead 15) = !onI2c.init) ∧
    (presenting onI2c 0x400F0000).now.rst = false ∧ (presenting onI2c 0x400F0000).phase = .idle ∧
    (presenting onI2c 0x400F0000).now.cmdValid = true := by decide

theorem witness_DecodeInvertsEncode :
    (Instr.bindSpi 3).wellFormed (Config.withPins .eight) = true ∧
    (Instr.setPinMode 255 .inputPullup).wellFormed (Config.withPins .eight) = true := by decide

theorem witness_EncodeInvertsDecode : decode (Config.withPins .eight) 0xA5000000 = .ok (.configureInterrupts true false true) := by
  decide

theorem witness_NoWordSelectsTwoRows :
    ∃ r ∈ opcodeMap, r.selects 0xE1000000 = true ∧ r.op = .capturedInterruptState :=
  ⟨⟨.capturedInterruptState, 0xE1000000, 0xFFFFFFFF⟩, by decide, by decide, rfl⟩

/-- The second clause: a word with OP = 0 that is not 0. -/
theorem witness_IllegalWords : (0x0FFFFFFF : CommandWord).extractLsb' 28 4 = 0#4 := by decide

/-- The bounds of each conditional clause of a row: HWA 3 and 4, the codes 2 and 3; and a word of no row. -/
theorem witness_DecodingFollowsTheOpcodeMap :
    (0x20000003 : CommandWord) &&& 0xFFFFFFF8#32 = 0x20000000#32 ∧ (0x20000003 : CommandWord).getLsbD 2 = false ∧
    (0x20000004 : CommandWord) &&& 0xFFFFFFF8#32 = 0x20000000#32 ∧ (0x20000004 : CommandWord).getLsbD 2 = true ∧
    (Config.withPins .eight).pinCount = .eight ∧
    (0x32FF0000 : CommandWord) &&& 0xFC00FFFF#32 = 0x30000000#32 ∧ (0x32FF0000 : CommandWord).extractLsb' 24 2 = 2#2 ∧
    (0xB3FF0000 : CommandWord) &&& 0xFC00FFFF#32 = 0xB0000000#32 ∧ (0xB3FF0000 : CommandWord).extractLsb' 24 2 = 3#2 ∧
    (∀ r ∈ opcodeMap, (0xE2000000 : CommandWord) &&& r.mask ≠ r.pattern) := by decide

/-- Every clause with hypotheses: a number that is one too large for its field, digits of each base, a line that assembles. -/
theorem witness_AssemblerNeverTruncates :
    readNumber "0x100".toList = some 256 ∧ 2 ^ 8 ≤ 256 ∧ ([0, 9] : List (Fin 10)) ≠ [] ∧ ([15, 0] : List (Fin 16)) ≠ [] ∧
    assemble "DIGITAL_READ 255" = .ok 0x40FF0000 ∧ (Config.withPins .sixteen).pinCount = .sixteen := by decide

theorem witness_PinMapperLaws :
    (Config.withPins .sixteen).pinCount = .sixteen ∧ (Config.withPins .eight).pinCount = .eight ∧
    pinValid (Config.withPins .sixteen) 15 = true ∧ pinValid (Config.withPins .eight) 7 = true := by decide

/-- ResolverFormula, RegisterMaps: an instance of each variant. -/
theorem witness_variants :
    (Config.withPins .sixteen).pinCount = .sixteen ∧ (Config.withPins .eight).pinCount = .eight := by decide

theorem witness_SpiOpcodeLayout : (Config.withPins .eight).spiOpcodeHi = 0x4 := by decide

/-- Two states that differ in all but parameters and decoder inputs. -/
theorem witness_DecoderPortIsIndependent :
    onI2c.cfg = State.reset.cfg ∧ onI2c.now.dec = State.reset.now.dec ∧ onI2c ≠ State.reset := by decide

theorem witness_I2cRequests : onI2c.bus = .i2c := rfl

theorem witness_SpiRequests : onSpi.bus = .spi := rfl

/-- A read with `S.haen_on` 0, a write with `S.haen_on` 1, both on SPI. -/
theorem witness_OrdinaryAddressField :
    (∃ t, exec (.digitalRead 15) onSpi = .next t ∧ t.phase = .issue ∧ t.req.kind = .writeRead ∧ onSpi.bus = .spi ∧
      onSpi.haenOn = false) ∧
    (∃ t, exec (.writePort .B 0) { onSpi with haenOn := true } = .next t ∧ t.phase = .issue ∧
      t.req.kind = .write) ∧
    Instr.digitalRead 15 ≠ .enableHwAddressPins ∧ Instr.writePort .B 0 ≠ .enableHwAddressPins :=
  ⟨⟨_, rfl, by decide⟩, ⟨_, rfl, by decide⟩, by decide, by decide⟩

/-- The read-modify-write stands second of three: its read, its write, and what follows. -/
theorem witness_ReadModifyWriteAlwaysWrites :
    ({ onI2c with k := 2 } : State).k.toNat = (rmw 0 0 true).length ∧
    ({ onI2c with k := 3 } : State).k.toNat = (rmw 0 0 true).length + 1 ∧
    ({ onI2c with k := 4 } : State).k.toNat = (rmw 0 0 true).length + 2 := by decide

/-- BindI2cProgram, BindSpiProgram. -/
theorem witness_bind_programs :
    State.reset.init = false ∧ State.reset.k = 0 ∧ ({ State.reset with k := 1 } : State).k = 1 := by decide

/-- SetPinModeProgram, DigitalReadProgram, DigitalWriteProgram, PinInterruptPrograms: the last pin of each variant, and every place
of the longest program. -/
theorem witness_pin_programs :
    onI2c.init = true ∧ pinValid onI2c.cfg 15 = true ∧ onEight.init = true ∧ pinValid onEight.cfg 7 = true ∧
    (onI2c.cfg.portWriteReg = .gpio ∧ withOlat.cfg.portWriteReg = .olat) ∧ Trigger.onChange ≠ .triggerHigh ∧
    ∀ k : BitVec 3, ({ onI2c with k := k } : State).k = k := by decide

/-- The hypotheses on `reg` in DigitalWriteProgram, PortWritePrograms and DoubleAfterPinAndPortWrites. -/
theorem witness_portWriteReg :
    ((onI2c.cfg.portWriteReg = .gpio → LogicalReg.gpio = .gpio) ∧ (onI2c.cfg.portWriteReg = .olat → LogicalReg.gpio = .olat)) ∧
    ((withOlat.cfg.portWriteReg = .gpio → LogicalReg.olat = .gpio) ∧
      (withOlat.cfg.portWriteReg = .olat → LogicalReg.olat = .olat)) := by decide

/-- PortReadPrograms, PortWritePrograms. -/
theorem witness_port_programs :
    onI2c.init = true ∧ portValid onI2c.cfg .B = true ∧ portValid onEight.cfg .A = true ∧ onI2c.cfg.pinCount = .sixteen := by
  decide

/-- ConfigureInterruptsProgram: the default positions differ. -/
theorem witness_ConfigureInterruptsProgram :
    onI2c.init = true ∧ onI2c.cfg.mirrorBit ≠ onI2c.cfg.odrBit ∧ onI2c.cfg.mirrorBit ≠ onI2c.cfg.intpolBit ∧
    onI2c.cfg.odrBit ≠ onI2c.cfg.intpolBit := by decide

/-- LastInterruptPinProgram, IntcapPrograms: no flag, the lowest and the highest flag, both variants. -/
theorem witness_polling_programs :
    onI2c.init = true ∧ onI2c.cfg.pinCount = .sixteen ∧ onEight.init = true ∧ onEight.cfg.pinCount = .eight ∧
    (0xFF00 : BitVec 16).extractLsb' 0 8 = 0#8 ∧ (0x0001 : BitVec 16).extractLsb' 0 8 ≠ 0#8 ∧
    (0x0080 : BitVec 16).extractLsb' 0 8 ≠ 0#8 := by decide

theorem witness_EnableHwAddressPinsProgram :
    onI2c.init = true ∧ onI2c.bus = .i2c ∧ onSpi.init = true ∧ onSpi.bus = .spi ∧ onSpi.cfg.pinCount = .sixteen ∧
    onSpiEight.init = true ∧ onSpiEight.bus = .spi ∧ onSpiEight.cfg.pinCount = .eight := by decide

/-- CommandsWriteNothingElse: its conditional clauses. -/
theorem witness_CommandsWriteNothingElse :
    isBind .enableHwAddressPins = false ∧ isBind (.digitalRead 0) = false ∧ Instr.digitalRead 0 ≠ .enableHwAddressPins := by
  decide

theorem witness_BindingChangesOnlyByASuccessfulBind :
    ∃ t, step (completing State.reset 0x20000002 0 0 0) = .next t ∧ t.init ≠ State.reset.init :=
  ⟨_, rfl, by decide⟩

/-- Set by its command, cleared by a bind (from a state no run reaches: a bind needs `S.init = 0`). -/
theorem witness_AddressModeChangesOnlyByItsCommand :
    (∃ t, step (completing onSpiEight 0xF0000000 0 0 0) = .next t ∧ t.haenOn ≠ onSpiEight.haenOn) ∧
    (∃ t, step (completing { onSpi with haenOn := true } 0x10000020 0 0 0) = .next t ∧ t.haenOn = false) :=
  ⟨⟨_, rfl, by decide⟩, ⟨_, rfl, by decide⟩⟩

theorem witness_ParametersNeverChange : ∃ t, step { onI2c with inputs := [resetting] } = .next t ∧ t ≠ onI2c :=
  ⟨_, rfl, by decide⟩

/-- A 2-byte read at 0x10, INTF B at 0x0F, and a 1-byte write on the 8-pin variant. -/
theorem witness_OnlyTheMappedAddressesAreEmitted :
    (∃ t, exec .clearInterrupts onI2c = .next t ∧ t.phase = .issue ∧ t.req.kind ≠ .begin ∧ (touched t.req).length = 2) ∧
    (∃ t, exec .lastInterruptPin { onI2c with k := 1 } = .next t ∧ t.phase = .issue ∧ 0x0F ∈ touched t.req) ∧
    (∃ t, exec (.writePort .A 0) onEight = .next t ∧ t.phase = .issue ∧ t.req.kind ≠ .begin) :=
  ⟨⟨_, rfl, by decide, by decide, by decide⟩, ⟨_, rfl, by decide, by decide⟩, ⟨_, rfl, by decide, by decide⟩⟩

theorem witness_CommandsRunTheirPseudocode :
    (Instr.bindSpi 3).wellFormed onEight.cfg = true ∧ onEight.phase = .idle ∧
    (Instr.enablePinInterrupt 15 .triggerLow).wellFormed onI2c.cfg = true ∧ onI2c.phase = .idle := by decide

/-- The transport answers with a failure; a command is offered all the while. -/
theorem witness_EveryAcceptedCommandIsAnswered :
    onI2c.phase = .idle ∧
    (List.replicate 12 { resetting with rst := false, rspReady := false }).length = 12 ∧
    ∀ i ∈ List.replicate 12 { resetting with rst := false, rspReady := false }, i.cooperative = true := by decide

/-- Two machines with one binding that otherwise have nothing in common. -/
theorem witness_CommandsLeaveNoMemory :
    SameBinding onI2c { onI2c with cmd := 0x400D0000, k := 5, rd := 0xFFFF, req := beginSpi 7, rsp := okResponse 1 true } ∧
    onI2c.phase = .idle :=
  ⟨⟨rfl, rfl, rfl, rfl, rfl, rfl, rfl⟩, rfl⟩

/-- A machine that waits for the GPIO read of DIGITAL_READ 13. -/
def waiting : State :=
  { onI2c with phase := .wait, cmd := 0x400D0000, req := readRequest onI2c 0 0x13 .one, inputs := [Inputs.completion true 0 0x20] }

/-- EveryStepKeepsTheInvariant, NoStepStops: a state in the middle of a command meets the invariant. -/
theorem witness_Inv : Inv waiting ∧ waiting.phase = .wait ∧ ∃ t, step waiting = .next t := by
  refine ⟨⟨⟨?_, ?_, ?_, by decide⟩, ⟨by decide, fun _ => by decide, fun _ => by decide, by decide, fun h => ?_⟩,
    ⟨fun _ => by decide, fun _ => by decide, fun h => ?_⟩, by decide, fun _ => ?_⟩, rfl, ⟨_, rfl⟩⟩
  · exact fun h => absurd h (by decide)
  · exact fun _ => by decide
  · exact fun h => absurd h (by decide)
  · exact absurd h (by decide)
  · exact absurd h (by decide)
  · exact ⟨.digitalRead 13, by decide, by decide, by decide, rfl⟩

/-- TransactionCounts: INTF A reads 0, and the byte past the one read does not count. -/
theorem witness_TransactionCounts :
    onI2c.cfg.pinCount = .sixteen ∧ (0xFF00 : BitVec 16).extractLsb' 0 8 = 0#8 ∧ Instr.digitalRead 0 ≠ .lastInterruptPin := by
  decide

/-- A double that holds something. -/
def doubled : Memory := [(0x00, 0xFF), (0x13, 0x81)]

/-- The statements about the double. -/
theorem witness_double :
    doubled.wf = true ∧ onI2c.phase = .idle ∧ onI2c.init = true ∧ onI2c.cfg.portWriteReg = .gpio ∧
    onI2c.cfg.pinCount = .sixteen ∧ pinValid onI2c.cfg 15 = true ∧ portValid onI2c.cfg .B = true ∧
    withOlat.phase = .idle ∧ withOlat.init = true ∧ withOlat.cfg.portWriteReg = .olat ∧ onSpi.bus = .spi := by decide

/-- The clauses of DoubleAfterReads on LAST_INTERRUPT_PIN: a flag of port A, one of port B only, none, on both variants. -/
theorem witness_DoubleAfterReads :
    let intf : State → Port → Nat := fun s p => (resolve s.cfg .intf p).toNat
    Memory.read [(0x0E, 0x80)] (intf onI2c .A) ≠ 0 ∧ Memory.read [(0x07, 0x01)] (intf onEight .A) ≠ 0 ∧
    (Memory.read [(0x0F, 0x80)] (intf onI2c .A) = 0 ∧ Memory.read [(0x0F, 0x80)] (intf onI2c .B) ≠ 0) ∧
    (Memory.read doubled (intf onI2c .A) = 0 ∧ Memory.read doubled (intf onI2c .B) = 0) ∧
    (Memory.read doubled (intf onEight .A) = 0 ∧ onEight.cfg.pinCount = .eight) := by decide

theorem witness_DoubleKeepsItsForm :
    ∃ t m', doubled.wf = true ∧ rfCommand 0x51090000 onI2c doubled = some (t, m') ∧ m'.read 0x13 = 0x83 :=
  ⟨_, _, by decide, rfl, by decide⟩

end Sys2Proof.Tests.Slice0
end

section
/-!
The address field of the SPI opcode byte (40_decoder.md R120, R121): the three fields of the byte, the first byte of every request
but a begin, and the statement of O55 assembled from them.
-/

namespace Sys2Proof.Machine

/-- Plain addressing (R121). -/
theorem hwf_of_haenOff {s : State} (h : s.haenOn = false) : hwf s = 0 := by simp [hwf, h]

/-- Addressed mode (R121). -/
theorem hwf_of_haenOn {s : State} (h : s.haenOn = true) : hwf s = s.hwAddr := by simp [hwf, h]

/-- The opcode byte bit by bit: bit 0 the direction, bits 3:1 the address field, bits 7:4 `SPI_OPCODE_HI` (R120). -/
theorem spiOpcode_getLsbD (c : Config) (rw : Bool) (f : HwAddr) (j : Nat) :
    (spiOpcode c rw f).getLsbD j =
      if j < 1 then (BitVec.ofBool rw).getLsbD j
      else if j - 1 < 3 then f.getLsbD (j - 1) else c.spiOpcodeHi.getLsbD (j - 1 - 3) := by
  change BitVec.getLsbD (w := 4 + 3 + 1) (c.spiOpcodeHi ++ f ++ BitVec.ofBool rw) j = _
  simp only [BitVec.getLsbD_append]

/-- Bits 7:4 of the opcode byte (R120). -/
@[simp] theorem spiOpcode_extract_hi (c : Config) (rw : Bool) (f : HwAddr) :
    (spiOpcode c rw f).extractLsb' 4 4 = c.spiOpcodeHi := by
  apply BitVec.eq_of_getLsbD_eq
  intro j hj
  rw [BitVec.getLsbD_extractLsb', spiOpcode_getLsbD, if_neg (by omega), if_neg (by omega), decide_eq_true hj, Bool.true_and]
  congr 1; omega

/-- Bits 3:1 of the opcode byte (R120). -/
@[simp] theorem spiOpcode_extract_field (c : Config) (rw : Bool) (f : HwAddr) :
    (spiOpcode c rw f).extractLsb' 1 3 = f := by
  apply BitVec.eq_of_getLsbD_eq
  intro j hj
  rw [BitVec.getLsbD_extractLsb', spiOpcode_getLsbD, if_neg (by omega), if_pos (by omega), decide_eq_true hj, Bool.true_and]
  congr 1; omega

/-- Bit 0 of the opcode byte (R120). -/
theorem spiOpcode_getLsbD_zero (c : Config) (rw : Bool) (f : HwAddr) : (spiOpcode c rw f).getLsbD 0 = rw := by
  rw [spiOpcode_getLsbD, if_pos (by decide)]
  simp

/-- The fields of the first byte of a request's bytes, read off the whole word (R95, R120). -/
theorem opcodeFields_of_firstByte {w : BitVec 32} {c : Config} {rw : Bool} {f : HwAddr}
    (h : w.extractLsb' 0 8 = spiOpcode c rw f) :
    w.extractLsb' 4 4 = c.spiOpcodeHi ∧ w.extractLsb' 1 3 = f ∧ w.getLsbD 0 = rw := by
  refine ⟨?_, ?_, ?_⟩
  · rw [← spiOpcode_extract_hi c rw f, ← h, BitVec.extractLsb'_extractLsb'_of_le (by decide)]
  · rw [← spiOpcode_extract_field c rw f, ← h, BitVec.extractLsb'_extractLsb'_of_le (by decide)]
  · rw [← spiOpcode_getLsbD_zero c rw f, ← h]; simp

/-- The first byte of every request but a begin that a command other than ENABLE_HW_ADDRESS_PINS presents on SPI (R57, R58, R121). -/
theorem exec_firstByte {i : Instr} {s t : State} (he : exec i s = .next t) (hp : t.phase = .issue)
    (hk : t.req.kind ≠ .begin) (hi : i ≠ .enableHwAddressPins) (hb : s.bus = .spi) :
    t.req.wbytes.extractLsb' 0 8 = spiOpcode s.cfg (decide (t.req.kind = .writeRead)) (hwf s) := by
  have hr := exec_presents he hp
  generalize t.req = r at hk hr ⊢
  cases hr with
  | beginI2c a _ => exact absurd rfl hk
  | beginSpi h _ => exact absurd rfl hk
  | read a n _ => exact opcode_read _ a n hb
  | write f a n v _ hf => rw [hf hi]; exact opcode_write _ a n v hb

end Sys2Proof.Machine

open Sys2Proof Sys2Proof.Machine

/-- Settles O55, from the first byte of every presented request and the fields of the opcode byte. -/
theorem ordinaryAddressField : Obligations.OrdinaryAddressField := by
  intro s
  refine ⟨hwf_of_haenOff, hwf_of_haenOn, fun i t he hp hk hi hb => ?_⟩
  obtain ⟨hHi, hField, hRw⟩ := opcodeFields_of_firstByte (exec_firstByte he hp hk hi hb)
  refine ⟨hHi, fun h => ?_, fun h => ?_, ?_⟩
  · exact hField.trans (hwf_of_haenOff h)
  · exact hField.trans (hwf_of_haenOn h)
  · rw [hRw, decide_eq_true_iff]

end

section
/-!
What the registers of a well-behaved state look like (10_state.md R28 to R30, 20_memory.md R54 and R61, 30_encoding.md R87 and
R95): the requests a command can present, the responses and the binding it can leave.
-/

namespace Sys2Proof.Machine

/-! The addresses of R54. -/

/-- On the 16-pin variant the two ports of a register stand side by side, port A at the even address (R116). -/
theorem resolve_toNat_sixteen {c : Config} (h : c.pinCount = .sixteen) (reg : LogicalReg) (port : Port) :
    (resolve c reg port).toNat = 2 * reg.id.toNat + (portBit port).toNat := by
  simp only [resolve, resolveId, h]
  cases reg <;> cases port <;> rfl

/-- On the 8-pin variant a register stands at its id (R116). -/
theorem resolve_toNat_eight {c : Config} (h : c.pinCount = .eight) (reg : LogicalReg) (port : Port) :
    (resolve c reg port).toNat = reg.id.toNat := by
  simp only [resolve, resolveId, h]
  cases reg <;> rfl

/-- The register `PORT_WRITE_REG` names is OLAT only where the parameter says so (R10). -/
theorem portWriteReg_cases (c : Config) :
    portWriteReg c = .gpio ∨ (portWriteReg c = .olat ∧ c.portWriteReg = .olat) := by
  unfold portWriteReg
  cases h : c.portWriteReg <;> simp

/-- A register other than IPOL, and OLAT only where `PORT_WRITE_REG` names it: what the sequencer may touch (R54). -/
def Touchable (c : Config) (reg : LogicalReg) : Prop := reg ≠ .ipol ∧ (reg = .olat → c.portWriteReg = .olat)

theorem touchable_portWriteReg (c : Config) : Touchable c (portWriteReg c) := by
  rcases portWriteReg_cases c with h | ⟨h, ho⟩ <;> simp [Touchable, *]

/-- Both ports of a touchable register are addresses of R54, but for the second IOCON address. -/
theorem emitted_resolve {c : Config} {reg : LogicalReg} {port : Port} (h : Touchable c reg)
    (hi : reg = .iocon → port = .A) : emitted c (resolve c reg port).toNat = true := by
  obtain ⟨hipol, holat⟩ := h
  cases hc : c.pinCount with
  | sixteen =>
    rw [resolve_toNat_sixteen hc]
    cases reg <;> cases port <;> simp_all [emitted, LogicalReg.id, portBit]
  | eight =>
    rw [resolve_toNat_eight hc]
    cases reg <;> simp_all [emitted, LogicalReg.id]

/-- The address after port A's is port B's on the 16-pin variant (R116). -/
theorem resolve_A_succ {c : Config} (h : c.pinCount = .sixteen) (reg : LogicalReg) :
    (resolve c reg .A).toNat + 1 = (resolve c reg .B).toNat := by
  rw [resolve_toNat_sixteen h, resolve_toNat_sixteen h]
  rfl

/-- What a command accesses: a touchable register, IOCON through port A only, and two bytes only from port A on the 16-pin
variant (R53, R54, R61). -/
theorem Access.register {i : Instr} {c : Config} {a : RegAddr} {n : Width} (h : Access i c a n) :
    ∃ reg port, a = resolve c reg port ∧ Touchable c reg ∧ (reg = .iocon → port = .A) ∧
      (n = .two → port = .A ∧ reg ≠ .iocon ∧ c.pinCount = .sixteen) := by
  have hw := touchable_portWriteReg c
  have hio : portWriteReg c ≠ .iocon := by rcases portWriteReg_cases c with h | ⟨h, -⟩ <;> simp [h]
  cases h with
  | byte reg port h =>
    refine ⟨reg, port, rfl, ?_, ?_, by simp⟩
    · rcases h with rfl | rfl | rfl | rfl | rfl | rfl | rfl
      case inr.inr.inr.inr.inr.inr => exact hw
      all_goals simp [Touchable]
    · rintro rfl
      exact absurd h (by simp [hio.symm])
  | iocon => exact ⟨.iocon, .A, rfl, by simp [Touchable], fun _ => rfl, by simp⟩
  | intfA _ => exact ⟨.intf, .A, rfl, by simp [Touchable], by simp, by simp⟩
  | intfB _ _ => exact ⟨.intf, .B, rfl, by simp [Touchable], by simp, by simp⟩
  | intcap =>
    refine ⟨.intcap, .A, rfl, by simp [Touchable], by simp, fun hn => ⟨rfl, by simp, ?_⟩⟩
    cases hc : c.pinCount <;> simp [intcapWidth, hc] at hn ⊢
  | pair reg h hc =>
    rcases h with rfl | rfl
    · exact ⟨.gpio, .A, rfl, by simp [Touchable], by simp, fun _ => ⟨rfl, by simp, hc⟩⟩
    · exact ⟨portWriteReg c, .A, rfl, hw, fun _ => rfl, fun _ => ⟨rfl, hio, hc⟩⟩

/-- Every address of an access is one of R54. -/
theorem Access.emitted {i : Instr} {c : Config} {a : RegAddr} {n : Width} (h : Access i c a n) :
    ∀ x ∈ (List.range n.bytes).map (a.toNat + ·), emitted c x = true := by
  obtain ⟨reg, port, rfl, ht, hA, htwo⟩ := h.register
  have hfirst := emitted_resolve ht hA
  cases n with
  | one => simpa [Width.bytes] using hfirst
  | two =>
    obtain ⟨rfl, hio, hc⟩ := htwo rfl
    have hsecond := emitted_resolve (port := .B) ht (fun e => absurd e hio)
    simpa [Width.bytes, List.range_succ, resolve_A_succ hc] using ⟨hfirst, hsecond⟩

/-- An access of two bytes starts at an even address of the 16-pin variant (R61). -/
theorem Access.even {i : Instr} {c : Config} {a : RegAddr} (h : Access i c a .two) :
    c.pinCount = .sixteen ∧ a.toNat % 2 = 0 := by
  obtain ⟨reg, port, rfl, -, -, htwo⟩ := h.register
  obtain ⟨rfl, -, hc⟩ := htwo rfl
  refine ⟨hc, ?_⟩
  rw [resolve_toNat_sixteen hc]
  simp [portBit]

/-! Requests as R95 allows them. -/

/-- Shifted by its own length, a list of wire bytes leaves nothing: the bytes past it are 0 (R95). -/
theorem packBytes_shift (l : List Byte) : packBytes l >>> (8 * l.length) = 0 := by
  apply BitVec.eq_of_getLsbD_eq
  intro j _
  rw [BitVec.getLsbD_ushiftRight, packBytes_above l _ (by omega)]
  simp

theorem addressBytes_length (s : State) (rw : Bool) (f : HwAddr) (a : RegAddr) :
    (addressBytes s rw f a).length ≤ 2 := by
  cases hb : s.bus <;> simp [addressBytes, hb]

theorem dataBytes_length (n : Width) (v : BitVec 16) : (dataBytes n v).length = n.bytes := by
  cases n <;> rfl

theorem Width.bytes_cases (n : Width) : n.bytes = 1 ∨ n.bytes = 2 := by cases n <;> simp [Width.bytes]

/-- A transaction that moves two bytes has width two. -/
theorem Width.eq_two {n : Width} (h : n.bytes = 2) : n = .two := by cases n <;> simp_all [Width.bytes]

theorem readRequest_wlen (s : State) (f : HwAddr) (a : RegAddr) (n : Width) :
    (readRequest s f a n).wlen.toNat = (addressBytes s true f a).length := by
  have := addressBytes_length s true f a
  simp only [readRequest, BitVec.toNat_ofNat]
  omega

theorem writeRequest_wlen (s : State) (f : HwAddr) (a : RegAddr) (n : Width) (v : BitVec 16) :
    (writeRequest s f a n v).wlen.toNat = (addressBytes s false f a ++ dataBytes n v).length := by
  have := addressBytes_length s false f a
  have := n.bytes_cases
  simp only [writeRequest, BitVec.toNat_ofNat, List.length_append, dataBytes_length]
  omega

/-- The request of an access's read is as R54, R61 and R95 allow it. -/
theorem requestOk_read {i : Instr} {s : State} {a : RegAddr} {n : Width} (f : HwAddr) (h : Access i s.cfg a n) :
    RequestOk s.cfg (readRequest s f a n) := by
  have hlen := addressBytes_length s true f a
  have hn := n.bytes_cases
  refine ⟨⟨?_, ?_⟩, fun _ => ?_, fun _ => ?_, ?_, ?_⟩
  · rw [readRequest_wlen]; omega
  · simp only [readRequest, BitVec.toNat_ofNat]; omega
  · rw [readRequest_wlen]; exact packBytes_shift _
  · simpa [touched_read] using hn
  · rw [touched_read]; exact h.emitted
  · intro h2
    obtain rfl := Width.eq_two (by simpa [touched_read] using h2)
    rw [requestAddress_read]; exact h.even

/-- The request of an access's write is as R54, R61 and R95 allow it. -/
theorem requestOk_write {i : Instr} {s : State} {a : RegAddr} {n : Width} (f : HwAddr) (v : BitVec 16)
    (h : Access i s.cfg a n) : RequestOk s.cfg (writeRequest s f a n v) := by
  have hlen := addressBytes_length s false f a
  have hn := n.bytes_cases
  refine ⟨⟨?_, ?_⟩, fun _ => ?_, fun _ => ?_, ?_, ?_⟩
  · rw [writeRequest_wlen, List.length_append, dataBytes_length]; omega
  · simp [writeRequest]
  · rw [writeRequest_wlen]; exact packBytes_shift _
  · simpa [touched_write] using hn
  · rw [touched_write]; exact h.emitted
  · intro h2
    obtain rfl := Width.eq_two (by simpa [touched_write] using h2)
    rw [requestAddress_write]; exact h.even

/-- A begin touches no register (R59). -/
theorem requestOk_begin {c : Config} {r : Request} (hk : r.kind = .begin) (hw : r.wlen = 0) (hr : r.rcount = 0) :
    RequestOk c r := by
  have ht : touched r = [] := by simp [touched, hk]
  exact ⟨by simp [hw, hr], fun h => absurd hk h, fun h => absurd hk h, by simp [ht], by simp [ht]⟩

/-- Every request a command's meaning presents is as R54, R61 and R95 allow it. -/
theorem Presents.requestOk {i : Instr} {s : State} {r : Request} (h : Presents i s r) : RequestOk s.cfg r := by
  cases h with
  | beginI2c a _ => exact requestOk_begin rfl rfl rfl
  | beginSpi h _ => exact requestOk_begin rfl rfl rfl
  | read a n h => exact requestOk_read _ h
  | write f a n v h _ => exact requestOk_write f v h

/-! Responses as R87 allows them. -/

theorem responseOk_ok {d : BitVec 16} {f : Bool} (h : f = true → d.toNat < 16) : ResponseOk (okResponse d f) :=
  ⟨fun hs => absurd rfl hs, fun _ => rfl, h⟩

theorem responseOk_error (st : Status) (e : Byte) : ResponseOk (errorResponse st e) :=
  ⟨fun _ => ⟨rfl, rfl⟩, fun h => if_neg h, fun h => absurd h (by simp)⟩

/-! Bindings as R28 to R30 allow them. -/

theorem hwaFits_zero (c : Config) : hwaFits c 0 = true := by simp [hwaFits]

theorem bindingOk_bindI2c (a : DeviceAddr) (s : State) : BindingOk (bindTo .i2c a 0 s) where
  unbound h := absurd h (by simp)
  onI2c _ := ⟨rfl, rfl⟩
  onSpi h := absurd h (by simp)
  hwaWidth := hwaFits_zero s.cfg

theorem bindingOk_bindSpi {h : HwAddr} {s : State} (hf : hwaFits s.cfg h = true) : BindingOk (bindTo .spi 0 h s) where
  unbound h := absurd h (by simp)
  onI2c h := absurd h (by simp)
  onSpi _ := rfl
  hwaWidth := hf

/-- The address mode may be set on an SPI binding (R252). -/
theorem BindingOk.setHaen {s : State} (hb : BindingOk s) (hi : s.init = true) (hs : s.bus = .spi) : BindingOk (setHaen s) where
  unbound h := absurd h (by simp [hi])
  onI2c h := absurd h (by simp [hs])
  onSpi := hb.onSpi
  hwaWidth := hb.hwaWidth

/-- A BIND_SPI that decodes names a hardware address the variant has (R85). -/
theorem hwaFits_of_decode {c : Config} {w : CommandWord} {h : HwAddr} (hd : decode c w = .ok (.bindSpi h)) :
    hwaFits c h = true := by
  unfold decode at hd
  split at hd
  · rename_i r _
    cases hop : r.op <;> simp only [hop, readOperands] at hd
    case bindSpi => split at hd <;> simp_all
    case setPinMode => split at hd <;> simp at hd
    case enablePinInterrupt => split at hd <;> simp at hd
    all_goals simp at hd
  · split at hd <;> simp at hd

end Sys2Proof.Machine
end

section
/-!
The invariant (Safety.lean) at reset and over every step. A command's meaning runs at its acceptance and after each successful
completion, from a state that meets `Resumable`; from there it answers a state that meets the invariant.
-/

namespace Sys2Proof.Machine

/-! The number of transactions of a command (R35). -/

@[simp] theorem nports_eight : PinCount.eight.nports = 1 := rfl
@[simp] theorem nports_sixteen : PinCount.sixteen.nports = 2 := rfl

/-- No command has more than 6 transactions (R35). -/
theorem maxTransactions_le (s : State) (i : Instr) : maxTransactions s i ≤ 6 := by
  have hp : s.cfg.pinCount.nports ≤ 2 := by cases s.cfg.pinCount <;> decide
  cases i with
  | enablePinInterrupt pin trig => cases trig <;> simp [maxTransactions]
  | enableHwAddressPins => cases hb : s.bus <;> simp [maxTransactions, hb]; omega
  | lastInterruptPin => simp only [maxTransactions]; omega
  | _ => simp [maxTransactions]

/-- A command presents a request only while its index is below its count (R35, R142). -/
theorem exec_presents_index {i : Instr} {s : State} {r : Request} (h : exec i s = .next (present r s)) :
    s.k.toNat < maxTransactions s i := by
  cases i with
  | enablePinInterrupt pin trig =>
    cases trig <;> exact runSequence_presents (checked_presents h) endWith_ne_present
  | lastInterruptPin =>
    have hp := checked_presents h
    have hk := runSequence_presents hp (by split <;> exact endWith_ne_present)
    cases hc : s.cfg.pinCount with
    | sixteen => rw [maxTransactions, hc]; exact hk
    | eight =>
      by_contra hge
      have h1 : s.k = 1 := BitVec.eq_of_toNat_eq (by
        simp [maxTransactions, hc] at hge hk ⊢; omega)
      rw [runSequence_index h1] at hp
      simp [hc] at hp
      split at hp <;> exact endWith_ne_present hp
  | enableHwAddressPins =>
    unfold exec execEnableHwAddressPins at h
    have hp := checked_presents h
    cases hb : s.bus with
    | i2c => simp only [hb] at hp; exact absurd hp endWith_ne_present
    | spi =>
      simp only [hb] at hp
      have hk := runSequence_presents hp endWith_ne_present
      cases hc : s.cfg.pinCount <;> simpa [maxTransactions, haenWrites, hb, hc] using hk
  | _ => exact runSequence_presents (checked_presents h) endWith_ne_present

/-- The bind gate of an accepted command (R143). -/
theorem init_of_checks {i : Instr} {s : State} (h : firstFailure s (commandChecks i) = none) : s.init = !isBind i := by
  cases hb : isBind i with
  | true =>
    rw [checks_bind hb] at h
    cases hi : s.init <;> simp [hi] at h ⊢
  | false =>
    rw [checks_command hb] at h
    cases hi : s.init <;> simp [hi] at h ⊢

/-- A command that presents a request has passed its checks (R143). -/
theorem checks_of_presents {i : Instr} {s : State} {r : Request} (h : exec i s = .next (present r s)) (hk : s.k = 0) :
    firstFailure s (commandChecks i) = none := by
  cases hf : firstFailure s (commandChecks i) with
  | none => rfl
  | some st => exact absurd (exec_fail hk hf ▸ h) endWith_ne_present

/-- A request stays the one the program denotes in every state with the same view (R142, R144). -/
theorem exec_presents_same {i : Instr} {s t : State} {r : Request} (hv : SameView s t) (h : exec i s = .next (present r s)) :
    exec i t = .next (present r t) := by
  have hsame := exec_same i hv
  rw [h] at hsame
  generalize exec i t = o at hsame
  generalize hp : (Host.Outcome.next (present r s) : Result) = p at hsame
  cases hsame with
  | presents r' =>
    obtain rfl : r = r' := congrArg State.req (Host.Outcome.next.inj hp)
    rfl
  | ends _ => exact absurd hp.symm endWith_ne_present
  | binds _ _ _ _ => exact absurd hp.symm endWith_ne_present
  | enables _ => exact absurd hp.symm endWith_ne_present

/-! The invariant only speaks of the fields named here; a proof of it is carried over field by field. -/

/-- The fields a binding is made of. -/
theorem BindingOk.congr {s t : State} (h : BindingOk s) (hc : t.cfg = s.cfg) (hi : t.init = s.init) (hb : t.bus = s.bus)
    (ha : t.i2cAddr = s.i2cAddr) (hh : t.hwAddr = s.hwAddr) (hn : t.haenOn = s.haenOn) : BindingOk t where
  unbound := by rw [hi, hb, ha, hh, hn]; exact h.unbound
  onI2c := by rw [hb, hh, hn]; exact h.onI2c
  onSpi := by rw [hb, ha]; exact h.onSpi
  hwaWidth := by rw [hc, hh]; exact h.hwaWidth

/-- A command in progress stays so while `S.cmd` and what its meaning looks at are kept, and `S.req` with them. -/
theorem InProgress.congr {s t : State} (h : InProgress s) (hv : SameView s t) (hc : t.cmd = s.cmd) (hr : t.req = s.req) :
    InProgress t := by
  obtain ⟨i, hd, hi, -, he⟩ := h
  have he' := exec_presents_same hv he
  exact ⟨i, by rw [hc, ← hv.cfg]; exact hd, hv.init ▸ hi, exec_presents_index he', hr ▸ he'⟩

/-- The end of a command: nothing is in progress any more. -/
theorem inv_endWith {s : State} {r : Response} (hb : BindingOk s) (hq : RequestOk s.cfg s.req) (hk : s.k.toNat ≤ 6)
    (hr : ResponseOk r) : Inv (endWith r s) where
  binding := hb.congr rfl rfl rfl rfl rfl rfl
  request := hq
  response := hr
  index := hk
  progress h := absurd h (by simp)

/-- The state in which the meaning of the legal command `i` runs: the invariant but for `progress`, and the bind gate past the
first transaction, where no check is made any more. -/
structure Resumable (i : Instr) (s : State) : Prop where
  binding  : BindingOk s
  request  : RequestOk s.cfg s.req
  response : ResponseOk s.rsp
  index    : s.k.toNat ≤ 6
  legal    : decode s.cfg s.cmd = .ok i
  gate     : s.k ≠ 0 → s.init = !isBind i

/-- A request that a command presents is in progress. -/
theorem Resumable.inProgress {i : Instr} {s : State} {r : Request} (h : Resumable i s) (he : exec i s = .next (present r s)) :
    InProgress (present r s) := by
  have hv : SameView s (present r s) := ⟨rfl, rfl, rfl, rfl, rfl, rfl, rfl, rfl⟩
  refine ⟨i, h.legal, ?_, exec_presents_index (exec_presents_same hv he), exec_presents_same hv he⟩
  by_cases hk : s.k = 0
  · exact init_of_checks (s := s) (checks_of_presents he hk)
  · exact h.gate hk

/-- From where a command's meaning may run it answers a state that meets the invariant. -/
theorem Resumable.exec_inv {i : Instr} {s t : State} (h : Resumable i s) (he : exec i s = .next t) : Inv t := by
  cases exec_cases_of he with
  | failed st _ _ _ => exact inv_endWith h.binding h.request h.index (responseOk_error st 0)
  | presents r =>
    exact ⟨h.binding.congr rfl rfl rfl rfl rfl rfl, (exec_presents he rfl).requestOk, h.response, h.index,
      fun _ => h.inProgress he⟩
  | ends d f hf => exact inv_endWith h.binding h.request h.index (responseOk_ok hf)
  | bindsI2c a _ _ =>
    exact inv_endWith (bindingOk_bindI2c a s) h.request h.index (responseOk_ok (by simp))
  | bindsSpi hwa hi _ =>
    subst hi
    exact inv_endWith (bindingOk_bindSpi (hwaFits_of_decode h.legal)) h.request h.index (responseOk_ok (by simp))
  | enables hi hb hk =>
    have hinit : s.init = true := by
      subst hi
      exact h.gate (fun e => by simp [e] at hk)
    exact inv_endWith (h.binding.setHaen hinit hb) h.request h.index (responseOk_ok (by simp))

/-- A legal word is latched into a state where its command's meaning may run (R141). -/
theorem Inv.resumable_latch {s : State} {w : CommandWord} {i : Instr} (h : Inv s) (hd : decode s.cfg w = .ok i) :
    Resumable i (latch w (consume s)) where
  binding := h.binding.congr rfl rfl rfl rfl rfl rfl
  request := h.request
  response := h.response
  index := by simp
  legal := hd
  gate hk := absurd rfl hk

/-- A completion below the last index advances it without wrapping (R145). -/
theorem receive_k_toNat {v : BitVec 16} {s : State} (h : s.k.toNat < 7) : (receive v s).k.toNat = s.k.toNat + 1 := by
  rw [receive_k, BitVec.toNat_add]
  exact Nat.mod_eq_of_lt (Nat.succ_lt_succ h)

/-- A successful completion leads to a state where the latched command's meaning may run on (R145). -/
theorem Inv.resumable_receive {s : State} {v : BitVec 16} {i : Instr} (h : Inv s) (hp : s.phase = .wait)
    (hd : decode s.cfg s.cmd = .ok i) : Resumable i (receive v (consume s)) := by
  obtain ⟨j, hj, hinit, hk, -⟩ := h.progress (.inr hp)
  obtain rfl : i = j := Except.ok.inj (hd.symm.trans hj)
  refine ⟨h.binding.congr rfl rfl rfl rfl rfl rfl, h.request, h.response, ?_, hd, fun _ => hinit⟩
  have hle := maxTransactions_le s i
  rw [receive_k_toNat (by rw [consume_k]; omega), consume_k]
  omega

/-- The invariant of a state that differs in its phase and in the instants to come, and has a command in progress only where the
first one had. -/
theorem Inv.congr {s t : State} (h : Inv s) (hb : BindingOk t) (hc : t.cfg = s.cfg) (hq : t.req = s.req) (hr : t.rsp = s.rsp)
    (hk : t.k = s.k) (hp : t.phase = .issue ∨ t.phase = .wait → InProgress t) : Inv t where
  binding := hb
  request := by rw [hc, hq]; exact h.request
  response := by rw [hr]; exact h.response
  index := by rw [hk]; exact h.index
  progress := hp

/-- Every field at its reset value, whatever is still to come (R40, R290). -/
theorem inv_hardReset (s : State) : Inv (hardReset s) where
  binding := ⟨fun _ => ⟨rfl, rfl, rfl, rfl⟩, fun _ => ⟨rfl, rfl⟩, fun _ => rfl, hwaFits_zero s.cfg⟩
  request := requestOk_begin rfl rfl rfl
  response := ⟨fun h => absurd rfl h, fun _ => rfl, fun h => absurd h (by simp)⟩
  index := by simp
  progress h := absurd h (by simp)

theorem step_cases_of {s : State} {o : Result} (h : step s = o) : StepCase s o := h ▸ step_cases s

/-- Every step from a state that meets the invariant answers one that meets it. -/
theorem Inv.step {s t : State} (h : Inv s) (hs : step s = .next t) : Inv t := by
  have hb : BindingOk (consume s) := h.binding.congr rfl rfl rfl rfl rfl rfl
  cases step_cases_of hs with
  | reset _ => exact inv_hardReset _
  | illegal e _ _ _ _ => exact inv_endWith (h.binding.congr rfl rfl rfl rfl rfl rfl) h.request (by simp) (responseOk_error _ _)
  | accepted i o _ _ _ hd he => exact (h.resumable_latch hd).exec_inv he
  | issued _ hp _ =>
    exact h.congr (hb.congr rfl rfl rfl rfl rfl rfl) rfl rfl rfl rfl
      (fun _ => (h.progress (.inl hp)).congr ⟨rfl, rfl, rfl, rfl, rfl, rfl, rfl, rfl⟩ rfl rfl)
  | failed _ _ _ _ => exact inv_endWith hb h.request h.index (responseOk_error _ _)
  | continued i o _ hp _ _ hd he => exact (h.resumable_receive hp hd).exec_inv he
  | delivered _ _ _ =>
    exact h.congr (hb.congr rfl rfl rfl rfl rfl rfl) rfl rfl rfl rfl (fun hp => absurd hp (by simp))
  | nothing _ _ =>
    exact h.congr hb rfl rfl rfl rfl
      (fun hp => (h.progress hp).congr ⟨rfl, rfl, rfl, rfl, rfl, rfl, rfl, rfl⟩ rfl rfl)

end Sys2Proof.Machine

open Sys2Proof Sys2Proof.Machine

/-- Settles O46: the reset state is what a reset step leaves. -/
theorem invariantHoldsAtReset : Obligations.InvariantHoldsAtReset :=
  ⟨fun c => inv_hardReset (State.resetWith c), inv_hardReset State.reset⟩

/-- Settles O47, by the cases of a step: a command's meaning runs from `Resumable` states, and every other event keeps the
request in progress or leaves none. -/
theorem everyStepKeepsTheInvariant : Obligations.EveryStepKeepsTheInvariant := fun _ _ h hs => h.step hs

end

section
/-!
The frame of a command and of a step (10_state.md R21, R28 to R30): what a command's meaning leaves as it was, and which event
changes the binding and the address mode.
-/

namespace Sys2Proof.Machine

/-- What every command leaves as it was (R28 to R34), and that it writes the request or the response with the phase. -/
structure ExecFrame (s t : State) : Prop where
  cfg    : t.cfg = s.cfg
  cmd    : t.cmd = s.cmd
  k      : t.k = s.k
  rd     : t.rd = s.rd
  inputs : t.inputs = s.inputs
  writes : (t.phase = .issue ∧ t.rsp = s.rsp) ∨ (t.phase = .resp ∧ t.req = s.req)

theorem exec_frame {i : Instr} {s t : State} (he : exec i s = .next t) : ExecFrame s t := by
  cases exec_cases_of he
  case presents r => exact ⟨rfl, rfl, rfl, rfl, rfl, .inl ⟨rfl, rfl⟩⟩
  all_goals exact ⟨rfl, rfl, rfl, rfl, rfl, .inr ⟨rfl, rfl⟩⟩

/-- Initialisation or binding differ (R28, R29). -/
def BindingChanged (s t : State) : Prop :=
  t.init ≠ s.init ∨ t.bus ≠ s.bus ∨ t.i2cAddr ≠ s.i2cAddr ∨ t.hwAddr ≠ s.hwAddr

theorem not_bindingChanged {s t : State} (hi : t.init = s.init) (hb : t.bus = s.bus) (ha : t.i2cAddr = s.i2cAddr)
    (hh : t.hwAddr = s.hwAddr) : ¬ BindingChanged s t := by
  simp [BindingChanged, hi, hb, ha, hh]

/-- The end of a bind: all the binding at once, to what the bind names, with a response of status OK (R150 to R152). -/
structure Bound (i : Instr) (t : State) : Prop where
  init     : t.init = true
  haenOn   : t.haenOn = false
  phase    : t.phase = .resp
  status   : t.rsp.status = .ok
  names    : (∃ a, i = .bindI2c a ∧ t.bus = .i2c ∧ t.i2cAddr = a ∧ t.hwAddr = 0) ∨
    (∃ h, i = .bindSpi h ∧ t.bus = .spi ∧ t.i2cAddr = 0 ∧ t.hwAddr = h)

/-- A command changes the binding only at the end of a bind, past its one transaction. -/
theorem exec_bindingChanged {i : Instr} {s t : State} (he : exec i s = .next t) (hne : BindingChanged s t) :
    s.k ≠ 0 ∧ Bound i t := by
  cases exec_cases_of he
  case bindsI2c a hi hk => exact ⟨fun e => by simp [e] at hk, rfl, rfl, rfl, rfl, .inl ⟨a, hi, rfl, rfl, rfl⟩⟩
  case bindsSpi h hi hk => exact ⟨fun e => by simp [e] at hk, rfl, rfl, rfl, rfl, .inr ⟨h, hi, rfl, rfl, rfl⟩⟩
  all_goals exact absurd hne (not_bindingChanged rfl rfl rfl rfl)

/-- A command changes the address mode only past its transactions, with a response of status OK: to 1 at the end of
ENABLE_HW_ADDRESS_PINS on an SPI binding, to 0 at the end of a bind (R252, R254). -/
theorem exec_haenOn_changed {i : Instr} {s t : State} (he : exec i s = .next t) (hne : t.haenOn ≠ s.haenOn) :
    s.k ≠ 0 ∧ t.phase = .resp ∧ t.rsp.status = .ok ∧
      ((t.haenOn = true ∧ s.bus = .spi ∧ i = .enableHwAddressPins) ∨ (t.haenOn = false ∧ isBind i = true)) := by
  cases exec_cases_of he
  case bindsI2c a hi hk => exact ⟨fun e => by simp [e] at hk, rfl, rfl, .inr ⟨rfl, hi ▸ rfl⟩⟩
  case bindsSpi h hi hk => exact ⟨fun e => by simp [e] at hk, rfl, rfl, .inr ⟨rfl, hi ▸ rfl⟩⟩
  case enables hi hb hk => exact ⟨fun e => by simp [e] at hk, rfl, rfl, .inl ⟨rfl, hb, hi⟩⟩
  all_goals exact absurd rfl hne

/-- A step that is no reset either leaves initialisation, binding and address mode as they were, or runs the meaning of the word
accepted at index 0, or continues the latched command after a successful completion. -/
theorem step_frame {s t : State} (hs : step s = .next t) (hr : s.now.rst = false) :
    (¬ BindingChanged s t ∧ t.haenOn = s.haenOn) ∨
    (∃ i, exec i (latch s.now.cmdWord (consume s)) = .next t) ∨
    (∃ i, s.phase = .wait ∧ s.now.txDone = true ∧ s.now.txOk = true ∧ decode s.cfg s.cmd = .ok i ∧
      exec i (receive s.now.txRdata (consume s)) = .next t) := by
  cases step_cases_of hs with
  | reset hr' => exact absurd hr' (by simp [hr])
  | accepted i _ _ _ _ _ he => exact .inr (.inl ⟨i, he⟩)
  | continued i _ _ hp hv hk hd he => exact .inr (.inr ⟨i, hp, hv, hk, hd, he⟩)
  | illegal _ _ _ _ _ | issued _ _ _ | failed _ _ _ _ | delivered _ _ _ | nothing _ _ =>
    exact .inl ⟨not_bindingChanged rfl rfl rfl rfl, rfl⟩

/-- No step changes the parameters (R21). -/
theorem step_cfg {s t : State} (hs : step s = .next t) : t.cfg = s.cfg := by
  cases step_cases_of hs with
  | accepted i _ _ _ _ _ he => exact (exec_frame he).cfg
  | continued i _ _ _ _ _ _ he => exact (exec_frame he).cfg
  | reset _ | illegal _ _ _ _ _ | issued _ _ _ | failed _ _ _ _ | delivered _ _ _ | nothing _ _ => rfl

end Sys2Proof.Machine

open Sys2Proof Sys2Proof.Machine

/-- Settles O37, by the frame of a command's meaning and the two facts on what changes the binding and the address mode. -/
theorem commandsWriteNothingElse : Obligations.CommandsWriteNothingElse := by
  intro i s
  obtain ⟨t, he⟩ := exec_next i s
  obtain ⟨hcfg, hcmd, hk, hrd, hinputs, hwrites⟩ := exec_frame he
  refine ⟨t, he, hcfg, hcmd, hk, hrd, hinputs, hwrites, fun hi => ?_, fun hi hne => ?_, fun h => ?_⟩
  · by_contra h
    have hne : BindingChanged s t := by unfold BindingChanged; tauto
    obtain ⟨-, hb⟩ := exec_bindingChanged he hne
    rcases hb.names with ⟨a, rfl, -⟩ | ⟨a, rfl, -⟩ <;> cases hi
  · by_contra h
    obtain ⟨-, -, -, ⟨-, -, hen⟩ | ⟨-, hb⟩⟩ := exec_haenOn_changed he h
    · exact hne hen
    · simp [hi] at hb
  · by_cases hn : t.haenOn = s.haenOn
    · have hne : BindingChanged s t := by unfold BindingChanged; tauto
      obtain ⟨-, hb⟩ := exec_bindingChanged he hne
      exact ⟨hb.phase, hb.status⟩
    · obtain ⟨-, hp, hst, -⟩ := exec_haenOn_changed he hn
      exact ⟨hp, hst⟩

/-- Settles O38: of the steps that are no reset, only the end of a bind changes the binding, and an accepted word stands at
index 0. -/
theorem bindingChangesOnlyByASuccessfulBind : Obligations.BindingChangesOnlyByASuccessfulBind := by
  intro s t hs hr hne
  rcases step_frame hs hr with ⟨hkeep, -⟩ | ⟨i, he⟩ | ⟨i, hp, hv, hok, hd, he⟩
  · exact absurd hne hkeep
  · exact absurd rfl (exec_bindingChanged he hne).1
  · obtain ⟨-, hinit, hhaen, hphase, hstatus, hnames⟩ := exec_bindingChanged he hne
    refine ⟨hp, hv, hok, hinit, hhaen, hphase, hstatus, ?_⟩
    rcases hnames with ⟨a, rfl, h⟩ | ⟨a, rfl, h⟩
    · exact .inl ⟨a, hd, h⟩
    · exact .inr ⟨a, hd, h⟩

/-- Settles O39, by the same three kinds of step. -/
theorem addressModeChangesOnlyByItsCommand : Obligations.AddressModeChangesOnlyByItsCommand := by
  intro s t hs hr hne
  rcases step_frame hs hr with ⟨-, hkeep⟩ | ⟨i, he⟩ | ⟨i, hp, hv, hok, hd, he⟩
  · exact absurd hkeep hne
  · exact absurd rfl (exec_haenOn_changed he hne).1
  · obtain ⟨-, -, hstatus, ⟨ht, hb, rfl⟩ | ⟨hf, hbind⟩⟩ := exec_haenOn_changed he hne
    · exact ⟨hp, hv, hok, hstatus, .inl ⟨ht, hb, hd⟩⟩
    · exact ⟨hp, hv, hok, hstatus, .inr ⟨hf, i, hd, hbind⟩⟩

/-- Settles O40. -/
theorem parametersNeverChange : Obligations.ParametersNeverChange := fun _ _ hs => step_cfg hs

end

section
/-!
Bounded liveness: every accepted command is answered while the transport acts (10_state.md R25, R35).
-/

namespace Sys2Proof.Machine

/-! The step at an acceptance and at a completion, by the word. -/

theorem step_accept_legal {s : State} {i : Instr} (hr : s.now.rst = false) (hp : s.phase = .idle)
    (hv : s.now.cmdValid = true) (hd : decode s.cfg s.now.cmdWord = .ok i) :
    step s = exec i (latch s.now.cmdWord (consume s)) := by
  rw [step_accept hr hp hv]
  simp only [accept, consume_cfg, hd]

theorem step_accept_illegal {s : State} {e : DecodeError} (hr : s.now.rst = false) (hp : s.phase = .idle)
    (hv : s.now.cmdValid = true) (hd : decode s.cfg s.now.cmdWord = .error e) :
    step s = raise .illegalCommand 0 (latch s.now.cmdWord (consume s)) := by
  rw [step_accept hr hp hv]
  simp only [accept, consume_cfg, hd]

theorem step_complete_failed {s : State} (hr : s.now.rst = false) (hp : s.phase = .wait) (hv : s.now.txDone = true)
    (ho : s.now.txOk = false) : step s = raise .transportError s.now.txErr (consume s) := by
  rw [step_complete hr hp hv]
  simp [complete, ho]

theorem step_complete_ok {s : State} {i : Instr} (hr : s.now.rst = false) (hp : s.phase = .wait) (hv : s.now.txDone = true)
    (ho : s.now.txOk = true) (hd : decode s.cfg s.cmd = .ok i) :
    step s = exec i (receive s.now.txRdata (consume s)) := by
  rw [step_complete hr hp hv]
  simp only [complete, ho, if_true, runProgram, receive_cfg, receive_cmd, consume_cfg, consume_cmd, hd]

/-! The instants a command still needs. -/

/-- The word `w` is latched and is answered, or is a legal command below its count which still needs at most `n` instants of a
transport that acts: two for each transaction, one for the completion that is awaited. -/
structure AnsweredWithin (w : CommandWord) (n : Nat) (s : State) : Prop where
  cmd  : s.cmd = w
  here : s.phase = .resp ∨
    (∃ i, decode s.cfg s.cmd = .ok i) ∧ s.k.toNat < 6 ∧
      (s.phase = .issue ∧ 12 ≤ n + 2 * s.k.toNat ∨ s.phase = .wait ∧ 11 ≤ n + 2 * s.k.toNat)

/-- A command that goes on to ISSUE is below its count (R35). -/
theorem exec_issue_index {i : Instr} {s t : State} (he : exec i s = .next t) (hp : t.phase = .issue) :
    s.k.toNat < maxTransactions s i := by
  cases exec_cases_of he
  case presents r => exact exec_presents_index he
  all_goals exact absurd hp (by simp)

/-- A command's meaning answers its response, or presents a request with two instants for each transaction left. -/
theorem exec_answeredWithin {i : Instr} {s t : State} {n : Nat} (hd : decode s.cfg s.cmd = .ok i)
    (hn : 12 ≤ n + 2 * s.k.toNat) (he : exec i s = .next t) : AnsweredWithin s.cmd n t := by
  obtain ⟨hcfg, hcmd, hk, -, -, ⟨hp, -⟩ | ⟨hp, -⟩⟩ := exec_frame he
  · have hlt : s.k.toNat < 6 := (exec_issue_index he hp).trans_le (maxTransactions_le s i)
    exact ⟨hcmd, .inr ⟨⟨i, by rw [hcfg, hcmd]; exact hd⟩, hk ▸ hlt, .inl ⟨hp, hk ▸ hn⟩⟩⟩
  · exact ⟨hcmd, .inl hp⟩

/-- What a cooperative instant asserts. -/
theorem cooperative_iff {i : Inputs} :
    i.cooperative = true ↔ i.rst = false ∧ i.txReqReady = true ∧ i.txDone = true ∧ i.rspReady = false := by
  simp [Inputs.cooperative, and_assoc]

/-- A cooperative instant brings the answer nearer. -/
theorem AnsweredWithin.step {w : CommandWord} {n : Nat} {s : State} (h : AnsweredWithin w (n + 1) s)
    (hc : s.now.cooperative = true) : ∃ t, step s = .next t ∧ t.inputs = s.inputs.tail ∧ AnsweredWithin w n t := by
  obtain ⟨hrst, hready, hdone, hrsp⟩ := cooperative_iff.mp hc
  obtain ⟨rfl, hp | ⟨⟨i, hd⟩, hk, ⟨hp, hn⟩ | ⟨hp, hn⟩⟩⟩ := h
  · exact ⟨consume s, step_nothing (by simp [enabledEvent, hrst, hp, hrsp]), rfl, rfl, .inl hp⟩
  · exact ⟨issue (consume s), step_issue hrst hp hready, rfl, rfl,
      .inr ⟨⟨i, hd⟩, hk, .inr ⟨rfl, by rw [issue_k, consume_k]; omega⟩⟩⟩
  · cases hok : s.now.txOk with
    | false => exact ⟨_, step_complete_failed hrst hp hdone hok, rfl, rfl, .inl rfl⟩
    | true =>
      obtain ⟨t, he⟩ := exec_next i (receive s.now.txRdata (consume s))
      refine ⟨t, (step_complete_ok hrst hp hdone hok hd).trans he, (exec_frame he).inputs, ?_⟩
      refine exec_answeredWithin (s := receive s.now.txRdata (consume s)) hd ?_ he
      rw [receive_k_toNat (by rw [consume_k]; omega), consume_k]
      omega

/-- A run over cooperative instants, as many as the command still needs, reaches the response. -/
theorem AnsweredWithin.run {w : CommandWord} {l : List Inputs} (hl : ∀ i ∈ l, i.cooperative = true) {s : State}
    (hs : s.inputs = l) (h : AnsweredWithin w l.length s) :
    ∃ t, run l.length s = .next t ∧ t.phase = .resp ∧ t.cmd = w := by
  induction l generalizing s with
  | nil =>
    obtain ⟨hcmd, hp | ⟨-, hk, ⟨-, hn⟩ | ⟨-, hn⟩⟩⟩ := h
    · exact ⟨s, run_zero s, hp, hcmd⟩
    · simp only [List.length_nil] at hn; omega
    · simp only [List.length_nil] at hn; omega
  | cons i l ih =>
    have hnow : s.now = i := by simp [State.now, hs]
    obtain ⟨u, hu, hinputs, hw⟩ := h.step (hnow ▸ hl i List.mem_cons_self)
    obtain ⟨t, ht⟩ := ih (fun j hj => hl j (List.mem_cons_of_mem i hj)) (by rw [hinputs, hs]; rfl) hw
    exact ⟨t, by rw [List.length_cons, run_step hu]; exact ht.1, ht.2⟩

/-- An accepted word, legal or not, is answered within the 12 instants of 6 transactions (R35). -/
theorem accept_answeredWithin {s : State} (hr : s.now.rst = false) (hp : s.phase = .idle) (hv : s.now.cmdValid = true) :
    ∃ t, step s = .next t ∧ t.inputs = s.inputs.tail ∧ AnsweredWithin s.now.cmdWord 12 t := by
  cases hd : decode s.cfg s.now.cmdWord with
  | ok i =>
    obtain ⟨t, he⟩ := exec_next i (latch s.now.cmdWord (consume s))
    exact ⟨t, (step_accept_legal hr hp hv hd).trans he, (exec_frame he).inputs,
      exec_answeredWithin (s := latch s.now.cmdWord (consume s)) hd (by simp) he⟩
  | error e => exact ⟨_, step_accept_illegal hr hp hv hd, rfl, rfl, .inl rfl⟩

end Sys2Proof.Machine

open Sys2Proof Sys2Proof.Machine

/-- Settles O44: the word is accepted, and each instant in which the transport acts brings its answer nearer. -/
theorem everyAcceptedCommandIsAnswered : Obligations.EveryAcceptedCommandIsAnswered := by
  intro s w l hp hl hc
  obtain ⟨t, hs, hinputs, ht⟩ := accept_answeredWithin (s := { s with inputs := Inputs.command w :: l }) rfl hp rfl
  obtain ⟨u, hu, hphase, hcmd⟩ := AnsweredWithin.run hc hinputs (hl ▸ ht)
  exact ⟨u, by rw [run_step hs, ← hl]; exact hu, hphase, hcmd⟩

end

section
/-!
Noninterference: two machines ready to accept with one binding show the same for ever (10_state.md R20, R34, R37).
-/

namespace Sys2Proof.Machine

/-- Two states that show the same, with the same binding, and with the same command in progress while a request is outstanding;
`S.cmd`, `S.k`, `S.rd` and the registers that are not shown may differ otherwise. -/
structure Matched (s t : State) : Prop where
  binding  : SameBinding s t
  outside  : SameOutside s t
  progress : s.phase = .issue ∨ s.phase = .wait →
    s.cmd = t.cmd ∧ s.k = t.k ∧ s.rd = t.rd ∧ ∃ i, decode s.cfg s.cmd = .ok i

/-- The answers of one step of two machines: both go on, to matched states. -/
def MatchedAnswers (o p : Result) : Prop := ∃ s t, o = .next s ∧ p = .next t ∧ Matched s t

/-- Both machines end their command with the same response. -/
theorem matched_endWith {s t : State} (r : Response) (hb : SameBinding s t) : Matched (endWith r s) (endWith r t) where
  binding := ⟨hb.cfg, hb.init, hb.bus, hb.i2cAddr, hb.hwAddr, hb.haenOn, hb.inputs⟩
  outside := ⟨rfl, fun h => absurd h (by simp), fun _ => rfl⟩
  progress h := absurd h (by simp)

/-- The meaning of one command, run from two states that agree on all it looks at. -/
theorem exec_matched {i : Instr} {s t : State} (hb : SameBinding s t) (hc : s.cmd = t.cmd) (hk : s.k = t.k)
    (hrd : s.rd = t.rd) (hd : decode s.cfg s.cmd = .ok i) : MatchedAnswers (exec i s) (exec i t) := by
  have hsame := exec_same i (⟨hb.cfg, hb.init, hb.bus, hb.i2cAddr, hb.hwAddr, hb.haenOn, hk, hrd⟩ : SameView s t)
  generalize exec i s = o, exec i t = p at hsame
  cases hsame with
  | presents r =>
    exact ⟨_, _, rfl, rfl, ⟨hb.cfg, hb.init, hb.bus, hb.i2cAddr, hb.hwAddr, hb.haenOn, hb.inputs⟩,
      ⟨rfl, fun _ => rfl, fun h => absurd h (by simp)⟩, fun _ => ⟨hc, hk, hrd, i, hd⟩⟩
  | ends r => exact ⟨_, _, rfl, rfl, matched_endWith r hb⟩
  | binds r b a h => exact ⟨_, _, rfl, rfl, matched_endWith r ⟨hb.cfg, rfl, rfl, rfl, rfl, rfl, hb.inputs⟩⟩
  | enables r =>
    exact ⟨_, _, rfl, rfl, matched_endWith r ⟨hb.cfg, hb.init, hb.bus, hb.i2cAddr, hb.hwAddr, rfl, hb.inputs⟩⟩

/-! Matched machines match after every event. -/

/-- An acceptance: all that earlier commands left in `S.cmd`, `S.k` and `S.rd` is overwritten (R141). -/
theorem accept_matched {s t : State} (w : CommandWord) (hb : SameBinding s t) :
    MatchedAnswers (accept w s) (accept w t) := by
  have hl : SameBinding (latch w s) (latch w t) := ⟨hb.cfg, hb.init, hb.bus, hb.i2cAddr, hb.hwAddr, hb.haenOn, hb.inputs⟩
  unfold accept
  rw [← hb.cfg]
  cases hd : decode s.cfg w with
  | ok i => exact exec_matched hl rfl rfl rfl hd
  | error e => exact ⟨_, _, rfl, rfl, matched_endWith _ hl⟩

/-- A completion: the same request was outstanding, so the same data are received (R145, R146). -/
theorem complete_matched {s t : State} (ok : Bool) (err : Byte) (rdata : BitVec 16) (h : Matched s t)
    (hp : s.phase = .wait) : MatchedAnswers (complete ok err rdata s) (complete ok err rdata t) := by
  have hb := h.binding
  obtain ⟨hcmd, hk, hrd, i, hd⟩ := h.progress (.inr hp)
  have hreq := h.outside.request (.inr hp)
  have hd' : decode t.cfg t.cmd = .ok i := by rw [← hb.cfg, ← hcmd]; exact hd
  cases ok with
  | false => exact ⟨_, _, rfl, rfl, matched_endWith _ hb⟩
  | true =>
    simp only [complete, if_true, runProgram, receive_cfg, receive_cmd, hd, hd']
    exact exec_matched (s := receive rdata s) ⟨hb.cfg, hb.init, hb.bus, hb.i2cAddr, hb.hwAddr, hb.haenOn, hb.inputs⟩ hcmd
      (by simp only [receive_k, hk]) (by simp only [receive_rd, hreq, hrd]) hd

/-- A request is issued in ISSUE only (R144). -/
theorem phase_of_issue {p : Phase} {i : Inputs} (h : enabledEvent p i = some .issue) : p = .issue := by
  cases p <;> simp [enabledEvent, ite_eq_iff] at h ⊢

/-- A completion is received in WAIT only (R145). -/
theorem phase_of_complete {p : Phase} {i : Inputs} {ok : Bool} {err : Byte} {rdata : BitVec 16}
    (h : enabledEvent p i = some (.complete ok err rdata)) : p = .wait := by
  cases p <;> simp [enabledEvent, ite_eq_iff] at h ⊢

theorem fire_matched {s t : State} {i : Inputs} {e : Event} (h : Matched s t) (he : enabledEvent s.phase i = some e) :
    MatchedAnswers (fire e s) (fire e t) := by
  have hb := h.binding
  cases e with
  | accept w => exact accept_matched w hb
  | issue =>
    have hp : s.phase = .issue ∨ s.phase = .wait := .inl (phase_of_issue he)
    exact ⟨_, _, rfl, rfl, ⟨hb.cfg, hb.init, hb.bus, hb.i2cAddr, hb.hwAddr, hb.haenOn, hb.inputs⟩,
      ⟨rfl, fun _ => h.outside.request hp, fun hr => absurd hr (by simp)⟩, fun _ => h.progress hp⟩
  | complete ok err rdata => exact complete_matched ok err rdata h (phase_of_complete he)
  | deliver =>
    exact ⟨_, _, rfl, rfl, ⟨hb.cfg, hb.init, hb.bus, hb.i2cAddr, hb.hwAddr, hb.haenOn, hb.inputs⟩,
      ⟨rfl, fun hp => absurd hp (by simp), fun hp => absurd hp (by simp)⟩, fun hp => absurd hp (by simp)⟩
  | reset =>
    exact ⟨_, _, rfl, rfl, ⟨hb.cfg, rfl, rfl, rfl, rfl, rfl, hb.inputs⟩, ⟨rfl, fun _ => rfl, fun _ => rfl⟩,
      fun hp => absurd hp (by simp)⟩

theorem react_matched {s t : State} (i : Inputs) (h : Matched s t) : MatchedAnswers (react i s) (react i t) := by
  unfold react
  rw [← h.outside.phase]
  cases he : enabledEvent s.phase i with
  | none => exact ⟨s, t, rfl, rfl, h⟩
  | some e => exact fire_matched h he

/-- Two matched machines match after every step, and neither stops. -/
theorem Matched.step {s t : State} (h : Matched s t) : MatchedAnswers (step s) (step t) := by
  have hb := h.binding
  have hnow : t.now = s.now := by simp only [State.now, hb.inputs]
  have hc : Matched (consume s) (consume t) :=
    ⟨⟨hb.cfg, hb.init, hb.bus, hb.i2cAddr, hb.hwAddr, hb.haenOn, congrArg List.tail hb.inputs⟩,
      ⟨h.outside.phase, h.outside.request, h.outside.response⟩, h.progress⟩
  unfold Machine.step
  rw [hnow]
  exact react_matched s.now hc

/-- Two matched machines match after every run, and neither stops. -/
theorem Matched.run {s t : State} (h : Matched s t) (n : Nat) : MatchedAnswers (run n s) (run n t) := by
  induction n generalizing s t with
  | zero => exact ⟨s, t, rfl, rfl, h⟩
  | succ n ih =>
    obtain ⟨s', t', hs, ht, h'⟩ := h.step
    rw [run_step hs, run_step ht]
    exact ih h'

/-- Ready to accept, nothing is in progress and nothing is shown. -/
theorem matched_of_idle {s t : State} (hb : SameBinding s t) (hs : s.phase = .idle) (ht : t.phase = .idle) : Matched s t where
  binding := hb
  outside := ⟨hs.trans ht.symm, fun h => absurd h (by simp [hs]), fun h => absurd h (by simp [hs])⟩
  progress h := absurd h (by simp [hs])

end Sys2Proof.Machine

open Sys2Proof Sys2Proof.Machine

/-- Settles O45: two machines ready to accept with one binding match, and matched machines match for ever. -/
theorem commandsLeaveNoMemory : Obligations.CommandsLeaveNoMemory := by
  intro s t hb hs ht n
  obtain ⟨s', t', hs', ht', h⟩ := (matched_of_idle hb hs ht).run n
  exact ⟨s', t', hs', ht', h.outside, h.binding⟩

end

section
/-!
The output signals (10_state.md R23 to R26) and the counts of transactions (R35).
-/

namespace Sys2Proof.Machine

/-! The ready and valid signals are the phase (R23 to R25). -/

@[simp] theorem cmdReady_iff (s : State) : cmdReady s = true ↔ s.phase = .idle := by simp [cmdReady]
@[simp] theorem txReqValid_iff (s : State) : txReqValid s = true ↔ s.phase = .issue := by simp [txReqValid]
@[simp] theorem rspValid_iff (s : State) : rspValid s = true ↔ s.phase = .resp := by simp [rspValid]

/-! How many requests the pseudocode of a command lists (R35). -/

@[simp] theorem effect_requests (s : State) (l : List Request) (r : Response) : (effect s l r).requests = l := rfl

@[simp] theorem rmwRequests_length (s : State) (a : RegAddr) (b : BitIndex) (d : Bool) (v : BitVec 16) :
    (rmwRequests s a b d v).length = 2 := rfl

/-- LAST_INTERRUPT_PIN reads INTF B exactly when INTF A has no flag and there is a port B (R235). -/
theorem lastInterruptEffect_length (s : State) (fa fb : Byte) :
    (lastInterruptEffect s fa fb).requests.length = if s.cfg.pinCount = .sixteen ∧ fa = 0#8 then 2 else 1 := by
  unfold lastInterruptEffect
  by_cases ha : fa = 0
  · cases hc : s.cfg.pinCount with
    | eight => simp [ha]
    | sixteen => by_cases hb : fb = 0#8 <;> simp [ha, hb]
  · rw [if_pos ha, if_neg (fun h => ha h.2)]
    rfl

/-- ENABLE_HW_ADDRESS_PINS writes nothing on I2C, and once for each port on SPI (R250). -/
theorem enableHwAddressEffect_length (s : State) :
    (enableHwAddressEffect s).requests.length = maxTransactions s .enableHwAddressPins := by
  unfold enableHwAddressEffect
  cases hb : s.bus <;> cases hc : s.cfg.pinCount <;> simp [maxTransactions, hb, hc]

/-- Every command but LAST_INTERRUPT_PIN issues the number of transactions R35 gives it. -/
theorem commandBody_length {i : Instr} (hi : i ≠ .lastInterruptPin) (s : State) (d : Nat → BitVec 16) :
    (commandBody i s d).requests.length = maxTransactions s i := by
  cases i with
  | lastInterruptPin => exact absurd rfl hi
  | enablePinInterrupt pin trig => cases trig <;> simp [commandBody, maxTransactions]
  | enableHwAddressPins => exact enableHwAddressEffect_length s
  | _ => simp [commandBody, maxTransactions]

end Sys2Proof.Machine

open Sys2Proof Sys2Proof.Machine

/-- Settles O10: each output is a field of the state or its code, or a function of the decoder port's inputs. -/
theorem outputsShowTheState : Obligations.OutputsShowTheState := fun s =>
  ⟨cmdReady_iff s, txReqValid_iff s, rspValid_iff s, rfl, rfl, rfl, rfl, rfl, rfl, rfl, rfl, rfl, rfl, rfl, rfl, rfl, rfl, rfl⟩

/-- Settles O42, by the length of each command's request list; LAST_INTERRUPT_PIN's depends on what INTF A reads. -/
theorem transactionCounts : Obligations.TransactionCounts := by
  intro i s d
  have hlast := lastInterruptEffect_length s ((d 0).extractLsb' 0 8) ((d 1).extractLsb' 0 8)
  refine ⟨?_, maxTransactions_le s i, fun hi => commandBody_length hi s d, ?_⟩
  · by_cases hi : i = .lastInterruptPin
    · subst hi
      refine hlast.trans_le ?_
      cases hc : s.cfg.pinCount <;> simp [maxTransactions, hc]
      split <;> omega
    · exact (commandBody_length hi s d).le
  · rintro rfl
    exact hlast

end

section
/-!
The register maps of both variants and the addresses a command emits (20_memory.md R51 to R54, R61), and the fields of its
requests (R55 to R58).
-/

namespace Sys2Proof.Machine

/-! The register maps (R51, R52, R116). -/

theorem resolve_of_sixteen {c : Config} (h : c.pinCount = .sixteen) (reg : LogicalReg) (port : Port) :
    resolve c reg port = reg.id.setWidth 8 * 2 + (portBit port).setWidth 8 := by simp only [resolve, resolveId, h]

theorem resolve_of_eight {c : Config} (h : c.pinCount = .eight) (reg : LogicalReg) (port : Port) :
    resolve c reg port = reg.id.setWidth 8 := by simp only [resolve, resolveId, h]

theorem LogicalReg.id_injective {r q : LogicalReg} (h : r.id = q.id) : r = q := by
  cases r <;> cases q <;> revert h <;> decide

theorem portBit_injective {p q : Port} (h : portBit p = portBit q) : p = q := by
  cases p <;> cases q <;> revert h <;> decide

/-- On the 16-pin variant an address names one register of one port (R51). -/
theorem resolve_injective {c : Config} (hc : c.pinCount = .sixteen) {r q : LogicalReg} {p o : Port}
    (h : (resolve c r p).toNat = (resolve c q o).toNat) : r = q ∧ p = o := by
  have hp := (portBit p).isLt
  have ho := (portBit o).isLt
  rw [resolve_toNat_sixteen hc, resolve_toNat_sixteen hc] at h
  exact ⟨LogicalReg.id_injective (BitVec.eq_of_toNat_eq (by omega)), portBit_injective (BitVec.eq_of_toNat_eq (by omega))⟩

/-! The addresses with a duty of their own: INTF B at 0x0F and INTCAP B at 0x11 of the 16-pin variant (R54). -/

/-- An access names INTCAP through port A only, INTF for LAST_INTERRUPT_PIN only, and two bytes from port A only (R54). -/
theorem Access.interruptRegister {i : Instr} {c : Config} {a : RegAddr} {n : Width} (h : Access i c a n) :
    ∃ reg port, a = resolve c reg port ∧ (reg = .intcap → port = .A) ∧ (reg = .intf → i = .lastInterruptPin) ∧
      (n = .two → port = .A) := by
  have hw : portWriteReg c ≠ .intcap ∧ portWriteReg c ≠ .intf := by
    rcases portWriteReg_cases c with h | ⟨h, -⟩ <;> simp [h]
  cases h with
  | byte reg port h =>
    have hreg : reg ≠ .intcap ∧ reg ≠ .intf := by
      rcases h with rfl | rfl | rfl | rfl | rfl | rfl | rfl
      case inr.inr.inr.inr.inr.inr => exact hw
      all_goals simp
    exact ⟨reg, port, rfl, fun e => absurd e hreg.1, fun e => absurd e hreg.2, by simp⟩
  | iocon => exact ⟨.iocon, .A, rfl, by simp, by simp, by simp⟩
  | intfA hi => exact ⟨.intf, .A, rfl, by simp, fun _ => hi, by simp⟩
  | intfB hi _ => exact ⟨.intf, .B, rfl, by simp, fun _ => hi, by simp⟩
  | intcap => exact ⟨.intcap, .A, rfl, fun _ => rfl, by simp, fun _ => rfl⟩
  | pair reg h _ =>
    have hreg : reg ≠ .intf := by
      rcases h with rfl | rfl
      · simp
      · exact hw.2
    exact ⟨reg, .A, rfl, fun _ => rfl, fun e => absurd e hreg, fun _ => rfl⟩

/-- No access starts at INTCAP B (R54). -/
theorem Access.start_ne_intcapB {i : Instr} {c : Config} {a : RegAddr} {n : Width} (h : Access i c a n)
    (hc : c.pinCount = .sixteen) : a.toNat ≠ 0x11 := by
  obtain ⟨reg, port, rfl, hcap, -, -⟩ := h.interruptRegister
  intro h11
  have hB : (resolve c .intcap .B).toNat = 0x11 := resolve_toNat_sixteen hc .intcap .B
  obtain ⟨rfl, rfl⟩ := resolve_injective hc (h11.trans hB.symm)
  exact absurd (hcap rfl) (by simp)

/-- LAST_INTERRUPT_PIN alone touches INTF B (R54). -/
theorem Access.lastInterruptPin_of_intfB {i : Instr} {c : Config} {a : RegAddr} {n : Width} (h : Access i c a n)
    (hc : c.pinCount = .sixteen) (hm : 0x0F ∈ (List.range n.bytes).map (a.toNat + ·)) : i = .lastInterruptPin := by
  obtain ⟨reg, port, rfl, -, hintf, htwo⟩ := h.interruptRegister
  have hB : (resolve c .intf .B).toNat = 0x0F := resolve_toNat_sixteen hc .intf .B
  have hport (p : Port) (h : (resolve c reg p).toNat = 0x0F) : i = .lastInterruptPin :=
    hintf (resolve_injective hc (h.trans hB.symm)).1
  cases n with
  | one => exact hport port (by simpa [Width.bytes, eq_comm] using hm)
  | two =>
    obtain rfl := htwo rfl
    have hsucc := resolve_A_succ hc reg
    have hm' : (resolve c reg .A).toNat = 0x0F ∨ (resolve c reg .A).toNat + 1 = 0x0F := by
      simpa [Width.bytes, List.range_succ, eq_comm] using hm
    exact hm'.elim (hport .A) (fun h => hport .B (hsucc ▸ h))

/-- A request other than a begin is one of the command's accesses. -/
theorem Presents.access {i : Instr} {s : State} {r : Request} (h : Presents i s r) (hk : r.kind ≠ .begin) :
    ∃ a n, Access i s.cfg a n ∧ requestAddress r = a.toNat ∧ touched r = (List.range n.bytes).map (a.toNat + ·) := by
  cases h with
  | beginI2c a _ => exact absurd rfl hk
  | beginSpi h _ => exact absurd rfl hk
  | read a n h => exact ⟨a, n, h, requestAddress_read .., touched_read ..⟩
  | write f a n v h _ => exact ⟨a, n, h, requestAddress_write .., touched_write ..⟩

/-! The fields of a request, by the bus of the binding (R55 to R58). -/

theorem writeRequest_i2c {s : State} (h : s.bus = .i2c) (f : HwAddr) (a : RegAddr) (n : Width) (v : BitVec 16) :
    writeRequest s f a n v =
      ⟨.write, .i2c, s.i2cAddr, BitVec.ofNat 3 (n.bytes + 1), packBytes (a :: dataBytes n v), 0⟩ := by
  simp [writeRequest, addressBytes, deviceOf, h, dataBytes_length]

theorem readRequest_i2c {s : State} (h : s.bus = .i2c) (f : HwAddr) (a : RegAddr) (n : Width) :
    readRequest s f a n = ⟨.writeRead, .i2c, s.i2cAddr, 1, packBytes [a], BitVec.ofNat 2 n.bytes⟩ := by
  simp [readRequest, addressBytes, deviceOf, h]

theorem writeRequest_spi {s : State} (h : s.bus = .spi) (f : HwAddr) (a : RegAddr) (n : Width) (v : BitVec 16) :
    writeRequest s f a n v =
      ⟨.write, .spi, 0, BitVec.ofNat 3 (n.bytes + 2), packBytes (spiOpcode s.cfg false f :: a :: dataBytes n v), 0⟩ := by
  simp [writeRequest, addressBytes, deviceOf, h, dataBytes_length]

theorem readRequest_spi {s : State} (h : s.bus = .spi) (f : HwAddr) (a : RegAddr) (n : Width) :
    readRequest s f a n =
      ⟨.writeRead, .spi, 0, 2, packBytes [spiOpcode s.cfg true f, a], BitVec.ofNat 2 n.bytes⟩ := by
  simp [readRequest, addressBytes, deviceOf, h]

/-- The opcodes of a read and a write of one register differ in bit 0 and nowhere else (R120). -/
theorem spiOpcode_xor (c : Config) (f : HwAddr) : spiOpcode c true f ^^^ spiOpcode c false f = 1 := by
  apply BitVec.eq_of_getLsbD_eq
  intro j _
  rw [BitVec.getLsbD_xor, spiOpcode_getLsbD, spiOpcode_getLsbD]
  by_cases hj : j < 1
  · obtain rfl : j = 0 := by omega
    rfl
  · have h1 : (1 : Byte).getLsbD j = false := by simpa using hj
    rw [if_neg hj, if_neg hj, Bool.xor_self, h1]

end Sys2Proof.Machine

open Sys2Proof Sys2Proof.Machine

/-- Settles O41: a presented request is one of the command's accesses, and accesses keep to R54 and R61. -/
theorem onlyTheMappedAddressesAreEmitted : Obligations.OnlyTheMappedAddressesAreEmitted := by
  intro i s t he hp hk
  have hr := exec_presents he hp
  obtain ⟨a, n, ha, hstart, htouched⟩ := hr.access hk
  refine ⟨hr.requestOk.width hk, hr.requestOk.addresses, fun hc => ?_, fun hc hm => ?_, hr.requestOk.pairs⟩
  · rw [hstart]
    exact ha.start_ne_intcapB hc
  · rw [htouched] at hm
    exact ha.lastInterruptPin_of_intfB hc hm

/-- Settles O19, by the resolver's formula on each variant. -/
theorem registerMaps : Obligations.RegisterMaps := by
  refine fun c => ⟨fun h => ?_, fun h port => ?_⟩
  · simp only [resolve_of_sixteen h]
    decide
  · simp only [resolve_of_eight h]
    decide

/-- Settles O22, by the wire bytes of each length. -/
theorem i2cRequests : Obligations.I2cRequests := by
  intro s f a v h
  refine ⟨?_, ?_, ?_, ?_⟩
  · rw [writeRequest_i2c h, dataBytes_one, packBytes_two]; rfl
  · rw [writeRequest_i2c h, dataBytes_two, packBytes_three]; rfl
  · rw [readRequest_i2c h, packBytes_one]; rfl
  · rw [readRequest_i2c h, packBytes_one]; rfl

/-- Settles O23, by the wire bytes of each length. -/
theorem spiRequests : Obligations.SpiRequests := by
  intro s f a v h
  refine ⟨?_, ?_, ?_, ?_, spiOpcode_xor s.cfg f⟩
  · rw [writeRequest_spi h, dataBytes_one, packBytes_three]; rfl
  · rw [writeRequest_spi h, dataBytes_two, packBytes_four]; rfl
  · rw [readRequest_spi h, packBytes_two]; rfl
  · rw [readRequest_spi h, packBytes_two]; rfl

end

section
/-!
What selecting a row means for a decoder (30_encoding.md R84 to R86): the rows are disjoint, so any row of the map that selects a
word is the row the decoder reads its operands by; and which operands a row reads as an error.
-/

namespace Sys2Proof

/-- "A word w selects the row when `(w & mask) = match`" (R84). -/
theorem OpcodeRow.selects_iff {r : OpcodeRow} {w : CommandWord} : r.selects w = true ↔ w &&& r.mask = r.pattern := beq_iff_eq

/-- Two rows that select one word agree on the bits both masks keep. -/
theorem OpcodeRow.patterns_agree {r r' : OpcodeRow} {w : CommandWord} (h : r.selects w = true) (h' : r'.selects w = true) :
    r.pattern &&& r'.mask = r'.pattern &&& r.mask := by
  rw [← OpcodeRow.selects_iff.1 h, ← OpcodeRow.selects_iff.1 h', BitVec.and_assoc, BitVec.and_assoc, BitVec.and_comm r.mask]

/-- Two rows of the map whose patterns agree on the bits both masks keep are the same row. -/
theorem opcodeMap_patterns_disagree :
    ∀ r ∈ opcodeMap, ∀ r' ∈ opcodeMap, r.pattern &&& r'.mask = r'.pattern &&& r.mask → r = r' := by decide

/-- At most one row of the map selects a word. -/
theorem selects_unique {w : CommandWord} {r r' : OpcodeRow} (hr : r ∈ opcodeMap) (hr' : r' ∈ opcodeMap)
    (h : r.selects w = true) (h' : r'.selects w = true) : r = r' :=
  opcodeMap_patterns_disagree r hr r' hr' (OpcodeRow.patterns_agree h h')

theorem selectRow_eq_some_iff {w : CommandWord} {r : OpcodeRow} :
    selectRow w = some r ↔ r ∈ opcodeMap ∧ r.selects w = true := by
  have found {q : OpcodeRow} (h : selectRow w = some q) : q ∈ opcodeMap ∧ q.selects w = true :=
    ⟨List.mem_of_find?_eq_some h, (List.find?_some h :)⟩
  refine ⟨found, fun ⟨hr, hs⟩ => ?_⟩
  obtain ⟨q, hq⟩ := Option.isSome_iff_exists.1 (List.find?_isSome (p := (OpcodeRow.selects · w)).2 ⟨r, hr, hs⟩)
  obtain ⟨hqm, hqs⟩ := found hq
  exact selects_unique hr hqm hs hqs ▸ hq

theorem selectRow_eq_none_iff {w : CommandWord} : selectRow w = none ↔ ∀ r ∈ opcodeMap, w &&& r.mask ≠ r.pattern := by
  simp [selectRow, OpcodeRow.selects]

/-- A row of the map that selects the word is the one its operands are read by. -/
theorem decode_of_selects (c : Config) {w : CommandWord} {r : OpcodeRow} (hr : r ∈ opcodeMap)
    (h : w &&& r.mask = r.pattern) : decode c w = readOperands c r.op w := by
  rw [decode, selectRow_eq_some_iff.2 ⟨hr, OpcodeRow.selects_iff.2 h⟩]

/-- A word of no row is illegal, with the reason R86 gives it. -/
theorem decode_of_no_row (c : Config) {w : CommandWord} (h : ∀ r ∈ opcodeMap, w &&& r.mask ≠ r.pattern) :
    decode c w = .error (if opField w = 0 then .reservedOpcode else .reservedBits) := by
  simp only [decode, selectRow_eq_none_iff.2 h]
  split <;> rfl

/-- A word that decodes selects a row of the map, whose operands it decodes to. -/
theorem selects_of_decode {c : Config} {w : CommandWord} {i : Instr} (h : decode c w = .ok i) :
    ∃ r ∈ opcodeMap, r.selects w = true ∧ readOperands c r.op w = .ok i := by
  unfold decode at h
  split at h
  · next r hr =>
    obtain ⟨hmem, hsel⟩ := selectRow_eq_some_iff.1 hr
    exact ⟨r, hmem, hsel, h⟩
  · split at h <;> cases h

theorem hwaFits_of_sixteen {c : Config} (h : c.pinCount = .sixteen) (f : HwAddr) : hwaFits c f = true := by
  rw [hwaFits, h]
  exact decide_eq_true f.isLt

theorem hwaFits_of_eight {c : Config} (h : c.pinCount = .eight) (f : HwAddr) : hwaFits c f = !f.getLsbD 2 := by
  rw [hwaFits, h]
  revert f
  decide

/-- `HWA[2] = 1` on the 8-pin variant is what does not fit (R85). -/
theorem hwaFits_hwaField_eq_false_iff {c : Config} {w : CommandWord} :
    hwaFits c (hwaField w) = false ↔ w.getLsbD 2 = true ∧ c.pinCount = .eight := by
  cases h : c.pinCount with
  | eight => simp [hwaFits_of_eight h, hwaField]
  | sixteen => simp [hwaFits_of_sixteen h]

/-- The value 3 is the one MODE that is reserved (R82). -/
theorem modeOfCode_eq_none_iff {m : BitVec 2} : modeOfCode m = none ↔ m = 3#2 := by revert m; decide

/-- The value 3 is the one TRIG that is reserved (R82). -/
theorem triggerOfCode_eq_none_iff {g : BitVec 2} : triggerOfCode g = none ↔ g = 3#2 := by revert g; decide

theorem readOperands_bindSpi {c : Config} {w : CommandWord} (h : hwaFits c (hwaField w) = true) :
    readOperands c .bindSpi w = .ok (.bindSpi (hwaField w)) := by simp only [readOperands, h, if_true]

theorem readOperands_setPinMode {c : Config} {w : CommandWord} {m : PinMode} (h : modeOfCode (modeField w) = some m) :
    readOperands c .setPinMode w = .ok (.setPinMode (pinField w) m) := by simp only [readOperands, h]

theorem readOperands_enablePinInterrupt {c : Config} {w : CommandWord} {g : Trigger}
    (h : triggerOfCode (modeField w) = some g) :
    readOperands c .enablePinInterrupt w = .ok (.enablePinInterrupt (pinField w) g) := by simp only [readOperands, h]

/-- The value constraints of R85: the operands of a row are an error exactly for a reserved MODE or TRIG and for an HWA that is too
wide. -/
theorem readOperands_error_iff {c : Config} {op : Opcode} {w : CommandWord} :
    (∃ e, readOperands c op w = .error e) ↔
      op = .setPinMode ∧ modeField w = 3#2 ∨ op = .enablePinInterrupt ∧ modeField w = 3#2 ∨
        op = .bindSpi ∧ w.getLsbD 2 = true ∧ c.pinCount = .eight := by
  rw [← hwaFits_hwaField_eq_false_iff]
  cases op with
  | bindSpi => cases h : hwaFits c (hwaField w) <;> simp [readOperands, h]
  | setPinMode =>
    rw [← modeOfCode_eq_none_iff]
    cases h : modeOfCode (modeField w) <;> simp [readOperands, h]
  | enablePinInterrupt =>
    rw [← triggerOfCode_eq_none_iff]
    cases h : triggerOfCode (modeField w) <;> simp [readOperands, h]
  | _ => simp [readOperands]

/-- Why a word does not decode: no row selects it, or the row that does reads its operands as an error. -/
theorem decode_error_iff {c : Config} {w : CommandWord} :
    (∃ e, decode c w = .error e) ↔
      (∀ r ∈ opcodeMap, w &&& r.mask ≠ r.pattern) ∨
        ∃ r ∈ opcodeMap, w &&& r.mask = r.pattern ∧ ∃ e, readOperands c r.op w = .error e := by
  constructor
  · intro h
    by_cases hn : ∀ r ∈ opcodeMap, w &&& r.mask ≠ r.pattern
    · exact .inl hn
    · push Not at hn
      obtain ⟨r, hr, hs⟩ := hn
      exact .inr ⟨r, hr, hs, decode_of_selects c hr hs ▸ h⟩
  · rintro (hn | ⟨r, hr, hs, h⟩)
    · exact ⟨_, decode_of_no_row c hn⟩
    · exact decode_of_selects c hr hs ▸ h

/-- OP is within the mask of every row, and no row's OP is 0 (R84, R86). -/
theorem opcodeMap_opField : ∀ r ∈ opcodeMap, opField r.mask = 0xF#4 ∧ opField r.pattern ≠ 0#4 := by decide

/-- A row of the map is the only one of its name. -/
theorem opcodeMap_op_injective : ∀ r ∈ opcodeMap, ∀ r' ∈ opcodeMap, r.op = r'.op → r = r' := by decide

/-- No row selects a word with OP = 0 (R86). -/
theorem no_row_of_opField_zero {w : CommandWord} (h : opField w = 0#4) : ∀ r ∈ opcodeMap, w &&& r.mask ≠ r.pattern := by
  intro r hr hs
  have hop : opField r.pattern = opField w &&& opField r.mask := by rw [← hs, opField, BitVec.extractLsb'_and]; rfl
  refine (opcodeMap_opField r hr).2 ?_
  rw [hop, h, BitVec.zero_and]

end Sys2Proof

open Sys2Proof Sys2Proof.Machine

/-- Settles O13: two rows that select a word agree where both masks look, and two different rows of the map do not. -/
theorem noWordSelectsTwoRows : Obligations.NoWordSelectsTwoRows := fun _ _ _ => selects_unique

/-- Settles O14, by the two reasons a word does not decode and the value constraints of each row. -/
theorem illegalWordsAreExactlyTheReservedOnes : Obligations.IllegalWordsAreExactlyTheReservedOnes := by
  refine ⟨fun c w => decode_error_iff.trans (or_congr_right ⟨?_, ?_⟩), fun c w h => ?_⟩
  · rintro ⟨r, hr, hs, he⟩
    have row (q : OpcodeRow) (hop : r.op = q.op) (hq : q ∈ opcodeMap := by decide) : w &&& q.mask = q.pattern :=
      opcodeMap_op_injective r hr q hq hop ▸ hs
    rcases readOperands_error_iff.1 he with ⟨hop, hmode⟩ | ⟨hop, htrig⟩ | ⟨hop, hwide⟩
    · exact .inl ⟨row ⟨.setPinMode, 0x30000000, 0xFC00FFFF⟩ hop, hmode⟩
    · exact .inr (.inl ⟨row ⟨.enablePinInterrupt, 0xB0000000, 0xFC00FFFF⟩ hop, htrig⟩)
    · exact .inr (.inr ⟨row ⟨.bindSpi, 0x20000000, 0xFFFFFFF8⟩ hop, hwide⟩)
  · rintro (⟨hs, hmode⟩ | ⟨hs, htrig⟩ | ⟨hs, hwide⟩)
    · exact ⟨⟨.setPinMode, _, _⟩, by decide, hs, readOperands_error_iff.2 (.inl ⟨rfl, hmode⟩)⟩
    · exact ⟨⟨.enablePinInterrupt, _, _⟩, by decide, hs, readOperands_error_iff.2 (.inr (.inl ⟨rfl, htrig⟩))⟩
    · exact ⟨⟨.bindSpi, _, _⟩, by decide, hs, readOperands_error_iff.2 (.inr (.inr ⟨rfl, hwide⟩))⟩
  · rw [decode_of_no_row c (no_row_of_opField_zero h)]
    exact congrArg Except.error (if_pos h)

/-- Settles O56: a word is read by the row it selects, and the operands are its fields. -/
theorem decodingFollowsTheOpcodeMap : Obligations.DecodingFollowsTheOpcodeMap := by
  intro c w pin low port illegal
  have row (op : Opcode) {p m : CommandWord} (h : w &&& m = p) (hq : ⟨op, p, m⟩ ∈ opcodeMap) :
      decode c w = readOperands c op w := decode_of_selects c hq h
  have bad {op : Opcode} (h : decode c w = readOperands c op w) (he : ∃ e, readOperands c op w = .error e) : illegal :=
    he.imp fun _ => h.trans
  refine ⟨fun h => row .bindI2c h (by decide), fun h => ?_, fun h => ?_, fun h => row .digitalRead h (by decide),
    fun h => row .digitalWrite h (by decide), fun h => row .readPort h (by decide), fun h => row .writePort h (by decide),
    fun h => row .readPorts16 h (by decide), fun h => row .writePorts16 h (by decide),
    fun h => row .configureInterrupts h (by decide), fun h => ?_, fun h => row .disablePinInterrupt h (by decide),
    fun h => row .lastInterruptPin h (by decide), fun h => row .clearInterrupts h (by decide),
    fun h => row .capturedInterruptState h (by decide), fun h => row .enableHwAddressPins h (by decide), ?_⟩
  · have row := row .bindSpi h (by decide)
    refine ⟨fun hfits => row.trans (readOperands_bindSpi ?_),
      fun h8 h2 => bad row (readOperands_error_iff.2 (.inr (.inr ⟨rfl, h2, h8⟩)))⟩
    rw [← Bool.not_eq_false, hwaFits_hwaField_eq_false_iff]
    rintro ⟨h2, h8⟩
    rcases hfits with h16 | h0
    · exact nomatch h8.symm.trans h16
    · exact nomatch h2.symm.trans h0
  · have row := row .setPinMode h (by decide)
    exact ⟨fun h0 => row.trans (readOperands_setPinMode (congrArg modeOfCode h0)),
      fun h1 => row.trans (readOperands_setPinMode (congrArg modeOfCode h1)),
      fun h2 => row.trans (readOperands_setPinMode (congrArg modeOfCode h2)),
      fun h3 => bad row (readOperands_error_iff.2 (.inl ⟨rfl, h3⟩))⟩
  · have row := row .enablePinInterrupt h (by decide)
    exact ⟨fun h0 => row.trans (readOperands_enablePinInterrupt (congrArg triggerOfCode h0)),
      fun h1 => row.trans (readOperands_enablePinInterrupt (congrArg triggerOfCode h1)),
      fun h2 => row.trans (readOperands_enablePinInterrupt (congrArg triggerOfCode h2)),
      fun h3 => bad row (readOperands_error_iff.2 (.inr (.inl ⟨rfl, h3⟩)))⟩
  · intro h1 h2 h3 h4 h5 h6 h7 h8 h9 h10 h11 h12 h13 h14 h15 h16
    refine ⟨_, decode_of_no_row c ?_⟩
    simp only [opcodeMap, List.forall_mem_append, List.forall_mem_cons]
    exact ⟨⟨h1, h2, h3, h4, h5, h6, h7, h8, nofun⟩, h9, h10, h11, h12, h13, h14, h15, h16, nofun⟩

end

section
/-!
The encoder against the decoder (30_encoding.md R80 to R85): where each operand stands in a packed word, the row an encoded instruction
selects, and the fields of a word a row selects.
-/

namespace Sys2Proof

/-! The operand fields of a packed word. -/

/-- A field that ends below bit 16 is a field of DATA. -/
theorem extractLsb'_packWord_data (op sub : BitVec 4) (pin : Byte) (data : BitVec 16) {k : Nat} (hk : k ≤ 16) :
    (packWord op sub pin data).extractLsb' 0 k = data.extractLsb' 0 k := by
  apply BitVec.eq_of_getLsbD_eq
  intro j hj
  simp only [BitVec.getLsbD_extractLsb', packWord_getLsbD, if_pos (show 0 + j < 16 by omega)]

/-- A field that lies in bits 24 to 27 is a field of SUB. -/
theorem extractLsb'_packWord_sub (op sub : BitVec 4) (pin : Byte) (data : BitVec 16) {k : Nat} (hk : k ≤ 4) :
    (packWord op sub pin data).extractLsb' 24 k = sub.extractLsb' 0 k := by
  apply BitVec.eq_of_getLsbD_eq
  intro j hj
  simp only [BitVec.getLsbD_extractLsb', packWord_getLsbD, if_neg (show ¬ 24 + j < 16 by omega),
    if_neg (show ¬ 24 + j < 24 by omega), if_pos (show 24 + j < 28 by omega), Nat.add_sub_cancel_left, Nat.zero_add]

/-- A bit from 24 to 27 is a bit of SUB. -/
theorem getLsbD_packWord_sub (op sub : BitVec 4) (pin : Byte) (data : BitVec 16) {j : Nat} (h : 24 ≤ j) (hj : j < 28) :
    (packWord op sub pin data).getLsbD j = sub.getLsbD (j - 24) := by
  rw [packWord_getLsbD, if_neg (by omega), if_neg (by omega), if_pos hj]

section fields

variable (op sub : BitVec 4) (pin : Byte) (data : BitVec 16)

@[simp] theorem addr7Field_packWord : addr7Field (packWord op sub pin data) = data.extractLsb' 0 7 :=
  extractLsb'_packWord_data op sub pin data (by decide)

@[simp] theorem hwaField_packWord : hwaField (packWord op sub pin data) = data.extractLsb' 0 3 :=
  extractLsb'_packWord_data op sub pin data (by decide)

@[simp] theorem byteField_packWord : byteField (packWord op sub pin data) = data.extractLsb' 0 8 :=
  extractLsb'_packWord_data op sub pin data (by decide)

@[simp] theorem modeField_packWord : modeField (packWord op sub pin data) = sub.extractLsb' 0 2 :=
  extractLsb'_packWord_sub op sub pin data (by decide)

@[simp] theorem portField_packWord : portField (packWord op sub pin data) = if sub.getLsbD 0 then .B else .A := by
  rw [portField, getLsbD_packWord_sub op sub pin data (by decide) (by decide)]

end fields

/-! The codes of the enumerated operands (R82), and the operands narrower than their field. -/

@[simp] theorem modeOfCode_code (m : PinMode) : modeOfCode (m.code.extractLsb' 0 2) = some m := by cases m <;> rfl

@[simp] theorem triggerOfCode_code (g : Trigger) : triggerOfCode (g.code.extractLsb' 0 2) = some g := by cases g <;> rfl

/-- A field whose bits from `k` up are 0 is its low `k` bits. -/
theorem setWidth_extractLsb'_of_and {n k : Nat} {x : BitVec n} (h : x &&& BitVec.allOnes n <<< k = 0#n) :
    (x.extractLsb' 0 k).setWidth n = x := by
  apply BitVec.eq_of_getLsbD_eq
  intro j hj
  have hbit := congrArg (BitVec.getLsbD · j) h
  by_cases hjk : j < k
  · simp [hj, hjk]
  · simpa [hj, hjk, (by omega : j - k < n)] using hbit.symm

/-! Every instruction. -/

/-- Every encoded instruction selects its own row. -/
theorem encode_selects_own_row (i : Instr) : (selectRow (encode i)).map (·.op) = some (rowOf i) := by
  cases i with
  | bindI2c a => exact Laws.RowOfEncoding.bindI2c a
  | bindSpi h => exact Laws.RowOfEncoding.bindSpi h
  | setPinMode p m => exact Laws.RowOfEncoding.setPinMode p m
  | digitalRead p => exact Laws.RowOfEncoding.digitalRead p
  | digitalWrite p v => exact Laws.RowOfEncoding.digitalWrite p v
  | readPort q => exact Laws.RowOfEncoding.readPort q
  | writePort q b => exact Laws.RowOfEncoding.writePort q b
  | readPorts16 => exact Laws.RowOfEncoding.readPorts16
  | writePorts16 w => exact Laws.RowOfEncoding.writePorts16 w
  | configureInterrupts x o t => exact Laws.RowOfEncoding.configureInterrupts x o t
  | enablePinInterrupt p g => exact Laws.RowOfEncoding.enablePinInterrupt p g
  | disablePinInterrupt p => exact Laws.RowOfEncoding.disablePinInterrupt p
  | lastInterruptPin => exact Laws.RowOfEncoding.lastInterruptPin
  | clearInterrupts => exact Laws.RowOfEncoding.clearInterrupts
  | capturedInterruptState => exact Laws.RowOfEncoding.capturedInterruptState
  | enableHwAddressPins => exact Laws.RowOfEncoding.enableHwAddressPins

/-- An encoded instruction is read by its own row. -/
theorem decode_encode_eq_readOperands (c : Config) (i : Instr) :
    decode c (encode i) = readOperands c (rowOf i) (encode i) := by
  obtain ⟨r, hr, hop⟩ := Option.map_eq_some_iff.1 (encode_selects_own_row i)
  obtain ⟨hmem, hsel⟩ := selectRow_eq_some_iff.1 hr
  rw [← hop, decode_of_selects c hmem (OpcodeRow.selects_iff.1 hsel)]

/-- The operands of an instruction are read back from its encoding. -/
theorem readOperands_encode {c : Config} {i : Instr} (h : i.wellFormed c = true) :
    readOperands c (rowOf i) (encode i) = .ok i := by
  cases i with
  | bindI2c a => simp [rowOf, encode, readOperands, BitVec.extractLsb'_setWidth_of_le]
  | bindSpi f =>
    have hf : hwaFits c f = true := h
    simp [rowOf, encode, readOperands, hf, BitVec.extractLsb'_setWidth_of_le]
  | setPinMode p m => simp [rowOf, encode, readOperands, pinField_packWord]
  | digitalRead p => simp [rowOf, encode, readOperands, pinField_packWord]
  | digitalWrite p v => 
    have hv : (flagAt 0 v).getLsbD 0 = v := by cases v <;> rfl
    simp only [rowOf, encode, readOperands, pinField_packWord, Nat.le_refl, Nat.reduceLT, getLsbD_packWord_sub, Nat.sub_self, hv]
  | readPort q => cases q <;> simp [rowOf, encode, readOperands, Port.code]
  | writePort q b => cases q <;> simp [rowOf, encode, readOperands, Port.code, BitVec.extractLsb'_setWidth_of_le]
  | writePorts16 w => simp [rowOf, encode, readOperands, wordField_packWord]
  | configureInterrupts x o t => cases x <;> cases o <;> cases t <;> rfl
  | enablePinInterrupt p g => simp [rowOf, encode, readOperands, pinField_packWord]
  | disablePinInterrupt p => simp [rowOf, encode, readOperands, pinField_packWord]
  | readPorts16 | lastInterruptPin | clearInterrupts | capturedInterruptState | enableHwAddressPins => rfl

/-- The decoder reads an instruction the variant has a word for from its encoding. -/
theorem decode_encode {c : Config} {i : Instr} (h : i.wellFormed c = true) : decode c (encode i) = .ok i :=
  (decode_encode_eq_readOperands c i).trans (readOperands_encode h)

/-- A word that decodes decodes to a well-formed instruction (R85). -/
theorem wellFormed_of_decode {c : Config} {w : CommandWord} {i : Instr} (h : decode c w = .ok i) : i.wellFormed c = true := by
  cases i with
  | bindSpi f => exact Machine.hwaFits_of_decode h
  | _ => rfl

/-! The operands of a word that a row selects, encoded again: what the row's mask keeps is the pattern's, and what it drops is an
operand. -/

theorem code_of_modeOfCode {m : PinMode} {b : BitVec 2} (h : modeOfCode b = some m) : m.code = b.setWidth 4 := by
  revert h; revert b; cases m <;> decide

theorem code_of_triggerOfCode {g : Trigger} {b : BitVec 2} (h : triggerOfCode b = some g) : g.code = b.setWidth 4 := by
  revert h; revert b; cases g <;> decide

theorem portCode_of_sub {sub : BitVec 4} (h : sub &&& 0xE#4 = 0#4) : (if sub.getLsbD 0 then Port.B else .A).code = sub := by
  revert h; revert sub; decide

theorem flagAt_of_sub {sub : BitVec 4} (h : sub &&& 0xE#4 = 0#4) : flagAt 0 (sub.getLsbD 0) = sub := by
  revert h; revert sub; decide

theorem flags_of_sub {sub : BitVec 4} (h : sub &&& 0x8#4 = 0#4) :
    flagAt 2 (sub.getLsbD 2) ||| flagAt 1 (sub.getLsbD 1) ||| flagAt 0 (sub.getLsbD 0) = sub := by
  revert h; revert sub; decide

/-- What a row of R84 says of the fields of a word it selects: OP, and 0 (for CAPTURED_INTERRUPT_STATE, SUB = 1) wherever no operand
stands. -/
def RowFields (o : Opcode) (op sub : BitVec 4) (pin : Byte) (data : BitVec 16) : Prop :=
  match o with
  | .bindI2c => op = 0x1 ∧ sub = 0 ∧ pin = 0 ∧ data &&& 0xFF80 = 0
  | .bindSpi => op = 0x2 ∧ sub = 0 ∧ pin = 0 ∧ data &&& 0xFFF8 = 0
  | .setPinMode => op = 0x3 ∧ sub &&& 0xC = 0 ∧ data = 0
  | .digitalRead => op = 0x4 ∧ sub = 0 ∧ data = 0
  | .digitalWrite => op = 0x5 ∧ sub &&& 0xE = 0 ∧ data = 0
  | .readPort => op = 0x6 ∧ sub &&& 0xE = 0 ∧ pin = 0 ∧ data = 0
  | .writePort => op = 0x7 ∧ sub &&& 0xE = 0 ∧ pin = 0 ∧ data &&& 0xFF00 = 0
  | .readPorts16 => op = 0x8 ∧ sub = 0 ∧ pin = 0 ∧ data = 0
  | .writePorts16 => op = 0x9 ∧ sub = 0 ∧ pin = 0
  | .configureInterrupts => op = 0xA ∧ sub &&& 0x8 = 0 ∧ pin = 0 ∧ data = 0
  | .enablePinInterrupt => op = 0xB ∧ sub &&& 0xC = 0 ∧ data = 0
  | .disablePinInterrupt => op = 0xC ∧ sub = 0 ∧ data = 0
  | .lastInterruptPin => op = 0xD ∧ sub = 0 ∧ pin = 0 ∧ data = 0
  | .clearInterrupts => op = 0xE ∧ sub = 0 ∧ pin = 0 ∧ data = 0
  | .capturedInterruptState => op = 0xE ∧ sub = 1 ∧ pin = 0 ∧ data = 0
  | .enableHwAddressPins => op = 0xF ∧ sub = 0 ∧ pin = 0 ∧ data = 0

/-- `RowFields` is the row's pattern under its mask, field by field. -/
theorem rowFields_of_selects {op sub : BitVec 4} {pin : Byte} {data : BitVec 16} :
    ∀ r ∈ opcodeMap, r.selects (packWord op sub pin data) = true → RowFields r.op op sub pin data := by
  have full4 (x : BitVec 4) : x &&& 0xF#4 = x := BitVec.and_allOnes
  have full8 (x : BitVec 8) : x &&& 0xFF#8 = x := BitVec.and_allOnes
  have full16 (x : BitVec 16) : x &&& 0xFFFF#16 = x := BitVec.and_allOnes
  simp [opcodeMap_packed, selects_packWord, RowFields, full4, full8, full16]

/-- The operands a row reads from a word with that row's fields encode to the word. -/
theorem encode_of_readOperands {c : Config} {o : Opcode} {i : Instr} {op sub : BitVec 4} {pin : Byte} {data : BitVec 16}
    (hf : RowFields o op sub pin data) (h : readOperands c o (packWord op sub pin data) = .ok i) :
    encode i = packWord op sub pin data := by
  cases o with
  | bindI2c =>
    obtain ⟨rfl, rfl, rfl, hd⟩ := hf
    obtain rfl := Except.ok.inj h
    rw [encode, addr7Field_packWord, setWidth_extractLsb'_of_and (k := 7) hd]
  | bindSpi =>
    obtain ⟨rfl, rfl, rfl, hd⟩ := hf
    simp only [readOperands, hwaField_packWord] at h
    split at h <;> cases h
    rw [encode, setWidth_extractLsb'_of_and (k := 3) hd]
  | setPinMode =>
    obtain ⟨rfl, hs, rfl⟩ := hf
    simp only [readOperands, modeField_packWord] at h
    split at h <;> cases h
    next hm => rw [encode, code_of_modeOfCode hm, setWidth_extractLsb'_of_and (k := 2) hs, pinField_packWord]
  | digitalRead =>
    obtain ⟨rfl, rfl, rfl⟩ := hf
    obtain rfl := Except.ok.inj h
    rw [encode, pinField_packWord]
  | digitalWrite =>
    obtain ⟨rfl, hs, rfl⟩ := hf
    obtain rfl := Except.ok.inj h
    rw [encode, pinField_packWord, getLsbD_packWord_sub _ _ _ _ (by decide) (by decide), flagAt_of_sub hs]
  | readPort =>
    obtain ⟨rfl, hs, rfl, rfl⟩ := hf
    obtain rfl := Except.ok.inj h
    rw [encode, portField_packWord, portCode_of_sub hs]
  | writePort =>
    obtain ⟨rfl, hs, rfl, hd⟩ := hf
    obtain rfl := Except.ok.inj h
    rw [encode, portField_packWord, portCode_of_sub hs, byteField_packWord, setWidth_extractLsb'_of_and (k := 8) hd]
  | writePorts16 =>
    obtain ⟨rfl, rfl, rfl⟩ := hf
    obtain rfl := Except.ok.inj h
    rw [encode, wordField_packWord]
  | configureInterrupts =>
    obtain ⟨rfl, hs, rfl, rfl⟩ := hf
    obtain rfl := Except.ok.inj h
    simp only [encode, getLsbD_packWord_sub, Nat.reduceLeDiff, Nat.reduceLT, Nat.reduceSub, flags_of_sub hs]
  | enablePinInterrupt =>
    obtain ⟨rfl, hs, rfl⟩ := hf
    simp only [readOperands, modeField_packWord] at h
    split at h <;> cases h
    next hg => rw [encode, code_of_triggerOfCode hg, setWidth_extractLsb'_of_and (k := 2) hs, pinField_packWord]
  | disablePinInterrupt =>
    obtain ⟨rfl, rfl, rfl⟩ := hf
    obtain rfl := Except.ok.inj h
    rw [encode, pinField_packWord]
  | readPorts16 | lastInterruptPin | clearInterrupts | capturedInterruptState | enableHwAddressPins =>
    obtain ⟨rfl, rfl, rfl, rfl⟩ := hf
    obtain rfl := Except.ok.inj h
    rfl

/-- A word that decodes is the encoding of what it decodes to. -/
theorem encode_of_decode {c : Config} {w : CommandWord} {i : Instr} (h : decode c w = .ok i) : encode i = w := by
  obtain ⟨r, hr, hs, ho⟩ := selects_of_decode h
  rw [← packWord_fields w] at hs ho ⊢
  exact encode_of_readOperands (rowFields_of_selects r hr hs) ho

end Sys2Proof

open Sys2Proof Sys2Proof.Machine

/-- Settles O11: an encoded instruction selects its own row, which reads its operands back. -/
theorem decodeInvertsEncode : Obligations.DecodeInvertsEncode := fun _ _ => decode_encode

/-- Settles O12: the word a row selects is the pattern with the operands in its open bits, which is what the encoder writes. -/
theorem encodeInvertsDecode : Obligations.EncodeInvertsDecode := fun _ _ _ h => ⟨encode_of_decode h, wellFormed_of_decode h⟩

end

section
/-!
The assembler (30_encoding.md R96): what each kind of operand spells, what digits of a base are worth, and what a line stands for.
-/

namespace Sys2Proof.Machine

/-! `Except`: when a value mapped or bound is an answer. -/

theorem except_map_eq_ok_iff {ε α β : Type} {f : α → β} {x : Except ε α} {b : β} :
    x.map f = .ok b ↔ ∃ a, x = .ok a ∧ f a = b := by cases x <;> simp [Except.map]

theorem except_bind_eq_ok_iff {ε α β : Type} {f : α → Except ε β} {x : Except ε α} {b : β} :
    x >>= f = .ok b ↔ ∃ a, x = .ok a ∧ f a = .ok b := by cases x <;> simp [bind, Except.bind]

theorem except_pure_eq_ok_iff {ε α : Type} {a b : α} : (pure a : Except ε α) = .ok b ↔ a = b :=
  ⟨Except.ok.inj, congrArg Except.ok⟩

/-! Operands. -/

/-- A number is accepted exactly with the value of its field. -/
@[simp] theorem number_eq_ok_iff {n : Nat} {cs : List Char} {x : BitVec n} :
    number n cs = .ok x ↔ readNumber cs = some x.toNat := by
  unfold number
  cases readNumber cs with
  | none => simp
  | some v =>
    simp only [Option.some.injEq]
    split
    · next hv =>
      rw [Except.ok.injEq, ← BitVec.toNat_inj, BitVec.toNat_ofNat, Nat.mod_eq_of_lt hv]
    · next hv => exact ⟨nofun, fun h => absurd (h ▸ x.isLt) hv⟩

theorem number_of_too_large {n m : Nat} {cs : List Char} (h : readNumber cs = some m) (hm : 2 ^ n ≤ m) :
    number n cs = .error .doesNotFit := by
  simp only [number, h, if_neg (Nat.not_lt.2 hm)]

/-- A boolean is written 0 or 1. -/
@[simp] theorem flag_eq_ok_iff {cs : List Char} {v : Bool} : flag cs = .ok v ↔ readNumber cs = some v.toNat := by
  have bit : ∀ (b : BitVec 1) (v : Bool), (b == 1#1) = v ↔ b = BitVec.ofBool v := by decide
  simp [flag, except_map_eq_ok_iff, bit]

/-- The names R96 gives PORT. -/
def portSpelling : Port → List Char
  | .A => "A".toList
  | .B => "B".toList

/-- The names R96 gives MODE. -/
def modeSpelling : PinMode → List Char
  | .input => "INPUT".toList
  | .output => "OUTPUT".toList
  | .inputPullup => "INPUT_PULLUP".toList

/-- The names R96 gives TRIG. -/
def triggerSpelling : Trigger → List Char
  | .onChange => "ON_CHANGE".toList
  | .triggerLow => "TRIGGER_LOW".toList
  | .triggerHigh => "TRIGGER_HIGH".toList

@[simp] theorem portName_eq_ok_iff {cs : List Char} {q : Port} : portName cs = .ok q ↔ cs = portSpelling q := by
  refine ⟨fun h => ?_, fun h => ?_⟩
  · unfold portName at h
    split_ifs at h <;> cases h <;> assumption
  · subst h
    cases q <;> decide

@[simp] theorem modeName_eq_ok_iff {cs : List Char} {m : PinMode} : modeName cs = .ok m ↔ cs = modeSpelling m := by
  refine ⟨fun h => ?_, fun h => ?_⟩
  · unfold modeName at h
    split_ifs at h <;> cases h <;> assumption
  · subst h
    cases m <;> decide

@[simp] theorem triggerName_eq_ok_iff {cs : List Char} {g : Trigger} : triggerName cs = .ok g ↔ cs = triggerSpelling g := by
  refine ⟨fun h => ?_, fun h => ?_⟩
  · unfold triggerName at h
    split_ifs at h <;> cases h <;> assumption
  · subst h
    cases g <;> decide

/-- The operands R96's form of an instruction spells it with: numbers have the value of their field, names are the operand's. -/
def Spells (operands : List (List Char)) : Instr → Prop
  | .bindI2c x => ∃ a, operands = [a] ∧ readNumber a = some x.toNat
  | .bindSpi x => ∃ a, operands = [a] ∧ readNumber a = some x.toNat
  | .setPinMode x m => ∃ a, readNumber a = some x.toNat ∧ operands = [a, modeSpelling m]
  | .digitalRead x => ∃ a, operands = [a] ∧ readNumber a = some x.toNat
  | .digitalWrite x v => ∃ a b, operands = [a, b] ∧ readNumber a = some x.toNat ∧ readNumber b = some v.toNat
  | .readPort q => operands = [portSpelling q]
  | .writePort q x => ∃ a, readNumber a = some x.toNat ∧ operands = [portSpelling q, a]
  | .readPorts16 => operands = []
  | .writePorts16 x => ∃ a, operands = [a] ∧ readNumber a = some x.toNat
  | .configureInterrupts mir odr ah => ∃ a b d, operands = [a, b, d] ∧
      readNumber a = some mir.toNat ∧ readNumber b = some odr.toNat ∧ readNumber d = some ah.toNat
  | .enablePinInterrupt x g => ∃ a, readNumber a = some x.toNat ∧ operands = [a, triggerSpelling g]
  | .disablePinInterrupt x => ∃ a, operands = [a] ∧ readNumber a = some x.toNat
  | .lastInterruptPin => operands = []
  | .clearInterrupts => operands = []
  | .capturedInterruptState => operands = []
  | .enableHwAddressPins => operands = []

/-- Accepted operands spell an instruction of the mnemonic's row: by the forms of `parseOperands`, in their order. -/
theorem spells_of_parseOperands {op : Opcode} {operands : List (List Char)} {i : Instr}
    (h : parseOperands op operands = .ok i) : op = rowOf i ∧ Spells operands i := by
  unfold parseOperands at h
  split at h <;>
    simp only [except_map_eq_ok_iff, except_bind_eq_ok_iff, except_pure_eq_ok_iff, number_eq_ok_iff, flag_eq_ok_iff,
      portName_eq_ok_iff, modeName_eq_ok_iff, triggerName_eq_ok_iff, Except.ok.injEq, reduceCtorEq] at h
  case h_1 | h_2 | h_4 | h_9 | h_12 => -- one number
    obtain ⟨x, hx, rfl⟩ := h
    exact ⟨rfl, _, rfl, hx⟩
  case h_3 | h_11 => -- a pin and a name
    obtain ⟨x, hx, m, rfl, rfl⟩ := h
    exact ⟨rfl, _, hx, rfl⟩
  case h_5 => -- DIGITAL_WRITE
    obtain ⟨x, hx, v, hv, rfl⟩ := h
    exact ⟨rfl, _, _, rfl, hx, hv⟩
  case h_6 => -- READ_PORT
    obtain ⟨q, rfl, rfl⟩ := h
    exact ⟨rfl, rfl⟩
  case h_7 => -- WRITE_PORT
    obtain ⟨q, rfl, x, hx, rfl⟩ := h
    exact ⟨rfl, _, hx, rfl⟩
  case h_10 => -- CONFIGURE_INTERRUPTS
    obtain ⟨mir, hm, odr, ho, ah, ha, rfl⟩ := h
    exact ⟨rfl, _, _, _, rfl, hm, ho, ha⟩
  all_goals -- no operand
    subst h
    exact ⟨rfl, rfl⟩

/-- Operands that spell an instruction are accepted by its mnemonic. -/
theorem parseOperands_of_spells {operands : List (List Char)} {i : Instr} (h : Spells operands i) :
    parseOperands (rowOf i) operands = .ok i := by
  cases i with
  | bindI2c x | bindSpi x | digitalRead x | writePorts16 x | disablePinInterrupt x =>
    obtain ⟨a, rfl, ha⟩ := h
    exact except_map_eq_ok_iff.2 ⟨x, number_eq_ok_iff.2 ha, rfl⟩
  | setPinMode x m =>
    obtain ⟨a, ha, rfl⟩ := h
    exact except_bind_eq_ok_iff.2 ⟨x, number_eq_ok_iff.2 ha, except_bind_eq_ok_iff.2 ⟨m, modeName_eq_ok_iff.2 rfl, rfl⟩⟩
  | enablePinInterrupt x g =>
    obtain ⟨a, ha, rfl⟩ := h
    exact except_bind_eq_ok_iff.2 ⟨x, number_eq_ok_iff.2 ha, except_bind_eq_ok_iff.2 ⟨g, triggerName_eq_ok_iff.2 rfl, rfl⟩⟩
  | digitalWrite x v =>
    obtain ⟨a, b, rfl, ha, hb⟩ := h
    exact except_bind_eq_ok_iff.2 ⟨x, number_eq_ok_iff.2 ha, except_bind_eq_ok_iff.2 ⟨v, flag_eq_ok_iff.2 hb, rfl⟩⟩
  | readPort q =>
    obtain rfl := h
    exact except_map_eq_ok_iff.2 ⟨q, portName_eq_ok_iff.2 rfl, rfl⟩
  | writePort q x =>
    obtain ⟨a, ha, rfl⟩ := h
    exact except_bind_eq_ok_iff.2 ⟨q, portName_eq_ok_iff.2 rfl, except_bind_eq_ok_iff.2 ⟨x, number_eq_ok_iff.2 ha, rfl⟩⟩
  | configureInterrupts mir odr ah =>
    obtain ⟨a, b, d, rfl, hm, ho, ha⟩ := h
    exact except_bind_eq_ok_iff.2 ⟨mir, flag_eq_ok_iff.2 hm, except_bind_eq_ok_iff.2 ⟨odr, flag_eq_ok_iff.2 ho,
      except_bind_eq_ok_iff.2 ⟨ah, flag_eq_ok_iff.2 ha, rfl⟩⟩⟩
  | readPorts16 | lastInterruptPin | clearInterrupts | capturedInterruptState | enableHwAddressPins =>
    obtain rfl := h
    rfl

theorem parseOperands_eq_ok_iff {op : Opcode} {operands : List (List Char)} {i : Instr} :
    parseOperands op operands = .ok i ↔ op = rowOf i ∧ Spells operands i :=
  ⟨spells_of_parseOperands, fun ⟨hop, h⟩ => hop ▸ parseOperands_of_spells h⟩

/-! Digits. -/

/-- A list of digits has the value of its numeral, whatever character stands for a digit. -/
theorem readDigits_map {base : Nat} {ch : Fin base → Char} (hch : ∀ d, digitValue (ch d) = some d.val) (acc : Nat)
    (ds : List (Fin base)) :
    readDigits base acc (ds.map ch) = some (ds.foldl (fun v d => v * base + d.val) acc) := by
  induction ds generalizing acc with
  | nil => rfl
  | cons d ds ih => simp [readDigits, hch, ih]

/-- A numeral in which no `x` occurs is a decimal one. -/
theorem readNumber_of_not_mem {cs : List Char} (hne : cs ≠ []) (hx : 'x' ∉ cs) : readNumber cs = readDigits 10 0 cs := by
  unfold readNumber
  split
  · exact absurd rfl hne
  · simp at hx
  · rfl

/-- A `0x` numeral with a digit after it is a hexadecimal one. -/
theorem readNumber_hex {cs : List Char} (hne : cs ≠ []) : readNumber ('0' :: 'x' :: cs) = readDigits 16 0 cs := by
  obtain ⟨ch, rest, rfl⟩ := List.exists_cons_of_ne_nil hne
  rfl

/-! Lines. -/

/-- A line stands for what its operands spell in the form of its mnemonic. -/
theorem parseLine_eq_ok_iff {cs : List Char} {i : Instr} :
    parseLine cs = .ok i ↔ ∃ op, opcodeOf ((trimSpaces cs).takeWhile (· != ' ')) = some op ∧
      parseOperands op (operandsOf ((trimSpaces cs).dropWhile (· != ' '))) = .ok i := by
  simp only [parseLine]
  split
  · next op h => simp [h]
  · next h => simp [h]

/-- A line assembles to the encoding of the instruction it stands for. -/
theorem assemble_eq_ok_iff {line : String} {w : CommandWord} :
    assemble line = .ok w ↔ ∃ op i, opcodeOf ((trimSpaces line.toList).takeWhile (· != ' ')) = some op ∧
      parseOperands op (operandsOf ((trimSpaces line.toList).dropWhile (· != ' '))) = .ok i ∧ encode i = w := by
  simp only [assemble, except_map_eq_ok_iff, parseLine_eq_ok_iff]
  exact ⟨fun ⟨i, ⟨op, hop, hi⟩, hw⟩ => ⟨op, i, hop, hi, hw⟩, fun ⟨op, i, hop, hi, hw⟩ => ⟨i, ⟨op, hop, hi⟩, hw⟩⟩

/-- Every instruction is one of the 16-pin variant (R85). -/
theorem wellFormed_of_sixteen {c : Config} (h : c.pinCount = .sixteen) (i : Instr) : i.wellFormed c = true := by
  cases i with
  | bindSpi f => exact hwaFits_of_sixteen h f
  | _ => rfl

end Sys2Proof.Machine

open Sys2Proof Sys2Proof.Machine

/-- Settles O16: the forms of R96, the value of a numeral by induction on its digits, and a line's meaning clause by clause; what is
assembled is legal because every instruction is well formed on 16 pins. -/
theorem assemblerNeverTruncates : Obligations.AssemblerNeverTruncates := by
  refine ⟨fun op operands i => parseOperands_eq_ok_iff.trans ?_, fun n cs m => number_of_too_large, fun ds hne => ?_,
    fun ds hne digits hd => ?_, fun _ _ => assemble_eq_ok_iff, fun line w h c hc => ?_⟩
  · cases i <;> exact Iff.rfl
  · rw [readNumber_of_not_mem (by simpa using hne)]
    · exact readDigits_map (by decide) 0 ds
    · rw [List.mem_map]
      rintro ⟨d, -, hd⟩
      revert d
      decide
  · rw [readNumber_hex (by simpa using hne)]
    refine readDigits_map (fun d => ?_) 0 ds
    revert digits d
    decide
  · obtain ⟨-, i, -, -, rfl⟩ := assemble_eq_ok_iff.1 h
    exact ⟨i, decode_encode (wellFormed_of_sixteen hc i), rfl⟩

/-- Settles O15: each line is assembled by evaluation, and each word is read back as the encoding of its instruction. -/
theorem workedEncodings : Obligations.WorkedEncodings := by
  iterate 17 refine ⟨by decide, ?_⟩
  intro c
  have read (i : Instr) (h : i.wellFormed c = true) : decode c (encode i) = .ok i := decode_encode h
  exact ⟨read (.setPinMode 9 .output) rfl, read (.digitalWrite 9 true) rfl, read (.writePorts16 0x1234) rfl,
    read (.enablePinInterrupt 3 .triggerLow) rfl, read (.bindI2c 0x20) rfl,
    read (.bindSpi 2) (by cases h : c.pinCount <;> simp [Instr.wellFormed, hwaFits_of_eight, hwaFits_of_sixteen, h]),
    read (.configureInterrupts true false true) rfl, read (.configureInterrupts true false false) rfl,
    read (.digitalRead 13) rfl, read (.readPort .B) rfl, read (.writePort .A 0x3C) rfl, read .readPorts16 rfl,
    read (.disablePinInterrupt 11) rfl, read .lastInterruptPin rfl, read .clearInterrupts rfl,
    read .capturedInterruptState rfl, read .enableHwAddressPins rfl⟩

end

section
/-!
The combinational decoder (40_decoder.md R113 to R123, R119 and 10_state.md R26): each operand function as a number, and the decoder
port apart from the sequencer.
-/

namespace Sys2Proof.Machine

/-! The pin mapper (R113 to R115, R123). -/

/-- The port of a pin numbers its octet (R113). -/
theorem portBit_portOf_toNat {pin : Byte} (h : pin.toNat < 16) : (portBit (portOf pin)).toNat = pin.toNat / 8 := by
  unfold portOf
  split
  · change 0 = _; omega
  · change 1 = _; omega

theorem pinValid_iff (c : Config) (pin : Byte) : pinValid c pin = true ↔ pin.toNat < c.pinCount.pins := decide_eq_true_iff

/-- No variant has more pins than two ports hold (R10). -/
theorem pins_le (p : PinCount) : p.pins ≤ 16 := by cases p <;> decide

/-- A valid pin is counted from its port's first pin (R114). -/
theorem pin_eq_of_pinValid {c : Config} {pin : Byte} (h : pinValid c pin = true) :
    pin.toNat = 8 * (portBit (portOf pin)).toNat + (bitOf pin).toNat := by
  have hlt : pin.toNat < 16 := ((pinValid_iff c pin).1 h).trans_le (pins_le c.pinCount)
  rw [portBit_portOf_toNat hlt, bitOf_toNat, Nat.div_add_mod]

theorem portValid_A (c : Config) : portValid c .A = true := rfl

theorem portValid_B_iff (c : Config) : portValid c .B = true ↔ c.pinCount = .sixteen := by simp [portValid]

/-! The resolver over every id (R116, R118). -/

theorem resolveId_toNat_sixteen {c : Config} (h : c.pinCount = .sixteen) (reg : BitVec 4) (port : Port) :
    (resolveId c reg port).toNat = reg.toNat * 2 + (portBit port).toNat := by
  have hr := reg.isLt
  have hp := (portBit port).isLt
  simp only [resolveId, h, BitVec.toNat_add, BitVec.toNat_mul, BitVec.toNat_setWidth, BitVec.ofNat_eq_ofNat, BitVec.toNat_ofNat]
  omega

theorem resolveId_toNat_eight {c : Config} (h : c.pinCount = .eight) (reg : BitVec 4) (port : Port) :
    (resolveId c reg port).toNat = reg.toNat := by
  simp only [resolveId, h, BitVec.toNat_setWidth]
  omega

/-! The SPI opcode byte (R120). -/

/-- The opcode byte as a number: each field is placed above the one after it (R120). -/
theorem spiOpcode_toNat (c : Config) (rw : Bool) (f : HwAddr) :
    (spiOpcode c rw f).toNat = c.spiOpcodeHi.toNat * 16 + f.toNat * 2 + rw.toNat := by
  have hf := f.isLt
  have hrw := rw.toNat_lt
  change BitVec.toNat (w := 4 + 3 + 1) (c.spiOpcodeHi ++ f ++ BitVec.ofBool rw) = _
  rw [BitVec.toNat_append, BitVec.toNat_append, BitVec.toNat_ofBool, ← Nat.shiftLeft_add_eq_or_of_lt (by omega),
    ← Nat.shiftLeft_add_eq_or_of_lt (by omega)]
  omega

/-! The decoder port (R26, R119). -/

@[simp] theorem outputs_dec (s : State) : (outputs s).dec = decoderPort s.cfg s.now.dec := rfl

/-- No event is enabled or chosen by the decoder port's inputs (R140). -/
theorem enabledEvent_dec (p : Phase) (i : Inputs) (d : DecoderInputs) :
    enabledEvent p { i with dec := d } = enabledEvent p i := rfl

theorem react_dec (i : Inputs) (d : DecoderInputs) (s : State) : react { i with dec := d } s = react i s := by
  simp only [react, enabledEvent_dec]

/-- A step is the reaction to the oldest pending instant, once that has passed. -/
theorem step_cons (s : State) (i : Inputs) (rest : List Inputs) :
    step { s with inputs := i :: rest } = react i { s with inputs := rest } := rfl

end Sys2Proof.Machine

open Sys2Proof Sys2Proof.Machine

/-- Settles O17: a pin below 16 is counted by octets, and the variants have 8 and 16 pins. -/
theorem pinMapperLaws : Obligations.PinMapperLaws := by
  refine fun c pin => ⟨rfl, bitOf_toNat pin, fun h => ?_, fun h => ?_, pin_eq_of_pinValid, portValid_A c, portValid_B_iff c⟩
  all_goals
    rw [pinValid_iff, h]
    exact Nat.lt_succ_iff

/-- Settles O18: a 4-bit id, doubled or not, and a port bit stay below 2 ^ 8. -/
theorem resolverFormula : Obligations.ResolverFormula := by
  intro c reg port
  have hr := reg.isLt
  have hp := (portBit port).isLt
  refine ⟨fun h => ?_, fun h => ?_⟩
  · rw [resolveId_toNat_sixteen h]
    exact ⟨rfl, by omega⟩
  · rw [resolveId_toNat_eight h]
    exact ⟨rfl, by omega⟩

/-- Settles O20, by the layout and by evaluating the four examples, in which only `SPI_OPCODE_HI` was open. -/
theorem spiOpcodeLayout : Obligations.SpiOpcodeLayout := by
  refine fun c f => ⟨fun rw => spiOpcode_toNat c rw f, spiOpcode_xor c f, fun h => ?_, rfl⟩
  simp only [spiOpcode, h]
  decide

/-- Settles O21: the port is a function of the parameters and its inputs, and a step reacts to the other inputs only. -/
theorem decoderPortIsIndependent : Obligations.DecoderPortIsIndependent := by
  refine ⟨fun s t hc hd => ?_, fun s i d rest => ?_⟩
  · rw [outputs_dec, outputs_dec, hc, hd]
  · rw [step_cons, step_cons, react_dec]

end

section
/-!
The sequencer event by event (41_sequencer.md R140 to R147, R162): what an instant does in each phase, and the checks at accept.
-/

namespace Sys2Proof.Machine

/-! Instants at which the awaited agent does not act (R140, R144). -/

theorem step_issue_waits {s : State} (hr : s.now.rst = false) (hp : s.phase = .issue) (hv : s.now.txReqReady = false) :
    step s = .next (consume s) :=
  step_nothing (by simp [enabledEvent, hr, hp, hv])

theorem step_wait_waits {s : State} (hr : s.now.rst = false) (hp : s.phase = .wait) (hv : s.now.txDone = false) :
    step s = .next (consume s) :=
  step_nothing (by simp [enabledEvent, hr, hp, hv])

/-- Instants that enable no event pass, and do nothing else (R162, R270). -/
theorem run_nothing {s : State} {l : List Inputs} (h : ∀ i ∈ l, enabledEvent s.phase i = none) :
    run l.length { s with inputs := l } = .next { s with inputs := [] } := by
  induction l with
  | nil => rfl
  | cons i l ih =>
    have hs : step { s with inputs := i :: l } = .next { s with inputs := l } := step_nothing (h i List.mem_cons_self)
    rw [List.length_cons, run_step hs]
    exact ih fun j hj => h j (List.mem_cons_of_mem i hj)

/-! A completion, by the kind of the request (R145). -/

theorem receive_of_read {v : BitVec 16} {s : State} (h : s.req.kind = .writeRead) :
    receive v s = { s with rd := readData s.req.rcount v, k := s.k + 1 } := by
  rw [receive, if_pos h]

theorem receive_of_not_read {v : BitVec 16} {s : State} (h : s.req.kind ≠ .writeRead) :
    receive v s = { s with k := s.k + 1 } := by
  rw [receive, if_neg h]

/-! The checks at accept (R143). -/

/-- The response of a refused command: no data and no transport code (R87). -/
theorem errorResponse_zero (st : Status) :
    errorResponse st 0 = { status := st, data := 0, found := false, xerr := 0 } := by
  simp [errorResponse]

/-- The checks look at the parameters and the initialisation only. -/
theorem firstFailure_congr {i : Instr} {s t : State} (hc : s.cfg = t.cfg) (hi : s.init = t.init) :
    firstFailure s (commandChecks i) = firstFailure t (commandChecks i) := by
  cases hb : isBind i with
  | false => rw [checks_command hb, checks_command hb, hc, hi]
  | true => rw [checks_bind hb, checks_bind hb, hi]

/-- A command passes its checks exactly when its bind gate is open and its operand is good (R143). -/
theorem checks_pass {i : Instr} {s : State} (hg : isBind i = !s.init) (ho : badOperand s.cfg i = false) :
    firstFailure s (commandChecks i) = none := by
  cases hb : isBind i with
  | false =>
    have hi : s.init = true := by simpa [hb] using hg
    rw [checks_command hb, hi, ho]
    rfl
  | true =>
    have hi : s.init = false := by simpa [hb] using hg
    rw [checks_bind hb, hi]
    rfl

/-- A command that passes its checks presents a request or ends with OK (R142, R143). -/
theorem exec_passed {i : Instr} {s t : State} (hf : firstFailure s (commandChecks i) = none) (he : exec i s = .next t) :
    t.phase = .issue ∨ (t.phase = .resp ∧ t.rsp.status = .ok) := by
  cases exec_cases_of he with
  | failed st _ hst _ => exact absurd (hf.symm.trans hst) (by simp)
  | presents r => exact .inl rfl
  | ends _ _ _ | bindsI2c _ _ _ | bindsSpi _ _ _ | enables _ _ _ => exact .inr ⟨rfl, rfl⟩

/-- A command that goes on leaves the response as it was (R33). -/
theorem exec_keeps_rsp {i : Instr} {s t : State} (he : exec i s = .next t) (hp : t.phase ≠ .resp) : t.rsp = s.rsp := by
  obtain ⟨-, hrsp⟩ | ⟨hresp, -⟩ := (exec_frame he).writes
  · exact hrsp
  · exact absurd hresp hp

end Sys2Proof.Machine

open Sys2Proof Sys2Proof.Machine

/-- Settles O2: the word is latched and its command's meaning runs; a word placed with `withFetchWord` is such a word. -/
theorem stepRunsTheDecodedCommand : Obligations.StepRunsTheDecodedCommand :=
  ⟨fun _ _ => step_accept_legal, fun s nbits w _ => step_accept_legal (s := s.withFetchWord nbits w) rfl rfl rfl⟩

/-- Settles O3. -/
theorem issueKeepsTheRequest : Obligations.IssueKeepsTheRequest := fun _ hr =>
  ⟨step_issue hr, step_issue_waits hr, step_wait_waits hr⟩

/-- Settles O4, by the kind of the completed request and the number of bytes it asked for. -/
theorem successfulCompletionContinuesTheProgram : Obligations.SuccessfulCompletionContinuesTheProgram := by
  intro s i hr hp hv ho hd
  rw [step_complete_ok hr hp hv ho hd]
  refine ⟨fun hk => ?_, fun hk hc => ?_, fun hk hc => ?_⟩
  · rw [receive_of_not_read (s := consume s) hk]
    rfl
  · rw [receive_of_read (s := consume s) hk, consume_req, hc, readData_one]
    rfl
  · rw [receive_of_read (s := consume s) hk, consume_req, hc, readData_two]
    rfl

/-- Settles O5. -/
theorem failedCompletionEndsTheCommand : Obligations.FailedCompletionEndsTheCommand := fun _ => step_complete_failed

/-- Settles O6, by the cases of a step: outside IDLE nothing latches a word, and only the end of a command writes the response. -/
theorem deliveryReturnsToIdle : Obligations.DeliveryReturnsToIdle := by
  refine ⟨fun _ => step_deliver, fun s t hr hs h => ?_, fun s t hr hs hp => ?_, cmdReady_iff⟩
  · cases step_cases_of hs with
    | reset hr' => exact absurd hr' (by simp [hr])
    | issued _ _ _ | delivered _ _ _ | nothing _ _ => rfl
    | illegal _ _ hp _ _ | failed _ hp _ _ => exact absurd h (by simp [hp])
    | accepted _ _ _ hp _ _ he => exact (exec_keeps_rsp he (h.resolve_right (by simp [hp]))).trans rfl
    | continued _ _ _ hp _ _ _ he => exact (exec_keeps_rsp he (h.resolve_right (by simp [hp]))).trans rfl
  · cases step_cases_of hs with
    | reset hr' => exact absurd hr' (by simp [hr])
    | illegal _ _ hidle _ _ | accepted _ _ _ hidle _ _ _ => exact absurd hidle hp
    | continued _ _ _ _ _ _ _ he => exact (exec_frame he).cmd
    | issued _ _ _ | failed _ _ _ _ | delivered _ _ _ | nothing _ _ => rfl

/-- Settles O8: in each phase the instants of the list enable no event. -/
theorem waitingIsUnbounded : Obligations.WaitingIsUnbounded := by
  intro s l hissue hwait hresp hidle
  refine run_nothing fun i hi => ?_
  cases hp : s.phase with
  | idle => simp [enabledEvent, hidle hp i hi]
  | issue => simp [enabledEvent, hissue hp i hi]
  | wait => simp [enabledEvent, hwait hp i hi]
  | resp => simp [enabledEvent, hresp hp i hi]

/-- Settles O9: a refused word raises the status of its first failed check, and a command that passes goes on or ends with OK. -/
theorem checksAtAcceptInOrder : Obligations.ChecksAtAcceptInOrder := by
  intro s hr hp hv endsWith
  have refused {st : Status} (h : step s = raise st 0 (latch s.now.cmdWord (consume s))) : endsWith st :=
    ⟨_, h, rfl, errorResponse_zero st, rfl, rfl, rfl, rfl, rfl, rfl⟩
  refine ⟨fun ⟨e, hd⟩ => refused (step_accept_illegal hr hp hv hd), fun i hd => ?_⟩
  have hstep := step_accept_legal hr hp hv hd
  have hchecks : firstFailure (latch s.now.cmdWord (consume s)) (commandChecks i) = firstFailure s (commandChecks i) :=
    firstFailure_congr rfl rfl
  have failed {st : Status} (hf : firstFailure s (commandChecks i) = some st) : endsWith st :=
    refused (hstep.trans (exec_fail rfl (hchecks.trans hf)))
  refine ⟨fun hb hi => failed ?_, fun hb hi => failed ?_, fun hb hi ho => failed ?_, fun hg ho => ?_⟩
  · rw [checks_bind hb, hi]
    rfl
  · rw [checks_command hb, hi]
    rfl
  · rw [checks_command hb, hi, ho]
    rfl
  · obtain ⟨t, he⟩ := exec_next i (latch s.now.cmdWord (consume s))
    exact ⟨t, hstep.trans he, exec_passed (hchecks.trans (checks_pass hg ho)) he⟩

end

section
/-!
Straight-line programs (41_sequencer.md R142): the read-modify-write at any place of a program (R160, R161) and the two binds
(R150 to R152).
-/

namespace Sys2Proof.Machine

/-- A program past its first primitives stands where the others alone would. -/
theorem runSequence_append {before rest : List (State → Result)} {finish : State → Result} {s : State} {n : Nat}
    (h : s.k.toNat = before.length + n) : runSequence (before ++ rest) finish s = (rest[n]?.getD finish) s := by
  rw [runSequence, h, List.getElem?_append_right (Nat.le_add_right _ _), Nat.add_sub_cancel_left]

/-- The hardware address stands in `wbytes[2:0]`, below zeros (R59). -/
theorem setWidth_hwAddr (h : HwAddr) : h.setWidth 32 = 0#29 ++ h := by
  rw [BitVec.setWidth_eq_append (by decide)]
  rfl

end Sys2Proof.Machine

open Sys2Proof Sys2Proof.Machine

/-- Settles O24, by where the program stands; that the written byte is the one read but for one bit is `setbit_bit`. -/
theorem readModifyWriteAlwaysWrites : Obligations.ReadModifyWriteAlwaysWrites := by
  intro s a b d before after finish
  rw [List.append_assoc]
  refine ⟨fun hk => ?_, fun hk => ⟨setbit (readByte s) b d, fun j hj => ?_, ?_⟩, fun hk => ?_⟩
  · rw [runSequence_append (n := 0) hk]
    rfl
  · rw [setbit_bit _ _ _ _ hj]
    simp [readByte, hj]
  · rw [runSequence_append hk]
    rfl
  · rw [runSequence_append hk]
    cases after <;> rfl

/-- Settles O25: the bind gate is open at `S.k` = 0, and no check is made past it. -/
theorem bindI2cProgram : Obligations.BindI2cProgram := by
  refine fun s addr7 => ⟨fun hi hk => ?_, fun hk => (checked_later (by simp [hk])).trans (runSequence_index hk)⟩
  have hpass : firstFailure s (commandChecks (.bindI2c addr7)) = none := checks_pass (by rw [hi]; rfl) rfl
  exact (checked_pass hpass).trans (runSequence_index hk)

/-- Settles O26, as O25; the begin request carries the hardware address (log 9). -/
theorem bindSpiProgram : Obligations.BindSpiProgram := by
  refine fun s hwa => ⟨fun hi hk => ?_, fun hk => (checked_later (by simp [hk])).trans (runSequence_index hk)⟩
  have hpass : firstFailure s (commandChecks (.bindSpi hwa)) = none := checks_pass (by rw [hi]; rfl) rfl
  rw [← setWidth_hwAddr]
  exact (checked_pass hpass).trans (runSequence_index hk)

end

section
/-!
Every command is one straight-line program behind its checks (41_sequencer.md R142, R143), and what such a program looks at beside
`S.k` and `S.rd` stays as it is while the command's transactions are served.
-/

namespace Sys2Proof.Machine

/-- LAST_INTERRUPT_PIN after the read of INTF A (R235). -/
def afterIntfA (u : State) : Result :=
  if readByte u ≠ 0 then respond (BitVec.ofNat 16 (lowestSet (readByte u))) true u
  else if u.cfg.pinCount = .sixteen then memRead (resolve u.cfg .intf .B) .one u
  else respond 0 false u

/-- The primitives of a command accepted in `s`, in order; tied to the model by `exec_eq_checked`. -/
def primitives (s : State) : Instr → List (State → Result)
  | .bindI2c a => [begin (beginI2c a)]
  | .bindSpi h => [begin (beginSpi h)]
  | .setPinMode pin mode =>
    rmw (resolve s.cfg .iodir (portOf pin)) (bitOf pin) (mode != .output) ++
      rmw (resolve s.cfg .gppu (portOf pin)) (bitOf pin) (mode == .inputPullup)
  | .digitalRead pin => [memRead (resolve s.cfg .gpio (portOf pin)) .one]
  | .digitalWrite pin value => rmw (resolve s.cfg (portWriteReg s.cfg) (portOf pin)) (bitOf pin) value
  | .readPort port => [memRead (resolve s.cfg .gpio port) .one]
  | .writePort port byte => [memWrite (resolve s.cfg (portWriteReg s.cfg) port) .one (byte.setWidth 16)]
  | .readPorts16 => [memRead (resolve s.cfg .gpio .A) .two]
  | .writePorts16 word => [memWrite (resolve s.cfg (portWriteReg s.cfg) .A) .two word]
  | .configureInterrupts mir odr ah =>
    [ memRead (resolve s.cfg .iocon .A) .one,
      fun u => memWrite (resolve u.cfg .iocon .A) .one ((ioconWith u.cfg (readByte u) mir odr ah).setWidth 16) u ]
  | .enablePinInterrupt pin trig =>
    comparisonSetup s.cfg pin trig ++ rmw (resolve s.cfg .gpinten (portOf pin)) (bitOf pin) true
  | .disablePinInterrupt pin => rmw (resolve s.cfg .gpinten (portOf pin)) (bitOf pin) false
  | .lastInterruptPin => [memRead (resolve s.cfg .intf .A) .one, afterIntfA]
  | .clearInterrupts => [memRead (resolve s.cfg .intcap .A) (intcapWidth s.cfg)]
  | .capturedInterruptState => [memRead (resolve s.cfg .intcap .A) (intcapWidth s.cfg)]
  | .enableHwAddressPins =>
    match s.bus with
    | .i2c => []
    | .spi => haenWrites s

/-- How a command's program ends past its last primitive; tied to the model by `exec_eq_checked`. -/
def ending : Instr → State → Result
  | .bindI2c a, u => respond 0 false (bindTo .i2c a 0 u)
  | .bindSpi h, u => respond 0 false (bindTo .spi 0 h u)
  | .digitalRead pin, u => respond ((bit8 ((readByte u).getLsbD (bitOf pin).toNat)).setWidth 16) false u
  | .readPort _, u => respond ((readByte u).setWidth 16) false u
  | .readPorts16, u => respond u.rd false u
  | .lastInterruptPin, u =>
    if readByte u ≠ 0 then respond (BitVec.ofNat 16 (8 + lowestSet (readByte u))) true u else respond 0 false u
  | .capturedInterruptState, u => respond u.rd false u
  | .enableHwAddressPins, u =>
    match u.bus with
    | .i2c => respond 0 false u
    | .spi => respond 0 false (setHaen u)
  | _, u => respond 0 false u

/-- A command looks at its program only from where it runs it. -/
theorem checked_congr {checks : List (State → Option Status)} {p q : State → Result} {s : State} (h : p s = q s) :
    checked checks p s = checked checks q s := by
  simp only [checked, h]

/-- A program looks at its end only from where it reaches it. -/
theorem runSequence_congr {prims : List (State → Result)} {p q : State → Result} {s : State} (h : p s = q s) :
    runSequence prims p s = runSequence prims q s := by
  unfold runSequence
  cases prims[s.k.toNat]? with
  | none => exact h
  | some f => rfl

/-- Every command is its checks and a straight-line program (R142, R143). -/
theorem exec_eq_checked (i : Instr) (s : State) :
    exec i s = checked (commandChecks i) (runSequence (primitives s i) (ending i)) s := by
  cases i with
  | enableHwAddressPins =>
    unfold exec execEnableHwAddressPins
    refine checked_congr ?_
    unfold primitives
    cases hb : s.bus with
    | i2c => simp [runSequence, ending, hb]
    | spi => exact runSequence_congr (by simp [ending, hb])
  | _ => rfl

/-- A program stands at the first of the primitives that are left, or at its end (R142). -/
theorem runSequence_eq_head (prims : List (State → Result)) (finish : State → Result) (s : State) :
    runSequence prims finish s = ((prims.drop s.k.toNat).head?.getD finish) s := by
  rw [runSequence, List.head?_drop]

/-- `u` has the parameters, the initialisation, the binding and the address mode of `s`. -/
structure KeepsBinding (s u : State) : Prop where
  cfg     : u.cfg = s.cfg
  init    : u.init = s.init
  bus     : u.bus = s.bus
  i2cAddr : u.i2cAddr = s.i2cAddr
  hwAddr  : u.hwAddr = s.hwAddr
  haenOn  : u.haenOn = s.haenOn

section
variable {s u : State} (h : KeepsBinding s u)
include h

theorem KeepsBinding.primitives_eq (i : Instr) : primitives u i = primitives s i := by
  cases i <;> simp only [primitives, haenWrites, h.cfg, h.bus, h.hwAddr]

/-- A command whose checks have passed runs its program from wherever it stands. -/
theorem KeepsBinding.exec_eq {i : Instr} (hpass : firstFailure s (commandChecks i) = none) :
    exec i u = (((primitives s i).drop u.k.toNat).head?.getD (ending i)) u := by
  rw [exec_eq_checked, h.primitives_eq, checked_pass ((firstFailure_congr h.cfg h.init).trans hpass), runSequence_eq_head]

theorem KeepsBinding.hwf_eq : hwf u = hwf s := by simp only [hwf, h.haenOn, h.hwAddr]

theorem KeepsBinding.memRead_eq (a : RegAddr) (n : Width) : memRead a n u = .next (present (readOf s a n) u) := by
  simp only [memRead, readOf, readRequest, addressBytes, deviceOf, h.hwf_eq, h.cfg, h.bus, h.i2cAddr]

theorem KeepsBinding.memWriteAs_eq (f : HwAddr) (a : RegAddr) (n : Width) (v : BitVec 16) :
    memWriteAs f a n v u = .next (present (writeRequest s f a n v) u) := by
  simp only [memWriteAs, writeRequest, addressBytes, deviceOf, h.cfg, h.bus, h.i2cAddr]

theorem KeepsBinding.memWrite_eq (a : RegAddr) (n : Width) (v : BitVec 16) :
    memWrite a n v u = .next (present (writeOf s a n v) u) := by
  rw [memWrite, h.memWriteAs_eq, h.hwf_eq, writeOf]

end

end Sys2Proof.Machine
end

section
/-!
A whole command as the requests it issues one after the other (41_sequencer.md R142 to R145), and the machine's run over the
instants that serve them.
-/

namespace Sys2Proof.Machine

/-- `s` after its program presented the request `r`, the transport took it and completed it with the data `v`. -/
def served (r : Request) (v : BitVec 16) (s : State) : State := receive v (consume (issue (consume (present r s))))

/-- The read buffer after the request `r` was completed with the data `v`, where it was `rd` before (R145). -/
def buffered (r : Request) (v rd : BitVec 16) : BitVec 16 := if r.kind = .writeRead then readData r.rcount v else rd

@[simp] theorem served_rd (r : Request) (v : BitVec 16) (s : State) : (served r v s).rd = buffered r v s.rd := rfl

theorem KeepsBinding.served {s u : State} (h : KeepsBinding s u) (r : Request) (v : BitVec 16) :
    KeepsBinding s (served r v u) :=
  ⟨h.cfg, h.init, h.bus, h.i2cAddr, h.hwAddr, h.haenOn⟩

/-- A request that a command presents is below the last index, so its completion does not wrap it (R35, R145). -/
theorem served_k_toNat {i : Instr} {r : Request} {v : BitVec 16} {s : State} (he : exec i s = .next (present r s)) :
    (served r v s).k.toNat = s.k.toNat + 1 := by
  have hk : s.k.toNat < 7 := ((exec_presents_index he).trans_le (maxTransactions_le s i)).trans (by decide)
  exact receive_k_toNat (s := consume (issue (consume (present r s)))) hk

/-- Where the meaning of `i` runs in `s` and the completions from there return `d 0`, `d 1` and so on, the command issues these
requests and then ends in the last state. -/
inductive Performs (i : Instr) : (Nat → BitVec 16) → State → List Request → State → Prop where
  | ends {d : Nat → BitVec 16} {s t : State} (he : exec i s = .next t) (hp : t.phase = .resp) : Performs i d s [] t
  | issues {d : Nat → BitVec 16} {s t : State} {r : Request} {rs : List Request} (he : exec i s = .next (present r s))
      (hn : Performs i (fun j => d (j + 1)) (served r (d 0) s) rs t) : Performs i d s (r :: rs) t

/-- What a command of `n` transactions leaves, whatever it does. -/
structure PerformFrame (n : Nat) (s t : State) : Prop where
  phase  : t.phase = .resp
  cfg    : t.cfg = s.cfg
  cmd    : t.cmd = s.cmd
  k      : t.k.toNat = s.k.toNat + n
  inputs : t.inputs = s.inputs.drop (2 * n)

theorem Performs.frame {i : Instr} {d : Nat → BitVec 16} {s t : State} {rs : List Request} (h : Performs i d s rs t) :
    PerformFrame rs.length s t := by
  induction h with
  | ends he hp =>
    obtain ⟨hcfg, hcmd, hk, -, hinputs, -⟩ := exec_frame he
    exact ⟨hp, hcfg, hcmd, congrArg BitVec.toNat hk, hinputs⟩
  | issues he _ ih =>
    refine ⟨ih.phase, ih.cfg, ih.cmd, ?_, ?_⟩
    · rw [ih.k, served_k_toNat he, List.length_cons]
      omega
    · rw [ih.inputs, List.length_cons]
      simp [served, Nat.mul_add]

/-! The instants that serve a command. -/

/-- The first exchange comes first. -/
theorem exchanges_succ (d : Nat → BitVec 16) (n : Nat) :
    exchanges d (n + 1) =
      Inputs.takeRequest :: Inputs.completion true 0 (d 0) :: exchanges (fun j => d (j + 1)) n := by
  induction n with
  | zero => rfl
  | succ n ih =>
    rw [exchanges, ih]
    rfl

theorem exchanges_length (d : Nat → BitVec 16) (n : Nat) : (exchanges d n).length = 2 * n := by
  induction n with
  | zero => rfl
  | succ n ih =>
    rw [exchanges, List.length_append, ih]
    rfl

/-- The two steps of an exchange: the transport takes the request, which is thereby issued, and its completion runs the command's
meaning on (R144, R145). -/
theorem run_exchange {i : Instr} {r : Request} {v : BitVec 16} {s u : State} {l : List Inputs} (hd : decode s.cfg s.cmd = .ok i)
    (hin : s.inputs = Inputs.takeRequest :: Inputs.completion true 0 v :: l) (hu : exec i (served r v s) = .next u) (n : Nat) :
    run (n + 2) (present r s) = run n u ∧ issuedRequests (n + 2) (present r s) = r :: issuedRequests n u := by
  have htake : (present r s).now = Inputs.takeRequest := by simp [State.now, hin]
  have hdone : (issue (consume (present r s))).now = Inputs.completion true 0 v := by simp [State.now, hin]
  have hissue : step (present r s) = .next (issue (consume (present r s))) :=
    step_issue (by rw [htake]; rfl) rfl (by rw [htake]; rfl)
  have hcomplete : step (issue (consume (present r s))) = .next u := by
    rw [step_complete_ok (s := issue (consume (present r s))) (by rw [hdone]; rfl) rfl (by rw [hdone]; rfl)
      (by rw [hdone]; rfl) hd, hdone]
    exact hu
  refine ⟨by rw [run_step hissue, run_step hcomplete], ?_⟩
  rw [issuedRequests_step hissue, issuedRequests_step hcomplete, htake, hdone]
  rfl

/-- The machine runs a command whose requests are all served: it issues them and ends where the command does. -/
theorem Performs.run {i : Instr} {d : Nat → BitVec 16} {s t : State} {rs : List Request} (h : Performs i d s rs t)
    (hd : decode s.cfg s.cmd = .ok i) (hin : s.inputs = exchanges d rs.length) :
    ∃ u, exec i s = .next u ∧ Machine.run (2 * rs.length) u = .next t ∧ issuedRequests (2 * rs.length) u = rs := by
  induction h with
  | @ends d s t he _ => exact ⟨t, he, rfl, rfl⟩
  | @issues d s t r rs he _ ih =>
    rw [List.length_cons, exchanges_succ] at hin
    obtain ⟨u, hu, hrun, hissued⟩ := ih hd (by simp [served, hin])
    obtain ⟨hrun', hissued'⟩ := run_exchange hd hin hu (2 * rs.length)
    exact ⟨present r s, he, hrun'.trans hrun, by rw [List.length_cons, Nat.mul_succ, hissued', hissued]⟩

end Sys2Proof.Machine
end

section
/-!
The pseudocode of every command against its program (42_pin_ops.md to 45_address_pins.md, 41_sequencer.md R150, R152): primitive by
primitive, over the read buffer alone.
-/

namespace Sys2Proof.Machine

/-- `t` ends a command with the response and the binding of `e`. -/
structure Leaves (e : CommandEffect) (t : State) : Prop where
  phase    : t.phase = .resp
  response : t.rsp = e.response
  init     : t.init = e.init
  bus      : t.bus = e.bus
  i2cAddr  : t.i2cAddr = e.i2cAddr
  hwAddr   : t.hwAddr = e.hwAddr
  haenOn   : t.haenOn = e.haenOn

/-- With the read buffer `rd` and the data `d 0`, `d 1` and so on still to come, the primitives left and the end of a program issue
these requests and then leave `e`, in every state with the binding of `s`. -/
inductive Walks (s : State) (finish : State → Result) (e : CommandEffect) :
    List (State → Result) → (Nat → BitVec 16) → BitVec 16 → List Request → Prop where
  | ends {rest : List (State → Result)} {d : Nat → BitVec 16} {rd : BitVec 16}
      (h : ∀ u, KeepsBinding s u → u.rd = rd → ∃ t, (rest.head?.getD finish) u = .next t ∧ Leaves e t) :
      Walks s finish e rest d rd []
  | issues {f : State → Result} {rest : List (State → Result)} {d : Nat → BitVec 16} {rd : BitVec 16} {r : Request}
      {rs : List Request} (h : ∀ u, KeepsBinding s u → u.rd = rd → f u = .next (present r u))
      (hn : Walks s finish e rest (fun j => d (j + 1)) (buffered r (d 0) rd) rs) : Walks s finish e (f :: rest) d rd (r :: rs)

/-- A command whose checks passed in `s` performs what its program walks through, from where it stands. -/
theorem Walks.performs {i : Instr} {s u : State} {e : CommandEffect} {rest : List (State → Result)} {d : Nat → BitVec 16}
    {rd : BitVec 16} {rs : List Request} (hpass : firstFailure s (commandChecks i) = none)
    (h : Walks s (ending i) e rest d rd rs) (hu : KeepsBinding s u) (hrd : u.rd = rd)
    (hrest : (primitives s i).drop u.k.toNat = rest) : ∃ t, Performs i d u rs t ∧ Leaves e t := by
  induction h generalizing u with
  | ends h =>
    obtain ⟨t, ht, hl⟩ := h u hu hrd
    exact ⟨t, .ends (by rw [hu.exec_eq hpass, hrest, ht]) hl.phase, hl⟩
  | @issues f rest d rd r rs h _ ih =>
    have he : exec i u = .next (present r u) := by
      rw [hu.exec_eq hpass, hrest]
      exact h u hu hrd
    have hrest' : (primitives s i).drop (served r (d 0) u).k.toNat = rest := by
      rw [served_k_toNat he, ← List.tail_drop, hrest, List.tail_cons]
    obtain ⟨t, ht, hl⟩ := ih (hu.served r (d 0)) (by rw [served_rd, hrd]) hrest'
    exact ⟨t, .issues he ht, hl⟩

/-- The byte of a 1-byte read (R34). -/
theorem readByte_of_rd {u : State} {v : BitVec 16} (h : u.rd = readData 1 v) : readByte u = v.extractLsb' 0 8 := by
  rw [readByte, h, readData_one]
  apply BitVec.eq_of_getLsbD_eq
  intro j hj
  simp [hj, Nat.lt_trans hj (by decide : 8 < 16)]

theorem bit8_setWidth (b : Bool) : (bit8 b).setWidth 16 = if b then 1 else 0 := by cases b <;> rfl

/-! The primitives, one by one. -/

section
variable {s : State} {finish : State → Result} {e : CommandEffect} {rest : List (State → Result)} {d : Nat → BitVec 16}
  {rd : BitVec 16} {rs : List Request}

theorem walks_begin {r : Request} (hk : r.kind = .begin) (h : Walks s finish e rest (fun j => d (j + 1)) rd rs) :
    Walks s finish e (begin r :: rest) d rd (r :: rs) :=
  .issues (fun _ _ _ => rfl) (by rw [buffered, if_neg (by simp [hk])]; exact h)

theorem walks_read {a : RegAddr} {n : Width}
    (h : Walks s finish e rest (fun j => d (j + 1)) (readData (BitVec.ofNat 2 n.bytes) (d 0)) rs) :
    Walks s finish e (memRead a n :: rest) d rd (readOf s a n :: rs) :=
  .issues (fun _ hu _ => hu.memRead_eq a n) h

theorem walks_write {f : State → Result} {a : RegAddr} {n : Width} {v : BitVec 16}
    (hf : ∀ u, KeepsBinding s u → u.rd = rd → f u = memWrite a n v u)
    (h : Walks s finish e rest (fun j => d (j + 1)) rd rs) : Walks s finish e (f :: rest) d rd (writeOf s a n v :: rs) :=
  .issues (fun u hu hrd => (hf u hu hrd).trans (hu.memWrite_eq a n v)) h

theorem walks_writeAs {f : HwAddr} {a : RegAddr} {n : Width} {v : BitVec 16}
    (h : Walks s finish e rest (fun j => d (j + 1)) rd rs) :
    Walks s finish e (memWriteAs f a n v :: rest) d rd (writeRequest s f a n v :: rs) :=
  .issues (fun _ hu _ => hu.memWriteAs_eq f a n v) h

theorem walks_rmw {a : RegAddr} {b : BitIndex} {v : Bool}
    (h : Walks s finish e rest (fun j => d (j + 2)) (readData 1 (d 0)) rs) :
    Walks s finish e (rmw a b v ++ rest) d rd (rmwRequests s a b v (d 0) ++ rs) :=
  walks_read (walks_write (fun _ _ hrd => by rw [readByte_of_rd hrd]) h)

/-- An end that leaves the binding as it is. -/
theorem walks_respond {requests : List Request} {data : BitVec 16} {found : Bool}
    (h : ∀ u, KeepsBinding s u → u.rd = rd → (rest.head?.getD finish) u = respond data found u) :
    Walks s finish (effect s requests (okResponse data found)) rest d rd [] :=
  .ends fun u hu hrd => ⟨_, h u hu hrd, rfl, rfl, hu.init, hu.bus, hu.i2cAddr, hu.hwAddr, hu.haenOn⟩

end

/-! The commands. -/

/-- The program of `i` does what its pseudocode says, from an empty read buffer. -/
def ProgramWalks (i : Instr) (s : State) (d : Nat → BitVec 16) : Prop :=
  Walks s (ending i) (commandBody i s d) (primitives s i) d 0 (commandBody i s d).requests

theorem enablePinInterrupt_walks (pin : Byte) (trig : Trigger) (s : State) (d : Nat → BitVec 16) :
    ProgramWalks (.enablePinInterrupt pin trig) s d := by
  cases trig with
  | onChange => exact walks_rmw (walks_rmw (walks_respond fun _ _ _ => rfl))
  | triggerLow | triggerHigh => exact walks_rmw (walks_rmw (walks_rmw (walks_respond fun _ _ _ => rfl)))

theorem capturedInterruptState_walks (s : State) (d : Nat → BitVec 16) : ProgramWalks .capturedInterruptState s d := by
  refine walks_read (walks_respond fun u _ hrd => ?_)
  change respond u.rd false u = _
  rw [hrd]
  unfold intcapWidth
  cases s.cfg.pinCount with
  | eight => exact congrArg (respond · false u) (readData_one (d 0))
  | sixteen => exact congrArg (respond · false u) (readData_two (d 0))

/-- LAST_INTERRUPT_PIN, by the flags of INTF A, the variant and the flags of INTF B (R235). -/
theorem lastInterruptPin_walks (s : State) (d : Nat → BitVec 16) : ProgramWalks .lastInterruptPin s d := by
  change Walks s _ (lastInterruptEffect s _ _) _ d 0 (lastInterruptEffect s _ _).requests
  unfold lastInterruptEffect
  by_cases ha : (d 0).extractLsb' 0 8 = 0
  · rw [if_neg (not_not.2 ha)]
    have hnext {u : State} (hu : KeepsBinding s u) (hrd : u.rd = readData 1 (d 0)) : afterIntfA u =
        if s.cfg.pinCount = .sixteen then memRead (resolve s.cfg .intf .B) .one u else respond 0 false u := by
      rw [afterIntfA, readByte_of_rd hrd, if_neg (not_not.2 ha), hu.cfg]
    cases hc : s.cfg.pinCount with
    | eight => exact walks_read (walks_respond fun u hu hrd => (hnext hu hrd).trans (by simp [hc]))
    | sixteen =>
      have hread (u : State) (hu : KeepsBinding s u) (hrd : u.rd = readData 1 (d 0)) :
          afterIntfA u = .next (present (readOf s (resolve s.cfg .intf .B) .one) u) := by
        rw [hnext hu hrd, if_pos hc, hu.memRead_eq]
      by_cases hb : (d 1).extractLsb' 0 8 = 0
      · rw [if_neg (not_not.2 hb)]
        refine walks_read (.issues hread (walks_respond fun u _ hrd => ?_))
        exact if_neg (not_not.2 ((readByte_of_rd hrd).trans hb))
      · rw [if_pos hb]
        refine walks_read (.issues hread (walks_respond fun u _ hrd => ?_))
        have hbyte := readByte_of_rd hrd
        exact (if_pos (by rwa [hbyte])).trans (by rw [hbyte])
  · rw [if_pos ha]
    refine walks_read (walks_respond fun u _ hrd => ?_)
    have hbyte := readByte_of_rd hrd
    exact (if_pos (by rwa [hbyte])).trans (by rw [hbyte])

/-- ENABLE_HW_ADDRESS_PINS, by the bus and the variant (R250). -/
theorem enableHwAddressPins_walks (s : State) (d : Nat → BitVec 16) : ProgramWalks .enableHwAddressPins s d := by
  change Walks s _ (enableHwAddressEffect s) _ d 0 (enableHwAddressEffect s).requests
  have hends {l : List Request} {rd : BitVec 16} (hb : s.bus = .spi) (u : State) (hu : KeepsBinding s u) (_ : u.rd = rd) :
      ∃ t, ending .enableHwAddressPins u = .next t ∧ Leaves { effect s l (okResponse 0 false) with haenOn := true } t := by
    refine ⟨endWith (okResponse 0 false) (setHaen u), ?_, rfl, rfl, hu.init, hu.bus, hu.i2cAddr, hu.hwAddr, rfl⟩
    simp only [ending, hu.bus, hb, respond_eq]
  unfold enableHwAddressEffect primitives haenWrites
  cases hb : s.bus with
  | i2c => exact walks_respond fun u hu _ => by simp [ending, hu.bus, hb]
  | spi =>
    cases s.cfg.pinCount with
    | eight => exact walks_writeAs (.ends (hends hb))
    | sixteen => exact walks_writeAs (walks_writeAs (.ends (hends hb)))

theorem program_walks (i : Instr) (s : State) (d : Nat → BitVec 16) : ProgramWalks i s d := by
  cases i with
  | bindI2c a => exact walks_begin rfl (.ends fun _ _ _ => ⟨_, rfl, rfl, rfl, rfl, rfl, rfl, rfl, rfl⟩)
  | bindSpi h => exact walks_begin rfl (.ends fun _ _ _ => ⟨_, rfl, rfl, rfl, rfl, rfl, rfl, rfl, rfl⟩)
  | setPinMode pin mode => exact walks_rmw (walks_rmw (walks_respond fun _ _ _ => rfl))
  | digitalRead pin =>
    refine walks_read (walks_respond fun u _ hrd => ?_)
    change respond ((bit8 ((readByte u).getLsbD (bitOf pin).toNat)).setWidth 16) false u = _
    rw [readByte_of_rd hrd, bit8_setWidth]
  | readPort port =>
    refine walks_read (walks_respond fun u _ hrd => ?_)
    change respond ((readByte u).setWidth 16) false u = _
    rw [readByte_of_rd hrd]
  | readPorts16 =>
    exact walks_read (walks_respond fun u _ hrd => congrArg (respond · false u) (hrd.trans (readData_two (d 0))))
  | digitalWrite pin value => exact walks_rmw (walks_respond fun _ _ _ => rfl)
  | disablePinInterrupt pin => exact walks_rmw (walks_respond fun _ _ _ => rfl)
  | writePort port byte => exact walks_write (fun _ _ _ => rfl) (walks_respond fun _ _ _ => rfl)
  | writePorts16 word => exact walks_write (fun _ _ _ => rfl) (walks_respond fun _ _ _ => rfl)
  | configureInterrupts mir odr ah =>
    exact walks_read (walks_write (fun u hu hrd => by rw [readByte_of_rd hrd, hu.cfg]) (walks_respond fun _ _ _ => rfl))
  | enablePinInterrupt pin trig => exact enablePinInterrupt_walks pin trig s d
  | lastInterruptPin => exact lastInterruptPin_walks s d
  | clearInterrupts => exact walks_read (walks_respond fun _ _ _ => rfl)
  | capturedInterruptState => exact capturedInterruptState_walks s d
  | enableHwAddressPins => exact enableHwAddressPins_walks s d

/-- A command accepted with the binding of `s` performs its pseudocode, or ends at once with the status of its first
failed check. -/
theorem command_performs (i : Instr) {s u : State} (d : Nat → BitVec 16) (hu : KeepsBinding s u) (hk : u.k = 0) (hrd : u.rd = 0) :
    ∃ t, Performs i d u (commandEffect i s d).requests t ∧ Leaves (commandEffect i s d) t := by
  unfold commandEffect
  cases hf : firstFailure s (commandChecks i) with
  | none => exact (program_walks i s d).performs hf hu hrd (by rw [hk]; rfl)
  | some st =>
    exact ⟨_, .ends (exec_fail hk ((firstFailure_congr hu.cfg hu.init).trans hf)) rfl,
      rfl, rfl, hu.init, hu.bus, hu.i2cAddr, hu.hwAddr, hu.haenOn⟩

end Sys2Proof.Machine

open Sys2Proof Sys2Proof.Machine

/-- Settles O43: the accepted command performs its pseudocode, and the machine runs what it performs over the exchanges. -/
theorem commandsRunTheirPseudocode : Obligations.CommandsRunTheirPseudocode := by
  intro i s d hwf hp e n start
  have hd : decode s.cfg (encode i) = .ok i := decode_encode hwf
  have hkeeps : KeepsBinding s (latch (encode i) (consume start)) := ⟨rfl, rfl, rfl, rfl, rfl, rfl⟩
  obtain ⟨t, hperf, -, hrsp, hinit, hbus, hi2c, hhw, hhaen⟩ := command_performs i d hkeeps rfl rfl
  obtain ⟨u, hu, hrun, hissued⟩ := hperf.run hd rfl
  obtain ⟨hphase, hcfg, hcmd, hk, hinputs⟩ := hperf.frame
  have hstep : step start = .next u := (step_accept_legal (s := start) rfl hp rfl hd).trans hu
  have hidle : enabledEvent start.phase start.now ≠ some .issue := by
    have hidle : start.phase = .idle := hp
    rw [hidle]
    exact fun h => by cases h
  refine ⟨?_, t, ?_, hphase, hrsp, hk.trans (Nat.zero_add n), hcmd, hcfg, hinit, hbus, hi2c, hhw, hhaen, ?_⟩
  · rw [Nat.add_comm, issuedRequests_step hstep, if_neg hidle, hissued]
    rfl
  · rw [Nat.add_comm, run_step hstep, hrun]
  · rw [hinputs]
    exact List.drop_eq_nil_of_le (exchanges_length d n).le

end

section
/-!
The pin commands at every point of their programs (42_pin_ops.md R180 to R182).
-/

namespace Sys2Proof.Machine

/-- A command whose checks pass stands at the primitive `S.k` names, or past the last one at its end (R142). -/
theorem exec_at {i : Instr} {s : State} {n : BitVec 3} (hpass : firstFailure s (commandChecks i) = none) (hk : s.k = n) :
    exec i s = ((primitives s i)[n.toNat]?.getD (ending i)) s := by
  rw [exec_eq_checked, checked_pass hpass, runSequence_index hk]

/-- A command other than a bind passes its checks when the PRD is initialised and its operand is good (R143). -/
theorem checks_pass_command {i : Instr} {s : State} (hb : isBind i = false) (hi : s.init = true)
    (ho : badOperand s.cfg i = false) : firstFailure s (commandChecks i) = none :=
  checks_pass (by rw [hb, hi]; rfl) ho

/-- A bit of the byte most recently read is that bit of the read buffer (R34). -/
theorem readByte_getLsbD (s : State) {j : Nat} (hj : j < 8) : (readByte s).getLsbD j = s.rd.getLsbD j := by
  simp [readByte, hj]

/-- IODIR is 1 for every mode but Output (R180). -/
theorem iodirBit_eq (mode : PinMode) : (mode != .output) = decide (mode ≠ .output) := by cases mode <;> rfl

/-- GPPU is 1 for InputWithPullup only (R180). -/
theorem gppuBit_eq (mode : PinMode) : (mode == .inputPullup) = decide (mode = .inputPullup) := by cases mode <;> rfl

/-- DIGITAL_READ answers the bit of the read buffer at the pin's place (R181). -/
theorem ending_digitalRead (pin : Byte) (s : State) :
    ending (.digitalRead pin) s = respond (if s.rd.getLsbD (pin.toNat % 8) then 1 else 0) false s := by
  rw [ending, bit8_setWidth, bitOf_toNat, readByte_getLsbD s (Nat.mod_lt _ (by decide))]

end Sys2Proof.Machine

open Sys2Proof Sys2Proof.Machine

/-- Settles O27: with its checks passed, the command stands at the primitive `S.k` names. -/
theorem setPinModeProgram : Obligations.SetPinModeProgram := by
  intro s pin mode hi hpin
  have hpass : firstFailure s (commandChecks (.setPinMode pin mode)) = none :=
    checks_pass_command rfl hi (by simp [badOperand, hpin])
  simp only [← iodirBit_eq, ← gppuBit_eq]
  exact ⟨exec_at hpass, exec_at hpass, exec_at hpass, exec_at hpass, exec_at hpass⟩

/-- Settles O28, as O27; the answered bit is `ending_digitalRead`. -/
theorem digitalReadProgram : Obligations.DigitalReadProgram := by
  intro s pin hi hpin
  have hpass : firstFailure s (commandChecks (.digitalRead pin)) = none :=
    checks_pass_command rfl hi (by simp [badOperand, hpin])
  exact ⟨exec_at hpass, fun hk => (exec_at hpass hk).trans (ending_digitalRead pin s)⟩

/-- Settles O29, as O27, for the register `PORT_WRITE_REG` names. -/
theorem digitalWriteProgram : Obligations.DigitalWriteProgram := by
  intro s pin value reg hi hpin hgpio holat
  have hpass : firstFailure s (commandChecks (.digitalWrite pin value)) = none :=
    checks_pass_command rfl hi (by simp [badOperand, hpin])
  obtain rfl := portWriteReg_eq hgpio holat
  exact ⟨exec_at hpass, exec_at hpass, exec_at hpass⟩

end

section
/-!
The register-file double and one request (95_test_vectors.md 9.1, 20_memory.md R55 to R60): the bytes a write stores and the data a
read is answered with.
-/

namespace Sys2Proof.Machine

/-- Byte `j` of the packed wire bytes is the list's, or 0 past its end (R95). -/
theorem packBytes_byte (l : List Byte) {j : Nat} (hj : j < 4) : (packBytes l).extractLsb' (8 * j) 8 = l.getD j 0 := by
  induction l generalizing j with
  | nil => simp [packBytes]
  | cons b l ih =>
    apply BitVec.eq_of_getLsbD_eq
    intro n hn
    cases j with
    | zero => simp [packBytes, hn, Nat.lt_trans hn (by decide : 8 < 32)]
    | succ j =>
      have hpast : b.getLsbD (8 * (j + 1) + n) = false := BitVec.getLsbD_of_ge _ _ (by omega)
      have hshift : 8 * (j + 1) + n - 8 = 8 * j + n := by omega
      have hge : ¬ 8 * (j + 1) + n < 8 := by omega
      have hlt : 8 * (j + 1) + n < 32 := by omega
      rw [List.getD_cons_succ, ← ih (by omega)]
      simp only [packBytes, BitVec.getLsbD_extractLsb', BitVec.getLsbD_or, BitVec.getLsbD_setWidth, BitVec.getLsbD_shiftLeft,
        hpast, hshift, hge, hlt, hn, decide_true, decide_false, Bool.and_false, Bool.false_or, Bool.not_false, Bool.true_and]

theorem headerLength_write (s : State) (f : HwAddr) (a : RegAddr) (n : Width) (v : BitVec 16) :
    headerLength (writeRequest s f a n v) = (addressBytes s false f a).length := by
  cases hb : s.bus <;> simp [headerLength, writeRequest, addressBytes, hb]

/-- The data bytes of a write stand after the address (R55, R57). -/
theorem wireByte_write (s : State) (f : HwAddr) (a : RegAddr) (n : Width) (v : BitVec 16) {j : Nat} (hj : j < 2) :
    wireByte (writeRequest s f a n v) (headerLength (writeRequest s f a n v) + j) = (dataBytes n v).getD j 0 := by
  have hlen := addressBytes_length s false f a
  rw [headerLength_write, wireByte, writeRequest, packBytes_byte _ (by omega), List.getD_append_right _ _ _ _ (by omega),
    Nat.add_sub_cancel_left]

/-- As many bytes of a write follow its address as its width says (R95). -/
theorem writeRequest_wlen_header (s : State) (f : HwAddr) (a : RegAddr) (n : Width) (v : BitVec 16) :
    (writeRequest s f a n v).wlen.toNat = headerLength (writeRequest s f a n v) + n.bytes := by
  rw [writeRequest_wlen, headerLength_write, List.length_append, dataBytes_length]

/-- A read stores nothing. -/
theorem rfMemory_read (m : Memory) (s : State) (f : HwAddr) (a : RegAddr) (n : Width) :
    rfMemory m (readRequest s f a n) = m := rfl

/-- The double stores a data byte that stands alone at the request's address. -/
theorem rfMemory_of_one_byte {m : Memory} {r : Request} (hk : r.kind = .write) (hlen : r.wlen.toNat = headerLength r + 1) :
    rfMemory m r = rfStore m (requestAddress r) (wireByte r (headerLength r)) := by
  simp [rfMemory, hk, hlen]

/-- The double stores a second data byte at the next address. -/
theorem rfMemory_of_two_bytes {m : Memory} {r : Request} (hk : r.kind = .write) (hlen : r.wlen.toNat = headerLength r + 2) :
    rfMemory m r = rfStore (rfStore m (requestAddress r) (wireByte r (headerLength r))) (requestAddress r + 1)
      (wireByte r (headerLength r + 1)) := by
  simp [rfMemory, hk, hlen]

/-- A 1-byte write stores its byte at its address. -/
theorem rfMemory_write_one (m : Memory) (s : State) (f : HwAddr) (a : RegAddr) (v : BitVec 16) :
    rfMemory m (writeRequest s f a .one v) = rfStore m a.toNat (v.extractLsb' 0 8) := by
  rw [rfMemory_of_one_byte rfl (writeRequest_wlen_header s f a .one v), requestAddress_write]
  exact congrArg (rfStore m a.toNat) (wireByte_write s f a .one v (j := 0) (by decide))

/-- A 2-byte write stores its low byte at its address and its high byte at the next one (R60). -/
theorem rfMemory_write_two (m : Memory) (s : State) (f : HwAddr) (a : RegAddr) (v : BitVec 16) :
    rfMemory m (writeRequest s f a .two v) =
      rfStore (rfStore m a.toNat (v.extractLsb' 0 8)) (a.toNat + 1) (v.extractLsb' 8 8) := by
  have hlow := wireByte_write s f a .two v (j := 0) (by decide)
  have hhigh := wireByte_write s f a .two v (j := 1) (by decide)
  rw [Nat.add_zero] at hlow
  rw [rfMemory_of_two_bytes rfl (writeRequest_wlen_header s f a .two v), requestAddress_write, hlow, hhigh]
  rfl

/-- A read is answered with the byte at its address below the next one. -/
theorem rfData_read (m : Memory) (s : State) (f : HwAddr) (a : RegAddr) (n : Width) :
    rfData m (readRequest s f a n) = m.read (a.toNat + 1) ++ m.read a.toNat := by
  rw [rfData, requestAddress_read]

/-- The low byte of a byte that was widened. -/
theorem extractLsb'_setWidth_byte (b : Byte) : (b.setWidth 16).extractLsb' 0 8 = b := by
  rw [BitVec.extractLsb'_setWidth_of_le (by decide), BitVec.extractLsb'_eq_self]

/-- A byte widened is the byte below a zero byte. -/
theorem setWidth_byte (b : Byte) : b.setWidth 16 = 0#8 ++ b := BitVec.setWidth_eq_append (by decide)

end Sys2Proof.Machine
end

section
/-!
A whole command with the register-file double (95_test_vectors.md 9.1): the data that answer its requests one after the other, the
bytes they leave, and the machine's run from IDLE to IDLE.
-/

namespace Sys2Proof.Machine

/-- The data `d 0`, `d 1` and so on fill the read buffer as the double's answers to these requests do, and the requests take the
double from the first memory to the second. -/
inductive Serves : (Nat → BitVec 16) → Memory → List Request → Memory → Prop where
  | nil {d : Nat → BitVec 16} {m : Memory} : Serves d m [] m
  | cons {d : Nat → BitVec 16} {m m' : Memory} {r : Request} {rs : List Request}
      (hd : buffered r (rfData m r) = buffered r (d 0)) (h : Serves (fun j => d (j + 1)) (rfMemory m r) rs m') :
      Serves d m (r :: rs) m'

/-! The primitives, one by one. -/

section
variable {s : State} {d : Nat → BitVec 16} {m m' : Memory} {a : RegAddr} {rs : List Request}

/-- A 1-byte read is answered with the byte at its address. -/
theorem serves_read_one (hd : (d 0).extractLsb' 0 8 = m.read a.toNat) (h : Serves (fun j => d (j + 1)) m rs m') :
    Serves d m (readOf s a .one :: rs) m' := by
  refine .cons (funext fun rd => ?_) h
  change readData 1 (rfData m _) = readData 1 (d 0)
  rw [readOf, rfData_read, readData_one, readData_one, hd]
  exact congrArg _ BitVec.extractLsb'_append_eq_right

/-- A 2-byte read is answered with the byte at its address below the next one. -/
theorem serves_read_two (hd : d 0 = m.read (a.toNat + 1) ++ m.read a.toNat) (h : Serves (fun j => d (j + 1)) m rs m') :
    Serves d m (readOf s a .two :: rs) m' := by
  refine .cons ?_ h
  rw [readOf, rfData_read, hd]

/-- A 1-byte write stores its byte, and its answer is not looked at. -/
theorem serves_write_one {v : BitVec 16}
    (h : Serves (fun j => d (j + 1)) (rfStore m a.toNat (v.extractLsb' 0 8)) rs m') :
    Serves d m (writeOf s a .one v :: rs) m' :=
  .cons rfl (by rw [writeOf, rfMemory_write_one]; exact h)

/-- A 2-byte write stores its bytes at its address and the next one. -/
theorem serves_write_two {v : BitVec 16}
    (h : Serves (fun j => d (j + 1))
      (rfStore (rfStore m a.toNat (v.extractLsb' 0 8)) (a.toNat + 1) (v.extractLsb' 8 8)) rs m') :
    Serves d m (writeOf s a .two v :: rs) m' :=
  .cons rfl (by rw [writeOf, rfMemory_write_two]; exact h)

/-- A read-modify-write stores the byte it reads with one bit replaced (R160). -/
theorem serves_rmw {b : BitIndex} {v : Bool} (hd : (d 0).extractLsb' 0 8 = m.read a.toNat)
    (h : Serves (fun j => d (j + 2)) (rfStore m a.toNat (setbit (m.read a.toNat) b v)) rs m') :
    Serves d m (rmwRequests s a b v (d 0) ++ rs) m' :=
  serves_read_one hd (serves_write_one (by rw [extractLsb'_setWidth_byte, hd]; exact h))

end

/-! The machine with the double. -/

/-- The state after a completion depends on the data only through the read buffer (R145). -/
theorem served_congr {r : Request} {v w : BitVec 16} (h : buffered r v = buffered r w) (s : State) :
    served r v s = served r w s := by
  change { served r w s with rd := buffered r v s.rd } = served r w s
  rw [h]
  rfl

/-- A command that has presented its response asks nothing of the double. -/
theorem rfServe_resp {n : Nat} {s : State} {m : Memory} (hp : s.phase = .resp) : rfServe n s m = some (s, m) := by
  cases n <;> rw [rfServe, if_pos hp]

/-- A transaction with the double is two steps of the machine. -/
theorem rfServe_succ {n : Nat} {s t u : State} {m : Memory} (hp : s.phase ≠ .resp)
    (htake : step { s with inputs := [Inputs.takeRequest] } = .next t)
    (hdone : step { t with inputs := [Inputs.completion true 0 (rfData m t.req)] } = .next u) :
    rfServe (n + 1) s m = rfServe n u (rfMemory m t.req) := by
  simp only [rfServe, if_neg hp, htake, hdone]

/-- An instant that is the only one to come: the machine reacts to it, with nothing pending. -/
theorem step_single {s : State} (h : s.inputs = []) (i : Inputs) : step { s with inputs := [i] } = react i s := by
  rw [step_cons, ← h]

/-- With no instant to come there is none to pass. -/
theorem consume_eq_self {s : State} (h : s.inputs = []) : consume s = s := by
  rw [consume, h, List.tail_nil, ← h]

theorem runProgram_of_decode {s : State} {i : Instr} (hd : decode s.cfg s.cmd = .ok i) : runProgram s = exec i s := by
  rw [runProgram, hd]

/-- One transaction of the machine with the double: the request is taken and completed, and the command's meaning runs on. -/
theorem rfServe_present {i : Instr} {r : Request} {s u : State} {m : Memory} (hd : decode s.cfg s.cmd = .ok i)
    (hin : s.inputs = []) (hu : exec i (served r (rfData m r) s) = .next u) (n : Nat) :
    rfServe (n + 1) (present r s) m = rfServe n u (rfMemory m r) := by
  have hpresent : consume (present r s) = present r s := consume_eq_self hin
  have hissue : consume (issue (present r s)) = issue (present r s) := consume_eq_self hin
  rw [served, hpresent, hissue] at hu
  refine rfServe_succ (t := issue (present r s)) (by simp) ?_ ?_
  · rw [step_single (s := present r s) hin]
    rfl
  · rw [step_single (s := issue (present r s)) hin]
    exact (runProgram_of_decode (s := receive (rfData m r) (issue (present r s))) hd).trans hu

/-- The double serves a command whose requests it answers with the data the command performs with. -/
theorem Performs.rfServe {i : Instr} {d : Nat → BitVec 16} {s t : State} {rs : List Request} {m m' : Memory} {n : Nat}
    (h : Performs i d s rs t) (hs : Serves d m rs m') (hd : decode s.cfg s.cmd = .ok i) (hin : s.inputs = [])
    (hn : rs.length ≤ n) : ∃ u, exec i s = .next u ∧ Machine.rfServe n u m = some (t, m') := by
  induction h generalizing m n with
  | @ends d s t he hp =>
    cases hs
    exact ⟨t, he, rfServe_resp hp⟩
  | @issues d s t r rs he _ ih =>
    obtain ⟨n, rfl⟩ := Nat.exists_eq_add_of_le' (Nat.one_le_of_lt hn)
    cases hs with
    | cons hbuf hs =>
      obtain ⟨u, hu, hserve⟩ := ih hs hd (by simp [served, hin]) (Nat.le_of_succ_le_succ hn)
      exact ⟨_, he, (rfServe_present hd hin (served_congr hbuf s ▸ hu) n).trans hserve⟩

/-- A command with the double is accepted, served and delivered. -/
theorem rfCommand_of_steps {w : CommandWord} {s u t v : State} {m m' : Memory}
    (haccept : step { s with inputs := [Inputs.command w] } = .next u) (hserve : rfServe 6 u m = some (t, m'))
    (hdeliver : step { t with inputs := [Inputs.takeResponse] } = .next v) : rfCommand w s m = some (v, m') := by
  simp only [rfCommand, haccept, hserve, hdeliver]

/-- Each command of a program is delivered before the next is accepted. -/
theorem rfProgram_cons {w : CommandWord} {ws : List CommandWord} {s t : State} {m m' : Memory}
    (h : rfCommand w s m = some (t, m')) : rfProgram (w :: ws) s m = rfProgram ws t m' := by
  simp only [rfProgram, h]

/-- A command whose checks pass, with the double's answers to what its pseudocode asks: it leaves the pseudocode's response and
binding, and the double as the requests leave it. -/
theorem rfCommand_of_serves {i : Instr} {s : State} {d : Nat → BitVec 16} {m m' : Memory} (hwf : i.wellFormed s.cfg = true)
    (hp : s.phase = .idle) (hpass : firstFailure s (commandChecks i) = none)
    (hs : Serves d m (commandBody i s d).requests m') :
    ∃ t, rfCommand (encode i) s m = some (deliver t, m') ∧ t.cfg = s.cfg ∧ Leaves (commandBody i s d) t := by
  have hd : decode s.cfg (encode i) = .ok i := decode_encode hwf
  have hkeeps : KeepsBinding s (latch (encode i) { s with inputs := [] }) := ⟨rfl, rfl, rfl, rfl, rfl, rfl⟩
  have hlength : (commandBody i s d).requests.length ≤ 6 := by
    obtain ⟨hle, hmax, -⟩ := transactionCounts i s d
    exact hle.trans hmax
  obtain ⟨t, hperf, hleaves⟩ := (program_walks i s d).performs hpass hkeeps rfl rfl
  obtain ⟨u, hu, hserve⟩ := hperf.rfServe hs hd rfl hlength
  obtain ⟨hphase, hcfg, -, -, hinputs⟩ := hperf.frame
  refine ⟨t, rfCommand_of_steps ?_ hserve ?_, hcfg, hleaves⟩
  · exact (step_accept_legal (s := { s with inputs := [Inputs.command (encode i)] }) rfl hp rfl hd).trans hu
  · have ht : t.inputs = [] := hinputs.trans (List.drop_nil)
    rw [step_single ht, react, hphase]
    rfl

/-- `t` is ready for the next command, shows the response `r`, and has the binding of `s`. -/
structure Answered (r : Response) (s t : State) : Prop where
  phase    : t.phase = .idle
  response : t.rsp = r
  keeps    : KeepsBinding s t

theorem exists_answered {P : State → Prop} {r : Response} {s : State} (h : ∃ t, P t ∧ Answered r s t) :
    ∃ t, P t ∧ t.phase = .idle ∧ t.rsp = r :=
  h.imp fun _ ⟨hP, ha⟩ => ⟨hP, ha.phase, ha.response⟩

/-- Only a bind can have an operand that a variant has no word for (R85). -/
theorem wellFormed_of_not_bind {c : Config} {i : Instr} (h : isBind i = false) : i.wellFormed c = true := by
  cases i with
  | bindSpi _ => cases h
  | _ => rfl

/-- A command that leaves the binding as it is, with the double: it is answered as its pseudocode says. -/
theorem rfCommand_answered {i : Instr} {s : State} {d : Nat → BitVec 16} {m m' : Memory} {rs : List Request} {r : Response}
    (hp : s.phase = .idle) (hi : s.init = true) (hb : isBind i = false) (ho : badOperand s.cfg i = false)
    (he : commandBody i s d = effect s rs r) (hs : Serves d m rs m') :
    ∃ t, rfCommand (encode i) s m = some (t, m') ∧ Answered r s t := by
  obtain ⟨t, ht, hcfg, hleaves⟩ := rfCommand_of_serves (wellFormed_of_not_bind hb) hp (checks_pass_command hb hi ho)
    (d := d) (by rw [he]; exact hs)
  rw [he] at hleaves
  obtain ⟨-, hrsp, hinit, hbus, hi2c, hhw, hhaen⟩ := hleaves
  exact ⟨deliver t, ht, rfl, hrsp, hcfg, hinit, hbus, hi2c, hhw, hhaen⟩

end Sys2Proof.Machine
end

section
/-!
The pin, port and polling commands with the register-file double (42_pin_ops.md R180 to R183, 43_port_ops.md R201 to R206,
44_interrupt_ops.md R235 to R241): what each leaves in it and answers.
-/

namespace Sys2Proof.Machine

/-! The registers in the double. -/

/-- Every register is within `T[0x00..0x1F]` (R51, R52). -/
theorem resolve_lt (c : Config) (reg : LogicalReg) (port : Port) : (resolve c reg port).toNat < 0x20 := by
  have hid : reg.id.toNat ≤ 10 := by cases reg <;> decide
  have hport := (portBit port).isLt
  cases hc : c.pinCount with
  | eight => rw [resolve_toNat_eight hc]; omega
  | sixteen => rw [resolve_toNat_sixteen hc]; omega

/-- Two registers of one port have different addresses (R51, R52). -/
theorem resolve_ne (c : Config) {r q : LogicalReg} (h : r ≠ q) (port : Port) :
    (resolve c r port).toNat ≠ (resolve c q port).toNat := by
  intro he
  cases hc : c.pinCount with
  | eight =>
    rw [resolve_toNat_eight hc, resolve_toNat_eight hc] at he
    exact h (LogicalReg.id_injective (BitVec.eq_of_toNat_eq he))
  | sixteen => exact h (resolve_injective hc he).1

/-- The byte of one register after a store to it or to another address. -/
theorem rfStore_resolve_read {m : Memory} (h : m.wf = true) (c : Config) (reg : LogicalReg) (port : Port) (v : Byte) (x : Nat) :
    (rfStore m (resolve c reg port).toNat v).read x = if x = (resolve c reg port).toNat then v else m.read x :=
  rfStore_read h (resolve_lt c reg port) v x

/-- A read-modify-write of one bit replaces it at its address, and every other byte is as before (R160). -/
theorem rfStore_setbit_read {m : Memory} (h : m.wf = true) (c : Config) (reg : LogicalReg) (port : Port) (b : BitIndex) (v : Bool)
    (x : Nat) :
    (rfStore m (resolve c reg port).toNat (setbit (m.read (resolve c reg port).toNat) b v)).read x =
      if x = (resolve c reg port).toNat then setbit (m.read x) b v else m.read x := by
  rw [rfStore_resolve_read h]
  split
  · next hx => rw [hx]
  · rfl

/-- Data whose first completion returns the byte `x` and whose later ones return the byte `y`. -/
def twoBytes (x y : Byte) : Nat → BitVec 16
  | 0 => x.setWidth 16
  | _ + 1 => y.setWidth 16

/-! The interrupt registers (R235, R240, R241). -/

/-- What INTCAP holds: of both ports on the 16-pin variant, of port A with 0 above it on the 8-pin variant (R241). -/
def capturedWord (c : Config) (m : Memory) : BitVec 16 :=
  (if c.pinCount = .sixteen then m.read (resolve c .intcap .B).toNat else 0#8) ++ m.read (resolve c .intcap .A).toNat

theorem capturedWord_eight {c : Config} (h : c.pinCount = .eight) (m : Memory) :
    capturedWord c m = 0#8 ++ m.read (resolve c .intcap .A).toNat := by simp [capturedWord, h]

theorem capturedWord_sixteen {c : Config} (h : c.pinCount = .sixteen) (m : Memory) :
    capturedWord c m = m.read (resolve c .intcap .B).toNat ++ m.read (resolve c .intcap .A).toNat := by simp [capturedWord, h]

/-- The read of INTCAP, as wide as the variant has it. -/
theorem serves_intcap (s : State) (m : Memory) :
    Serves (fun _ => capturedWord s.cfg m) m [readOf s (resolve s.cfg .intcap .A) (intcapWidth s.cfg)] m := by
  cases hc : s.cfg.pinCount with
  | eight =>
    simp only [intcapWidth, hc]
    exact serves_read_one (by rw [capturedWord_eight hc]; exact BitVec.extractLsb'_append_eq_right) .nil
  | sixteen =>
    simp only [intcapWidth, hc]
    exact serves_read_two (by rw [capturedWord_sixteen hc, resolve_A_succ hc]) .nil

/-- LAST_INTERRUPT_PIN leaves the binding as it is. -/
theorem lastInterruptEffect_eq (s : State) (fa fb : Byte) :
    lastInterruptEffect s fa fb = effect s (lastInterruptEffect s fa fb).requests (lastInterruptEffect s fa fb).response := by
  unfold lastInterruptEffect
  split
  · rfl
  · split
    · rfl
    · split <;> rfl

/-- The reads of LAST_INTERRUPT_PIN, as many as it makes. -/
theorem serves_lastInterrupt (s : State) (m : Memory) :
    let fa := m.read (resolve s.cfg .intf .A).toNat
    let fb := m.read (resolve s.cfg .intf .B).toNat
    Serves (twoBytes fa fb) m (lastInterruptEffect s fa fb).requests m := by
  intro fa fb
  have ha : (twoBytes fa fb 0).extractLsb' 0 8 = fa := extractLsb'_setWidth_byte fa
  have hb : (twoBytes fa fb 1).extractLsb' 0 8 = fb := extractLsb'_setWidth_byte fb
  unfold lastInterruptEffect
  split
  · exact serves_read_one ha .nil
  · split
    · exact serves_read_one ha .nil
    · split
      · exact serves_read_one ha (serves_read_one hb .nil)
      · exact serves_read_one ha (serves_read_one hb .nil)

/-- A flag of port A is answered with the least one's place. -/
theorem lastInterruptEffect_portA (s : State) {fa : Byte} (fb : Byte) (ha : fa ≠ 0) :
    (lastInterruptEffect s fa fb).response = okResponse (BitVec.ofNat 16 (lowestSet fa)) true := by
  rw [lastInterruptEffect, if_pos ha]
  rfl

/-- With no flag of port A, a flag of port B is answered with the least one's place past port A's pins. -/
theorem lastInterruptEffect_portB {s : State} {fa fb : Byte} (ha : fa = 0) (hc : s.cfg.pinCount = .sixteen) (hb : fb ≠ 0) :
    (lastInterruptEffect s fa fb).response = okResponse (BitVec.ofNat 16 (8 + lowestSet fb)) true := by
  simp only [lastInterruptEffect, if_neg (not_not.2 ha), hc, if_pos hb]
  rfl

/-- With no flag of a port the variant has, none is found. -/
theorem lastInterruptEffect_none {s : State} {fa fb : Byte} (ha : fa = 0) (hnone : s.cfg.pinCount = .eight ∨ fb = 0) :
    (lastInterruptEffect s fa fb).response = okResponse 0 false := by
  simp only [lastInterruptEffect, if_neg (not_not.2 ha)]
  cases hc : s.cfg.pinCount with
  | eight => rfl
  | sixteen =>
    have hb : fb = 0 := hnone.resolve_left (by simp [hc])
    simp only [if_neg (not_not.2 hb)]
    rfl

section
variable {s : State} (hp : s.phase = .idle) (hi : s.init = true)
include hp hi

/-- SET_PIN_MODE with the double (R180). -/
theorem setPinMode_onDouble {m : Memory} (hm : m.wf = true) {pin : Byte} (hpin : pinValid s.cfg pin = true) (mode : PinMode) :
    let iodir := (resolve s.cfg .iodir (portOf pin)).toNat
    let gppu := (resolve s.cfg .gppu (portOf pin)).toNat
    ∃ t, rfCommand (encode (.setPinMode pin mode)) s m = some (t,
        rfStore (rfStore m iodir (setbit (m.read iodir) (bitOf pin) (mode != .output))) gppu
          (setbit (m.read gppu) (bitOf pin) (mode == .inputPullup))) ∧
      Answered (okResponse 0 false) s t := by
  intro iodir gppu
  have hgppu : (rfStore m iodir (setbit (m.read iodir) (bitOf pin) (mode != .output))).read gppu = m.read gppu := by
    rw [rfStore_resolve_read hm, if_neg (resolve_ne s.cfg (by simp) _)]
  refine rfCommand_answered (d := twoBytes (m.read iodir) (m.read gppu)) hp hi rfl (by simp [badOperand, hpin]) rfl
    (serves_rmw (extractLsb'_setWidth_byte _) (serves_rmw ((extractLsb'_setWidth_byte _).trans hgppu.symm) ?_))
  rw [hgppu]
  exact .nil

/-- DIGITAL_WRITE with the double (R182). -/
theorem digitalWrite_onDouble (m : Memory) {pin : Byte} (hpin : pinValid s.cfg pin = true) (value : Bool) :
    let a := (resolve s.cfg (portWriteReg s.cfg) (portOf pin)).toNat
    ∃ t, rfCommand (encode (.digitalWrite pin value)) s m = some (t, rfStore m a (setbit (m.read a) (bitOf pin) value)) ∧
      Answered (okResponse 0 false) s t := by
  intro a
  exact rfCommand_answered (d := fun _ => (m.read a).setWidth 16) hp hi rfl (by simp [badOperand, hpin]) rfl
    (serves_rmw (extractLsb'_setWidth_byte _) .nil)

/-- WRITE_PORT with the double (R202). -/
theorem writePort_onDouble (m : Memory) {port : Port} (hport : portValid s.cfg port = true) (byte : Byte) :
    ∃ t, rfCommand (encode (.writePort port byte)) s m =
        some (t, rfStore m (resolve s.cfg (portWriteReg s.cfg) port).toNat byte) ∧
      Answered (okResponse 0 false) s t :=
  rfCommand_answered (d := fun _ => 0) hp hi rfl (by simp [badOperand, hport]) rfl
    (serves_write_one (by rw [extractLsb'_setWidth_byte]; exact .nil))

/-- WRITE_PORTS16 with the double (R206). -/
theorem writePorts16_onDouble (m : Memory) (hc : s.cfg.pinCount = .sixteen) (word : PortWord) :
    let reg := portWriteReg s.cfg
    ∃ t, rfCommand (encode (.writePorts16 word)) s m =
        some (t, rfStore (rfStore m (resolve s.cfg reg .A).toNat (word.extractLsb' 0 8)) (resolve s.cfg reg .B).toNat
          (word.extractLsb' 8 8)) ∧
      Answered (okResponse 0 false) s t :=
  rfCommand_answered (d := fun _ => 0) hp hi rfl (by simp [badOperand, hc]) rfl
    (serves_write_two (by rw [resolve_A_succ hc]; exact .nil))

/-- DIGITAL_READ with the double (R181). -/
theorem digitalRead_onDouble (m : Memory) {pin : Byte} (hpin : pinValid s.cfg pin = true) :
    let v := m.read (resolve s.cfg .gpio (portOf pin)).toNat
    ∃ t, rfCommand (encode (.digitalRead pin)) s m = some (t, m) ∧
      Answered (okResponse (if v.getLsbD (pin.toNat % 8) then 1 else 0) false) s t := by
  intro v
  have hv : (v.setWidth 16).extractLsb' 0 8 = v := extractLsb'_setWidth_byte v
  refine rfCommand_answered (d := fun _ => v.setWidth 16) hp hi rfl (by simp [badOperand, hpin]) ?_
    (serves_read_one (s := s) hv .nil)
  rw [commandBody, bitOf_toNat, hv]

/-- READ_PORT with the double (R201). -/
theorem readPort_onDouble (m : Memory) {port : Port} (hport : portValid s.cfg port = true) :
    let v := m.read (resolve s.cfg .gpio port).toNat
    ∃ t, rfCommand (encode (.readPort port)) s m = some (t, m) ∧ Answered (okResponse (0#8 ++ v) false) s t := by
  intro v
  have hv : (0#8 ++ v).extractLsb' 0 8 = v := BitVec.extractLsb'_append_eq_right
  refine rfCommand_answered (d := fun _ => 0#8 ++ v) hp hi rfl (by simp [badOperand, hport]) ?_ (serves_read_one (s := s) hv .nil)
  rw [commandBody, hv, setWidth_byte]

/-- READ_PORTS16 with the double (R205). -/
theorem readPorts16_onDouble (m : Memory) (hc : s.cfg.pinCount = .sixteen) :
    let v := m.read (resolve s.cfg .gpio .B).toNat ++ m.read (resolve s.cfg .gpio .A).toNat
    ∃ t, rfCommand (encode .readPorts16) s m = some (t, m) ∧ Answered (okResponse v false) s t := by
  intro v
  exact rfCommand_answered (d := fun _ => v) hp hi rfl (by simp [badOperand, hc]) rfl
    (serves_read_two (by rw [resolve_A_succ hc]) .nil)

/-- CLEAR_INTERRUPTS with the double (R240). -/
theorem clearInterrupts_onDouble (m : Memory) :
    ∃ t, rfCommand (encode .clearInterrupts) s m = some (t, m) ∧ Answered (okResponse 0 false) s t :=
  rfCommand_answered (d := fun _ => capturedWord s.cfg m) hp hi rfl rfl rfl (serves_intcap s m)

/-- CAPTURED_INTERRUPT_STATE with the double (R241). -/
theorem capturedInterruptState_onDouble (m : Memory) :
    ∃ t, rfCommand (encode .capturedInterruptState) s m = some (t, m) ∧
      Answered (okResponse (capturedWord s.cfg m) false) s t := by
  refine rfCommand_answered (d := fun _ => capturedWord s.cfg m) hp hi rfl rfl ?_ (serves_intcap s m)
  rw [commandBody]
  cases hc : s.cfg.pinCount with
  | eight => simp only [capturedWord_eight hc, BitVec.extractLsb'_append_eq_right, setWidth_byte]
  | sixteen => rfl

/-- LAST_INTERRUPT_PIN with the double (R235). -/
theorem lastInterruptPin_onDouble (m : Memory) :
    let fa := m.read (resolve s.cfg .intf .A).toNat
    let fb := m.read (resolve s.cfg .intf .B).toNat
    ∃ t, rfCommand (encode .lastInterruptPin) s m = some (t, m) ∧ Answered (lastInterruptEffect s fa fb).response s t := by
  intro fa fb
  have hbody : commandBody .lastInterruptPin s (twoBytes fa fb) = lastInterruptEffect s fa fb :=
    congrArg₂ (lastInterruptEffect s) (extractLsb'_setWidth_byte fa) (extractLsb'_setWidth_byte fb)
  exact rfCommand_answered hp hi rfl rfl (hbody.trans (lastInterruptEffect_eq s fa fb)) (serves_lastInterrupt s m)

end

end Sys2Proof.Machine

open Sys2Proof Sys2Proof.Machine

/-- Settles O49: each command's stores read back; the two registers of SET_PIN_MODE and the two ports of WRITE_PORTS16 have different
addresses. -/
theorem doubleAfterPinAndPortWrites : Obligations.DoubleAfterPinAndPortWrites := by
  intro s m reg hm hp hi hgpio holat ok at_
  obtain rfl := portWriteReg_eq hgpio holat
  refine ⟨fun pin mode hpin => ?_, fun pin value hpin => ?_, fun port byte hport => ?_, fun word hc => ?_⟩
  · obtain ⟨t, ht, hphase, hrsp, -⟩ := setPinMode_onDouble hp hi hm hpin mode
    refine ⟨t, _, ht, hrsp, hphase, fun a => ?_⟩
    have hne := resolve_ne s.cfg (show LogicalReg.iodir ≠ .gppu by simp) (portOf pin)
    rw [rfStore_resolve_read (rfStore_wf hm _ _), rfStore_setbit_read hm, iodirBit_eq, gppuBit_eq]
    by_cases ha : a = at_ .gppu (portOf pin)
    · subst ha
      rw [if_pos rfl, if_neg hne.symm, if_pos rfl]
    · rw [if_neg ha, if_neg ha]
  · obtain ⟨t, ht, hphase, hrsp, -⟩ := digitalWrite_onDouble hp hi m hpin value
    exact ⟨t, _, ht, hrsp, hphase, rfStore_setbit_read hm _ _ _ _ _⟩
  · obtain ⟨t, ht, hphase, hrsp, -⟩ := writePort_onDouble hp hi m hport byte
    exact ⟨t, _, ht, hrsp, hphase, rfStore_resolve_read hm _ _ _ _⟩
  · obtain ⟨t, ht, hphase, hrsp, -⟩ := writePorts16_onDouble hp hi m hc word
    refine ⟨t, _, ht, hrsp, hphase, fun a => ?_⟩
    have hne := resolve_A_succ hc (portWriteReg s.cfg)
    rw [rfStore_resolve_read (rfStore_wf hm _ _), rfStore_resolve_read hm]
    by_cases ha : a = at_ (portWriteReg s.cfg) .B
    · subst ha
      rw [if_pos rfl, if_neg (by simp only [at_]; omega), if_pos rfl]
    · rw [if_neg ha, if_neg ha]

/-- Settles O51: what each command answers; the least flag is `lowestSet`'s. -/
theorem doubleAfterReads : Obligations.DoubleAfterReads := by
  intro s m hp hi at_
  refine ⟨fun pin hpin => exists_answered (digitalRead_onDouble hp hi m hpin),
    fun port hport => exists_answered (readPort_onDouble hp hi m hport),
    fun hc => exists_answered (readPorts16_onDouble hp hi m hc), exists_answered (clearInterrupts_onDouble hp hi m),
    exists_answered (capturedInterruptState_onDouble hp hi m), ?_⟩
  obtain ⟨t, ht, hphase, hrsp, -⟩ := lastInterruptPin_onDouble hp hi m
  refine ⟨t, ht, hphase, fun ha => ?_, fun ha hc hb => ?_, fun ha hnone => ?_⟩
  · obtain ⟨hlt, hset, hleast⟩ := lowestSet_spec _ ha
    exact ⟨_, hlt, hset, hleast, hrsp.trans (lastInterruptEffect_portA s _ ha)⟩
  · obtain ⟨hlt, hset, hleast⟩ := lowestSet_spec _ hb
    exact ⟨_, hlt, hset, hleast, hrsp.trans (lastInterruptEffect_portB ha hc hb)⟩
  · exact hrsp.trans (lastInterruptEffect_none ha hnone)

/-- Settles O52, by the three commands one after the other: the bit DIGITAL_READ answers is the one DIGITAL_WRITE stored. -/
theorem pinRoundTripOnTheDouble : Obligations.PinRoundTripOnTheDouble := by
  intro s m pin value hm hp hi hgpio hpin
  obtain ⟨t₁, h₁, hp₁, -, hk₁⟩ := setPinMode_onDouble hp hi hm hpin .output
  generalize hmode : rfStore (rfStore m _ _) _ _ = m₁ at h₁
  have hm₁ : m₁.wf = true := hmode ▸ rfStore_wf (rfStore_wf hm _ _) _ _
  obtain ⟨t₂, h₂, hp₂, -, hk₂⟩ :=
    digitalWrite_onDouble hp₁ (hk₁.init.trans hi) m₁ (by rw [hk₁.cfg]; exact hpin) value
  obtain ⟨t₃, h₃, -, hrsp, -⟩ := digitalRead_onDouble hp₂ (hk₂.init.trans (hk₁.init.trans hi)) _
    (by rw [hk₂.cfg, hk₁.cfg]; exact hpin)
  refine ⟨t₃, _, (rfProgram_cons h₁).trans ((rfProgram_cons h₂).trans (rfProgram_cons h₃)), hrsp.trans ?_⟩
  have hreg : portWriteReg t₁.cfg = .gpio := by rw [hk₁.cfg, portWriteReg, hgpio]
  rw [hreg, hk₂.cfg, rfStore_setbit_read hm₁, if_pos rfl, setbit_bit _ _ _ _ (Nat.mod_lt _ (by decide)), bitOf_toNat,
    if_pos rfl]
  rfl

end

section
/-!
The port commands (43_port_ops.md R201 to R207): at every point of their programs, and written and read back with the register-file
double.
-/

namespace Sys2Proof.Machine

/-- GPIO of port A, where READ_PORTS16 reads (R52, R205). -/
theorem resolve_gpio_A {c : Config} (hc : c.pinCount = .sixteen) : resolve c .gpio .A = 0x12 := by
  rw [resolve_of_sixteen hc]; rfl

/-- READ_PORT answers the byte read, zero-extended (R201). -/
theorem ending_readPort (port : Port) (s : State) :
    ending (.readPort port) s = respond (0#8 ++ s.rd.extractLsb' 0 8) false s := by
  rw [ending, setWidth_byte, readByte]

/-- `resolve_injective` as an equivalence, for rewriting the address comparisons of the double (R52). -/
theorem resolve_toNat_inj {c : Config} (hc : c.pinCount = .sixteen) {r q : LogicalReg} {p o : Port} :
    (resolve c r p).toNat = (resolve c q o).toNat ↔ r = q ∧ p = o :=
  ⟨resolve_injective hc, fun ⟨hr, hp⟩ => by rw [hr, hp]⟩

/-- Port A in bits 7:0 of a port word and port B in bits 15:8 (R11, R60). -/
theorem portWord_eq_append (word : PortWord) : word.extractLsb' 8 8 ++ word.extractLsb' 0 8 = word := by
  rw [BitVec.extractLsb'_append_extractLsb'_eq_extractLsb' (by rfl)]
  exact BitVec.extractLsb'_eq_self

/-- A word stored to both ports of `reg` is what both ports of `reg` read; any other register reads as before. -/
theorem rfStore_ports_read {m : Memory} (hm : m.wf = true) {c : Config} (hc : c.pinCount = .sixteen) (reg r : LogicalReg)
    (word : PortWord) :
    let stored := rfStore (rfStore m (resolve c reg .A).toNat (word.extractLsb' 0 8)) (resolve c reg .B).toNat
      (word.extractLsb' 8 8)
    stored.read (resolve c r .B).toNat ++ stored.read (resolve c r .A).toNat =
      if r = reg then word else m.read (resolve c r .B).toNat ++ m.read (resolve c r .A).toNat := by
  simp only [rfStore_resolve_read (rfStore_wf hm _ _), rfStore_resolve_read hm, resolve_toNat_inj hc]
  by_cases hr : r = reg
  · simp [hr, portWord_eq_append]
  · simp [hr]

/-- WRITE_PORTS16 and then READ_PORTS16 with the double: the word comes back where it was written to GPIO, and what GPIO held before
where it was written to OLAT (R207). -/
theorem writeThenReadPorts16_onDouble {s : State} {m : Memory} (hm : m.wf = true) (hp : s.phase = .idle) (hi : s.init = true)
    (hc : s.cfg.pinCount = .sixteen) (word : PortWord) :
    ∃ t m', rfProgram [encode (.writePorts16 word), encode .readPorts16] s m = some (t, m') ∧
      t.rsp = okResponse (if .gpio = portWriteReg s.cfg then word
        else m.read (resolve s.cfg .gpio .B).toNat ++ m.read (resolve s.cfg .gpio .A).toNat) false := by
  obtain ⟨t₁, h₁, hp₁, -, hk₁⟩ := writePorts16_onDouble hp hi m hc word
  obtain ⟨t₂, h₂, -, hrsp, -⟩ := readPorts16_onDouble hp₁ (hk₁.init.trans hi) _ (by rw [hk₁.cfg, hc])
  refine ⟨t₂, _, (rfProgram_cons h₁).trans (rfProgram_cons h₂), hrsp.trans ?_⟩
  rw [hk₁.cfg, rfStore_ports_read hm hc]

end Sys2Proof.Machine

open Sys2Proof Sys2Proof.Machine

/-- Settles O53: GPIO is the register written, so the word comes back; OLAT is another, and GPIO of a fresh double reads 0. -/
theorem portsRoundTripOnTheDouble : Obligations.PortsRoundTripOnTheDouble := by
  intro s m word hm hp hi hc
  obtain ⟨t, m', hrun, hrsp⟩ := writeThenReadPorts16_onDouble hm hp hi hc word
  refine ⟨fun hgpio => ⟨t, m', hrun, hrsp.trans ?_⟩, fun holat hfresh => ⟨t, m', hrun, hrsp.trans ?_⟩⟩
  · rw [portWriteReg, hgpio, if_pos rfl]; rfl
  · rw [portWriteReg, holat, if_neg (by decide), hfresh, Memory.read, Memory.read]; rfl

/-- Settles O30: with its checks passed, each command stands at its one read or past it. -/
theorem portReadPrograms : Obligations.PortReadPrograms := by
  intro s hi
  refine ⟨fun port hport => ?_, fun hc => ?_⟩
  · have hpass : firstFailure s (commandChecks (.readPort port)) = none :=
      checks_pass_command rfl hi (by simp [badOperand, hport])
    exact ⟨exec_at hpass, fun hk => (exec_at hpass hk).trans (ending_readPort port s)⟩
  · have hpass : firstFailure s (commandChecks .readPorts16) = none :=
      checks_pass_command rfl hi (by simp [badOperand, hc])
    rw [← resolve_gpio_A hc]
    exact ⟨exec_at hpass, exec_at hpass⟩

/-- Settles O31, as O30, for the register `PORT_WRITE_REG` names. -/
theorem portWritePrograms : Obligations.PortWritePrograms := by
  intro s reg hi hgpio holat done
  obtain rfl := portWriteReg_eq hgpio holat
  refine ⟨fun port byte hport => ?_, fun word hc => ?_⟩
  · have hpass : firstFailure s (commandChecks (.writePort port byte)) = none :=
      checks_pass_command rfl hi (by simp [badOperand, hport])
    exact ⟨exec_at hpass, exec_at hpass⟩
  · have hpass : firstFailure s (commandChecks (.writePorts16 word)) = none :=
      checks_pass_command rfl hi (by simp [badOperand, hc])
    exact ⟨exec_at hpass, exec_at hpass⟩

end

section
/-!
The interrupt commands and the hardware address enable with the register-file double (44_interrupt_ops.md R220 to R230,
45_address_pins.md R250 to R252): the bytes each of them leaves.
-/

namespace Sys2Proof.Machine

/-! Read-modify-writes one after the other. -/

/-- A store computed from the byte at its address changes that byte alone. -/
theorem rfStore_update_read {m : Memory} (h : m.wf = true) (f : Byte → Byte) (c : Config) (reg : LogicalReg) (port : Port)
    (x : Nat) :
    (rfStore m (resolve c reg port).toNat (f (m.read (resolve c reg port).toNat))).read x =
      if x = (resolve c reg port).toNat then f (m.read x) else m.read x := by
  rw [rfStore_resolve_read h]
  split
  · next hx => rw [hx]
  · rfl

/-- The double after a read-modify-write of one bit (R160); tied to the model by `serves_storeBit`. -/
def storeBit (m : Memory) (a : RegAddr) (b : BitIndex) (v : Bool) : Memory := rfStore m a.toNat (setbit (m.read a.toNat) b v)

theorem storeBit_wf {m : Memory} (h : m.wf = true) (a : RegAddr) (b : BitIndex) (v : Bool) : (storeBit m a b v).wf = true :=
  rfStore_wf h _ _

theorem storeBit_read {m : Memory} (h : m.wf = true) (c : Config) (reg : LogicalReg) (port : Port) (b : BitIndex) (v : Bool)
    (x : Nat) :
    (storeBit m (resolve c reg port) b v).read x =
      if x = (resolve c reg port).toNat then setbit (m.read x) b v else m.read x :=
  rfStore_setbit_read h c reg port b v x

/-- What answers a read-modify-write and then the transactions that `d` answers: the byte it reads, and data for its write, which
nothing looks at. -/
def rmwData (x : Byte) (d : Nat → BitVec 16) : Nat → BitVec 16
  | 0 => x.setWidth 16
  | 1 => 0
  | n + 2 => d n

/-- A read-modify-write that is answered with the double's byte, and then the rest of the program. -/
theorem serves_storeBit {s : State} {d : Nat → BitVec 16} {m m' : Memory} {a : RegAddr} {b : BitIndex} {v : Bool}
    {rs : List Request} (h : Serves d (storeBit m a b v) rs m') :
    Serves (rmwData (m.read a.toNat) d) m (rmwRequests s a b v (rmwData (m.read a.toNat) d 0) ++ rs) m' :=
  serves_rmw (extractLsb'_setWidth_byte _) h

/-- A 1-byte write addressed as `f` stores its byte, whatever `f` is. -/
theorem serves_writeAs_one {s : State} {d : Nat → BitVec 16} {m m' : Memory} {f : HwAddr} {a : RegAddr} {v : BitVec 16}
    {rs : List Request} (h : Serves (fun j => d (j + 1)) (rfStore m a.toNat (v.extractLsb' 0 8)) rs m') :
    Serves d m (writeRequest s f a .one v :: rs) m' :=
  .cons rfl (by rw [rfMemory_write_one]; exact h)

/-! The comparison registers (R225). -/

/-- The double after the comparison of a pin is set up: INTCON, and DEFVAL unless OnChange (R225); tied to the model by
`enablePinInterrupt_onDouble`. -/
def storeComparison (c : Config) (pin : Byte) (trig : Trigger) (m : Memory) : Memory :=
  if trig = .onChange then storeBit m (resolve c .intcon (portOf pin)) (bitOf pin) false
  else
    storeBit (storeBit m (resolve c .intcon (portOf pin)) (bitOf pin) true) (resolve c .defval (portOf pin)) (bitOf pin)
      (decide (trig = .triggerLow))

theorem storeComparison_wf {m : Memory} (h : m.wf = true) (c : Config) (pin : Byte) (trig : Trigger) :
    (storeComparison c pin trig m).wf = true := by
  unfold storeComparison
  split
  · exact storeBit_wf h _ _ _
  · exact storeBit_wf (storeBit_wf h _ _ _) _ _ _

/-- INTCON and DEFVAL of a port have different addresses, so each takes its own bit. -/
theorem storeComparison_read {m : Memory} (h : m.wf = true) (c : Config) (pin : Byte) (trig : Trigger) (x : Nat) :
    (storeComparison c pin trig m).read x =
      if x = (resolve c .intcon (portOf pin)).toNat then setbit (m.read x) (bitOf pin) (decide (trig ≠ .onChange))
      else if x = (resolve c .defval (portOf pin)).toNat ∧ trig ≠ .onChange then
        setbit (m.read x) (bitOf pin) (decide (trig = .triggerLow))
      else m.read x := by
  have hne := resolve_ne c (show LogicalReg.intcon ≠ .defval by simp) (portOf pin)
  unfold storeComparison
  by_cases ht : trig = .onChange
  · rw [if_pos ht, storeBit_read h]
    simp [ht]
  · rw [if_neg ht, storeBit_read (storeBit_wf h _ _ _), storeBit_read h]
    by_cases hx : x = (resolve c .defval (portOf pin)).toNat
    · subst hx
      simp [ht, hne.symm]
    · simp [ht, hx]

/-! The commands. -/

section
variable {s : State} (hp : s.phase = .idle) (hi : s.init = true)
include hp hi

/-- CONFIGURE_INTERRUPTS with the double (R220). -/
theorem configureInterrupts_onDouble (m : Memory) (mir odr ah : Bool) :
    let iocon := (resolve s.cfg .iocon .A).toNat
    ∃ t, rfCommand (encode (.configureInterrupts mir odr ah)) s m =
        some (t, rfStore m iocon (ioconWith s.cfg (m.read iocon) mir odr ah)) ∧
      Answered (okResponse 0 false) s t := by
  intro iocon
  refine rfCommand_answered (d := fun _ => (m.read iocon).setWidth 16) hp hi rfl rfl rfl
    (serves_read_one (extractLsb'_setWidth_byte _) (serves_write_one ?_))
  simp only [extractLsb'_setWidth_byte, iocon]
  exact .nil

/-- ENABLE_PIN_INTERRUPT with the double, by the trigger (R225). -/
theorem enablePinInterrupt_onDouble (m : Memory) {pin : Byte} (hpin : pinValid s.cfg pin = true) (trig : Trigger) :
    ∃ t, rfCommand (encode (.enablePinInterrupt pin trig)) s m =
        some (t, storeBit (storeComparison s.cfg pin trig m) (resolve s.cfg .gpinten (portOf pin)) (bitOf pin) true) ∧
      Answered (okResponse 0 false) s t := by
  have ho : badOperand s.cfg (.enablePinInterrupt pin trig) = false := by simp [badOperand, hpin]
  cases trig with
  | onChange =>
    exact rfCommand_answered hp hi rfl ho rfl (serves_storeBit (serves_storeBit (d := fun _ => 0) .nil))
  | triggerLow | triggerHigh =>
    exact rfCommand_answered hp hi rfl ho rfl
      (serves_storeBit (serves_storeBit (serves_storeBit (d := fun _ => 0) .nil)))

/-- DISABLE_PIN_INTERRUPT with the double (R230). -/
theorem disablePinInterrupt_onDouble (m : Memory) {pin : Byte} (hpin : pinValid s.cfg pin = true) :
    ∃ t, rfCommand (encode (.disablePinInterrupt pin)) s m =
        some (t, storeBit m (resolve s.cfg .gpinten (portOf pin)) (bitOf pin) false) ∧
      Answered (okResponse 0 false) s t :=
  rfCommand_answered hp hi rfl (by simp [badOperand, hpin]) rfl (serves_storeBit (d := fun _ => 0) .nil)

end

/-- The writes of ENABLE_HW_ADDRESS_PINS, by the bus and the variant: on SPI IOCON holds 0x08 after the first and after the second
(R250, R251). -/
theorem serves_enableHwAddress (s : State) {m : Memory} (hm : m.wf = true) :
    ∃ m', Serves (fun _ => 0) m (enableHwAddressEffect s).requests m' ∧
      ∀ x, m'.read x = if s.bus = .spi ∧ x = (resolve s.cfg .iocon .A).toNat then 0x08 else m.read x := by
  unfold enableHwAddressEffect
  cases hb : s.bus with
  | i2c => exact ⟨m, .nil, fun x => by simp⟩
  | spi =>
    cases s.cfg.pinCount with
    | eight =>
      refine ⟨_, serves_writeAs_one .nil, fun x => ?_⟩
      rw [rfStore_resolve_read hm]
      simp
    | sixteen =>
      refine ⟨_, serves_writeAs_one (serves_writeAs_one .nil), fun x => ?_⟩
      rw [rfStore_resolve_read (rfStore_wf hm _ _), rfStore_resolve_read hm]
      by_cases hx : x = (resolve s.cfg .iocon .A).toNat <;> simp [hx]

/-- ENABLE_HW_ADDRESS_PINS answers OK on either bus (R250). -/
theorem enableHwAddressEffect_response (s : State) : (enableHwAddressEffect s).response = okResponse 0 false := by
  unfold enableHwAddressEffect
  split <;> rfl

/-- ENABLE_HW_ADDRESS_PINS sets the flag on SPI only (R250, R252). -/
theorem enableHwAddressEffect_haenOn (s : State) :
    (enableHwAddressEffect s).haenOn = if s.bus = .spi then true else s.haenOn := by
  unfold enableHwAddressEffect
  split <;> simp_all [effect]

end Sys2Proof.Machine

open Sys2Proof Sys2Proof.Machine

/-- Settles O50: each command's stores read back; GPINTEN, INTCON and DEFVAL of a port have different addresses. -/
theorem doubleAfterInterruptAndAddressWrites : Obligations.DoubleAfterInterruptAndAddressWrites := by
  intro s m hm hp hi ok at_
  refine ⟨fun mir odr ah => ?_, fun pin trig hpin => ?_, fun pin hpin => ?_, ?_⟩
  · obtain ⟨t, ht, hphase, hrsp, -⟩ := configureInterrupts_onDouble hp hi m mir odr ah
    exact ⟨t, _, ht, hrsp, hphase, rfStore_update_read hm (ioconWith s.cfg · mir odr ah) _ _ _⟩
  · obtain ⟨t, ht, hphase, hrsp, -⟩ := enablePinInterrupt_onDouble hp hi m hpin trig
    refine ⟨t, _, ht, hrsp, hphase, fun a => ?_⟩
    have hintcon := resolve_ne s.cfg (show LogicalReg.gpinten ≠ .intcon by simp) (portOf pin)
    have hdefval := resolve_ne s.cfg (show LogicalReg.gpinten ≠ .defval by simp) (portOf pin)
    rw [storeBit_read (storeComparison_wf hm _ _ _), storeComparison_read hm]
    by_cases ha : a = at_ .gpinten (portOf pin)
    · subst ha
      rw [if_pos rfl, if_pos rfl, if_neg hintcon, if_neg (fun h => hdefval h.1)]
    · rw [if_neg ha, if_neg ha]
  · obtain ⟨t, ht, hphase, hrsp, -⟩ := disablePinInterrupt_onDouble hp hi m hpin
    exact ⟨t, _, ht, hrsp, hphase, storeBit_read hm _ _ _ _ _⟩
  · obtain ⟨m', hserves, hread⟩ := serves_enableHwAddress s hm
    obtain ⟨t, ht, -, hleaves⟩ := rfCommand_of_serves (i := .enableHwAddressPins) rfl hp (checks_pass_command rfl hi rfl) hserves
    have hhaen : t.haenOn = if s.bus = .spi then true else s.haenOn := hleaves.haenOn.trans (enableHwAddressEffect_haenOn s)
    refine ⟨deliver t, m', ht, hleaves.response.trans (enableHwAddressEffect_response s), rfl, fun hb => ?_, fun hb => ?_, hread⟩
    · rw [deliver_haenOn, hhaen, if_pos hb]
    · rw [deliver_haenOn, hhaen, if_neg (by simp [hb])]

end

section
/-!
The interrupt commands at every point of their programs (44_interrupt_ops.md R220 to R241).
-/

namespace Sys2Proof.Machine

/-- The bits CONFIGURE_INTERRUPTS does not name are as read (R220). -/
theorem ioconWith_other (c : Config) (v : Byte) (mir odr ah : Bool) {j : Nat} (hj : j < 8) (hm : j ≠ c.mirrorBit.toNat)
    (ho : j ≠ c.odrBit.toNat) (hp : j ≠ c.intpolBit.toNat) : (ioconWith c v mir odr ah).getLsbD j = v.getLsbD j := by
  simp [ioconWith_bit c v mir odr ah j hj, hm, ho, hp]

/-- Where the three positions differ each bit takes its operand (R220). -/
theorem ioconWith_operands (c : Config) (v : Byte) (mir odr ah : Bool) (hmo : c.mirrorBit ≠ c.odrBit)
    (hmp : c.mirrorBit ≠ c.intpolBit) (hop : c.odrBit ≠ c.intpolBit) :
    (ioconWith c v mir odr ah).getLsbD c.mirrorBit.toNat = mir ∧ (ioconWith c v mir odr ah).getLsbD c.odrBit.toNat = odr ∧
      (ioconWith c v mir odr ah).getLsbD c.intpolBit.toNat = ah := by
  rw [ioconWith_bit _ _ _ _ _ _ c.mirrorBit.isLt, ioconWith_bit _ _ _ _ _ _ c.odrBit.isLt,
    ioconWith_bit _ _ _ _ _ _ c.intpolBit.isLt]
  simp [BitVec.toNat_inj, hmo, hmp, hop, hmo.symm, hmp.symm, hop.symm]

theorem intcapWidth_sixteen {c : Config} (h : c.pinCount = .sixteen) : intcapWidth c = .two := by rw [intcapWidth, h]

theorem intcapWidth_eight {c : Config} (h : c.pinCount = .eight) : intcapWidth c = .one := by rw [intcapWidth, h]

/-- LAST_INTERRUPT_PIN with no flag of INTF A: INTF B on the 16-pin variant, else none (R235). -/
theorem afterIntfA_of_zero {s : State} (h : readByte s = 0) :
    afterIntfA s = if s.cfg.pinCount = .sixteen then memRead (resolve s.cfg .intf .B) .one s else respond 0 false s :=
  if_neg (not_not.2 h)

/-- LAST_INTERRUPT_PIN with a flag of INTF A (R235). -/
theorem afterIntfA_of_ne_zero {s : State} (h : readByte s ≠ 0) :
    afterIntfA s = respond (BitVec.ofNat 16 (lowestSet (readByte s))) true s :=
  if_pos h

/-- LAST_INTERRUPT_PIN with no flag of INTF B either (R235). -/
theorem ending_lastInterruptPin_of_zero {s : State} (h : readByte s = 0) : ending .lastInterruptPin s = respond 0 false s :=
  if_neg (not_not.2 h)

/-- LAST_INTERRUPT_PIN with a flag of INTF B, whose pins are 8 and up (R235). -/
theorem ending_lastInterruptPin_of_ne_zero {s : State} (h : readByte s ≠ 0) :
    ending .lastInterruptPin s = respond (BitVec.ofNat 16 (8 + lowestSet (readByte s))) true s :=
  if_pos h

end Sys2Proof.Machine

open Sys2Proof Sys2Proof.Machine

/-- Settles O32: with its checks passed, the command stands at the primitive `S.k` names, and writes back `ioconWith` of the byte
read. -/
theorem configureInterruptsProgram : Obligations.ConfigureInterruptsProgram := by
  intro s mir odr ah hi a m o p
  have hpass : firstFailure s (commandChecks (.configureInterrupts mir odr ah)) = none := checks_pass_command rfl hi rfl
  refine ⟨exec_at hpass, fun hk => ⟨ioconWith s.cfg (readByte s) mir odr ah, fun j hj hm ho hp => ?_, ?_, exec_at hpass hk⟩,
    exec_at hpass⟩
  · rw [ioconWith_other _ _ _ _ _ hj hm ho hp, readByte_getLsbD s hj]
  · exact ioconWith_operands s.cfg (readByte s) mir odr ah

/-- Settles O33, as O32, by the trigger: OnChange has two read-modify-writes, the others have three. -/
theorem pinInterruptPrograms : Obligations.PinInterruptPrograms := by
  intro s pin trig hi hpin reads writes done
  have henable : firstFailure s (commandChecks (.enablePinInterrupt pin trig)) = none :=
    checks_pass_command rfl hi (by simp [badOperand, hpin])
  have hdisable : firstFailure s (commandChecks (.disablePinInterrupt pin)) = none :=
    checks_pass_command rfl hi (by simp [badOperand, hpin])
  refine ⟨?_, ?_, ?_, ?_, exec_at hdisable, exec_at hdisable, exec_at hdisable⟩
  · cases trig <;> exact exec_at henable
  · cases trig <;> exact exec_at henable
  · rintro rfl
    exact ⟨exec_at henable, exec_at henable, exec_at henable⟩
  · intro ht
    cases trig with
    | onChange => exact absurd rfl ht
    | triggerLow | triggerHigh =>
      exact ⟨exec_at henable, exec_at henable, exec_at henable, exec_at henable, exec_at henable⟩

/-- Settles O34, as O32, by whether the byte last read has a flag; the least one is `lowestSet`'s. -/
theorem lastInterruptPinProgram : Obligations.LastInterruptPinProgram := by
  intro s hi noFlag flagged
  have hpass : firstFailure s (commandChecks .lastInterruptPin) = none := checks_pass_command rfl hi rfl
  have hafter : s.k = 1 → exec .lastInterruptPin s = afterIntfA s := exec_at hpass
  have hend : s.k = 2 → exec .lastInterruptPin s = ending .lastInterruptPin s := exec_at hpass
  refine ⟨exec_at hpass, fun hk hz hc => ?_, fun hk hz hc => ?_, fun hk hz => ?_, fun hf => ?_⟩
  · rw [hafter hk, afterIntfA_of_zero hz, if_neg (by simp [hc])]
    rfl
  · rw [hafter hk, afterIntfA_of_zero hz, if_pos hc]
    rfl
  · rw [hend hk, ending_lastInterruptPin_of_zero hz]
    rfl
  · obtain ⟨hlt, hset, hleast⟩ := lowestSet_spec (readByte s) hf
    refine ⟨lowestSet (readByte s), hlt, ?_, fun i hil => ?_, fun hk => ?_, fun hk => ?_⟩
    · rw [← readByte_getLsbD s hlt, hset]
    · rw [← readByte_getLsbD s (hil.trans hlt), hleast i hil]
    · exact (hafter hk).trans (afterIntfA_of_ne_zero hf)
    · exact (hend hk).trans (ending_lastInterruptPin_of_ne_zero hf)

/-- Settles O35, as O32, for the width the variant has. -/
theorem intcapPrograms : Obligations.IntcapPrograms := by
  intro s hi asks
  have hclear : firstFailure s (commandChecks .clearInterrupts) = none := checks_pass_command rfl hi rfl
  have hcaptured : firstFailure s (commandChecks .capturedInterruptState) = none := checks_pass_command rfl hi rfl
  refine ⟨fun hk hc => ?_, fun hk hc => ?_, fun hk => ⟨exec_at hclear hk, exec_at hcaptured hk⟩⟩
  · rw [← intcapWidth_sixteen hc]
    exact ⟨exec_at hclear hk, exec_at hcaptured hk⟩
  · rw [← intcapWidth_eight hc]
    exact ⟨exec_at hclear hk, exec_at hcaptured hk⟩

end

section
/-!
ENABLE_HW_ADDRESS_PINS at every point of its program (45_address_pins.md R250 to R254).
-/

namespace Sys2Proof.Machine

/-- On the 8-pin variant the one write is addressed as 0 (R250). -/
theorem haenWrites_eight {s : State} (hc : s.cfg.pinCount = .eight) :
    haenWrites s = [memWriteAs 0 (resolve s.cfg .iocon .A) .one 0x08] := by
  rw [haenWrites, hc]
  rfl

/-- On the 16-pin variant the same write follows, addressed as `S.hw_addr` (R250, R251). -/
theorem haenWrites_sixteen {s : State} (hc : s.cfg.pinCount = .sixteen) :
    haenWrites s =
      [memWriteAs 0 (resolve s.cfg .iocon .A) .one 0x08, memWriteAs s.hwAddr (resolve s.cfg .iocon .A) .one 0x08] := by
  rw [haenWrites, hc]
  rfl

/-- On I2C the command answers OK wherever it stands, and issues no transaction (R250). -/
theorem exec_enableHwAddressPins_i2c {s : State} (hi : s.init = true) (hb : s.bus = .i2c) :
    exec .enableHwAddressPins s = respond 0 false s := by
  rw [exec_at (checks_pass_command rfl hi rfl) rfl, primitives, hb]
  simp [ending, hb]

/-- On SPI the command stands at the write `S.k` names, or past the last one sets the flag and answers OK (R250, R252). -/
theorem exec_enableHwAddressPins_spi {s : State} {n : BitVec 3} (hi : s.init = true) (hb : s.bus = .spi) (hk : s.k = n) :
    exec .enableHwAddressPins s = ((haenWrites s)[n.toNat]?.getD fun u => respond 0 false (setHaen u)) s := by
  rw [exec_eq_checked, checked_pass (checks_pass_command rfl hi rfl), primitives, hb, ← runSequence_index hk]
  exact runSequence_congr (by simp [ending, hb])

end Sys2Proof.Machine

open Sys2Proof Sys2Proof.Machine

/-- Settles O36 by the bus and, on SPI, by the variant: `S.k` names the write the command stands at, and the flag is set past the
last one. -/
theorem enableHwAddressPinsProgram : Obligations.EnableHwAddressPinsProgram := by
  intro s hi response writes enabled
  refine ⟨exec_enableHwAddressPins_i2c hi, fun hb hk => ?_, fun hb hc hk => ?_, fun hb hc hk => ?_, fun hb hc hk => ?_⟩
  · rw [exec_enableHwAddressPins_spi hi hb hk]
    cases hc : s.cfg.pinCount with
    | eight => rw [haenWrites_eight hc]; rfl
    | sixteen => rw [haenWrites_sixteen hc]; rfl
  · rw [exec_enableHwAddressPins_spi hi hb hk, haenWrites_sixteen hc]
    rfl
  · rw [exec_enableHwAddressPins_spi hi hb hk, haenWrites_sixteen hc]
    rfl
  · rw [exec_enableHwAddressPins_spi hi hb hk, haenWrites_eight hc]
    rfl

end

section
/-!
One event at a time, and no fault (60_exceptions.md R266, R270): which signals an instant's reaction depends on, and why the
fault of log 6 is out of reach.
-/

namespace Sys2Proof.Machine

/-! An instant acts through the one event it enables (R140, R266). -/

/-- Two instants that enable the same event have the same reaction. -/
theorem react_congr {i j : Inputs} {s : State} (h : enabledEvent s.phase i = enabledEvent s.phase j) :
    react i s = react j s := by
  simp only [react, h]

/-- The event of an instant without reset is chosen by the signals of the phase alone. -/
theorem enabledEvent_congr {p : Phase} {i j : Inputs} (hi : i.rst = false) (hj : j.rst = false)
    (hidle : p = .idle → i.cmdValid = j.cmdValid ∧ i.cmdWord = j.cmdWord)
    (hissue : p = .issue → i.txReqReady = j.txReqReady)
    (hwait : p = .wait → i.txDone = j.txDone ∧ i.txOk = j.txOk ∧ i.txErr = j.txErr ∧ i.txRdata = j.txRdata)
    (hresp : p = .resp → i.rspReady = j.rspReady) : enabledEvent p i = enabledEvent p j := by
  cases p with
  | idle =>
    obtain ⟨hvalid, hword⟩ := hidle rfl
    simp [enabledEvent, hi, hj, hvalid, hword]
  | issue => simp [enabledEvent, hi, hj, hissue rfl]
  | wait =>
    obtain ⟨hdone, hok, herr, hdata⟩ := hwait rfl
    simp [enabledEvent, hi, hj, hdone, hok, herr, hdata]
  | resp => simp [enabledEvent, hi, hj, hresp rfl]

/-- In every phase an asserted reset is the event that happens. -/
theorem enabledEvent_rst {p : Phase} {i : Inputs} (h : i.rst = true) : enabledEvent p i = some .reset :=
  if_pos h

/-! The fault needs an outstanding request of no legal command (log 6). -/

/-- While a transaction is outstanding, the latched word is a legal command. -/
theorem Inv.decode_of_wait {s : State} (h : Inv s) (hp : s.phase = .wait) : ∃ i, decode s.cfg s.cmd = .ok i := by
  obtain ⟨i, hd, -⟩ := h.progress (.inr hp)
  exact ⟨i, hd⟩

/-- From a state that meets the invariant every step answers a next state. -/
theorem Inv.step_next {s : State} (h : Inv s) : ∃ t, Machine.step s = .next t := by
  have hcase := step_cases s
  generalize Machine.step s = o at hcase ⊢
  cases hcase with
  | accepted i _ _ _ _ _ he | continued i _ _ _ _ _ _ he => exact he ▸ exec_next i _
  | stopped e _ hp _ _ hd =>
    obtain ⟨i, hi⟩ := h.decode_of_wait hp
    rw [hd] at hi
    cases hi
  | reset _ | illegal _ _ _ _ _ | issued _ _ _ | failed _ _ _ _ | delivered _ _ _ | nothing _ _ => exact ⟨_, rfl⟩

end Sys2Proof.Machine

open Sys2Proof Sys2Proof.Machine

/-- Settles O7: a step is the reaction to one instant, and an instant acts only through the event it enables. -/
theorem eventsNeverCompete : Obligations.EventsNeverCompete := by
  refine ⟨fun s i j rest hi hj hidle hissue hwait hresp => ?_, fun s i rest hr => ?_⟩
  · rw [step_cons, step_cons]
    exact react_congr (enabledEvent_congr hi hj hidle hissue hwait hresp)
  · rw [step_cons, step_cons]
    exact react_congr ((enabledEvent_rst hr).trans (enabledEvent_rst rfl).symm)

/-- Settles O48, by the cases of a step: a command's meaning always answers a next state, and a completion is awaited only by a
legal command. -/
theorem noStepStops : Obligations.NoStepStops := fun _ h => h.step_next

end

section
/-!
Reset from any phase (70_reset_and_hazards.md R290), and the canonical form of the test double's memory through a whole command
(95_test_vectors.md 9.1; log 14): the memory changes only by requests served.
-/

namespace Sys2Proof.Machine

/-! The double takes a run of the machine apart: the converses of `rfServe_resp`, `rfServe_succ` and `rfCommand_of_steps`. -/

/-- The double stops at the response, or serves the presented request and goes on. -/
theorem rfServe_succ_cases {n : Nat} {s t : State} {m m' : Memory} (h : rfServe (n + 1) s m = some (t, m')) :
    (s.phase = .resp ∧ s = t ∧ m = m') ∨
    (s.phase ≠ .resp ∧ ∃ u v, step { s with inputs := [Inputs.takeRequest] } = .next u ∧
      step { u with inputs := [Inputs.completion true 0 (rfData m u.req)] } = .next v ∧
      rfServe n v (rfMemory m u.req) = some (t, m')) := by
  by_cases hp : s.phase = .resp
  · rw [rfServe_resp hp] at h
    cases h
    exact .inl ⟨hp, rfl, rfl⟩
  · rw [rfServe, if_neg hp] at h
    split at h
    case h_1 u htake =>
      split at h
      case h_1 v hdone => exact .inr ⟨hp, u, v, htake, hdone, h⟩
      all_goals cases h
    all_goals cases h

/-- A command that ends with the double was accepted, served and delivered. -/
theorem steps_of_rfCommand {w : CommandWord} {s v : State} {m m' : Memory} (h : rfCommand w s m = some (v, m')) :
    ∃ u t, step { s with inputs := [Inputs.command w] } = .next u ∧ rfServe 6 u m = some (t, m') ∧
      step { t with inputs := [Inputs.takeResponse] } = .next v := by
  rw [rfCommand] at h
  split at h
  case h_1 u haccept =>
    split at h
    case h_1 t m₂ hserve =>
      split at h
      case h_1 hdeliver =>
        cases h
        exact ⟨u, t, haccept, hserve, hdeliver⟩
      all_goals cases h
    case h_2 => cases h
  all_goals cases h

/-- Serving any number of requests keeps the canonical form. -/
theorem rfServe_wf {n : Nat} {s t : State} {m m' : Memory} (hm : m.wf = true) (h : rfServe n s m = some (t, m')) :
    m'.wf = true := by
  induction n generalizing s m with
  | zero =>
    rw [rfServe] at h
    split at h <;> cases h
    exact hm
  | succ n ih =>
    obtain ⟨-, -, rfl⟩ | ⟨-, u, v, -, -, hrest⟩ := rfServe_succ_cases h
    · exact hm
    · exact ih (rfMemory_wf hm u.req) hrest

end Sys2Proof.Machine

open Sys2Proof Sys2Proof.Machine

/-- Settles O1: with reset asserted the step is `hardReset`, whose phase IDLE presents neither a request nor a response. -/
theorem resetClearsEveryField : Obligations.ResetClearsEveryField := by
  intro s hr
  refine ⟨hardReset (consume s), step_reset hr, ?_⟩
  simp [txReqValid, rspValid]

/-- Settles O54: a command changes the double's memory only by the requests the double serves, each of which keeps the form. -/
theorem doubleKeepsItsForm : Obligations.DoubleKeepsItsForm := by
  intro w s t m m' hm h
  obtain ⟨_, _, -, hserve, -⟩ := steps_of_rfCommand h
  exact rfServe_wf hm hserve

end
